-- ==== Sys2Proof/Word.lean ====
section
/-! DEFINITION. The machine word, the register number and the two conversions between words and integers.

A limb is 32 bits and so is every control register (00_scope.md R7, 10_state.md R33). -/

namespace Sys2Proof

/-- A limb, a control register, a command word, a word of the host port (00_scope.md R7, 10_state.md R33). -/
abbrev Word := BitVec 32

/-- The number of a BigUint register, `B0` to `B15` (10_state.md R20). -/
abbrev Reg := Fin 16

/-- The base `2^32` of the limbs (00_scope.md R7). -/
abbrev limbBase : Nat := 4294967296

end Sys2Proof
end

