-- ==== Sys2Proof/Syntax.lean ====
section
/-! DEFINITION. The 29 commands, one constructor per row of spec/opcode_table.json (30_encoding.md R75).

The arguments of a constructor are the register fields its format uses, in the order rd, ra, rb, rc (30_encoding.md R72);
what each field means is 30_encoding.md R76. No command holds an immediate: scalars are in ARG0 and ARG1 (R73). -/

namespace Sys2Proof

/-- The commands of the block (30_encoding.md R75). -/
inductive Instr where
  /-- `ZERO rd` (40_biguint_basic.md R91) -/
  | zero (rd : Reg)
  /-- `FROMU32 rd, #v` (40_biguint_basic.md R92) -/
  | fromu32 (rd : Reg)
  /-- `COPY rd, ra` (40_biguint_basic.md R93) -/
  | copy (rd ra : Reg)
  /-- `CMP ra, rb` (40_biguint_basic.md R94) -/
  | cmp (ra rb : Reg)
  /-- `ISZERO ra` (40_biguint_basic.md R95) -/
  | iszero (ra : Reg)
  /-- `ISONE ra` (40_biguint_basic.md R96) -/
  | isone (ra : Reg)
  /-- `BITLEN ra` (40_biguint_basic.md R97) -/
  | bitlen (ra : Reg)
  /-- `GETBIT ra, #i` (40_biguint_basic.md R98) -/
  | getbit (ra : Reg)
  /-- `SHL rd, ra, #bits` (41_biguint_arith.md R111) -/
  | shl (rd ra : Reg)
  /-- `SHR rd, ra, #bits` (41_biguint_arith.md R112) -/
  | shr (rd ra : Reg)
  /-- `ADD rd, ra, rb` (41_biguint_arith.md R113) -/
  | add (rd ra rb : Reg)
  /-- `SUB rd, ra, rb` (41_biguint_arith.md R115) -/
  | sub (rd ra rb : Reg)
  /-- `MUL rd, ra, rb` (41_biguint_arith.md R117) -/
  | mul (rd ra rb : Reg)
  /-- `DIVMOD`: quotient to rd, remainder to rc, dividend ra, divisor rb (41_biguint_arith.md R119) -/
  | divmod (rd ra rb rc : Reg)
  /-- `MOD rd, ra, rb` (41_biguint_arith.md R122) -/
  | mod (rd ra rb : Reg)
  /-- `MULADDW rd, ra, #w, #c` (41_biguint_arith.md R123) -/
  | muladdw (rd ra : Reg)
  /-- `ADDW rd, ra, #w` (41_biguint_arith.md R125) -/
  | addw (rd ra : Reg)
  /-- `SMODEXP`: base ra, exponent rb, modulus rc (43_schoolbook_modexp.md R150) -/
  | smodexp (rd ra rb rc : Reg)
  /-- `MBUILD ra` (44_montgomery.md R170) -/
  | mbuild (ra : Reg)
  /-- `MDESTROY` (44_montgomery.md R183) -/
  | mdestroy
  /-- `REDC rd, ra` (44_montgomery.md R174) -/
  | redc (rd ra : Reg)
  /-- `MTOFORM rd, ra` (44_montgomery.md R178) -/
  | mtoform (rd ra : Reg)
  /-- `MFROMFORM rd, ra` (44_montgomery.md R179) -/
  | mfromform (rd ra : Reg)
  /-- `MMUL rd, ra, rb` (44_montgomery.md R181) -/
  | mmul (rd ra rb : Reg)
  /-- `MEXP rd, ra, rb` (44_montgomery.md R182) -/
  | mexp (rd ra rb : Reg)
  /-- `MGETN rd` (44_montgomery.md R184) -/
  | mgetn (rd : Reg)
  /-- `MGETRR rd` (44_montgomery.md R185) -/
  | mgetrr (rd : Reg)
  /-- `INVMOD rd, ra, rb` (45_modinverse.md R200) -/
  | invmod (rd ra rb : Reg)
  /-- `MODEXP`: base ra, exponent rb, modulus rc (46_expselector.md R210) -/
  | modexp (rd ra rb rc : Reg)
  deriving DecidableEq, Repr

end Sys2Proof
end

