-- ==== Sys2Proof/WellFormed.lean ====
section
/-! DEFINITION. Which terms of `Instr` are commands: all but a `DIVMOD` whose two results would go to one register. -/

namespace Sys2Proof

/-- The one check on the operands of a command: `DIVMOD` with `rd = rc` is illegal (30_encoding.md R74 step 3, R77;
70_reset_and_hazards.md R269). Every register number is valid (30_encoding.md R70). -/
def Instr.wellFormed : Instr → Bool
  | .zero _ | .fromu32 _ | .copy _ _ | .cmp _ _ | .iszero _ | .isone _ | .bitlen _ | .getbit _ => true
  | .shl _ _ | .shr _ _ | .add _ _ _ | .sub _ _ _ | .mul _ _ _ | .mod _ _ _ | .muladdw _ _ | .addw _ _ => true
  | .divmod rd _ _ rc => rd != rc
  | .smodexp _ _ _ _ | .invmod _ _ _ | .modexp _ _ _ _ => true
  | .mbuild _ | .mdestroy | .redc _ _ | .mtoform _ _ | .mfromform _ _ | .mmul _ _ _ | .mexp _ _ _ => true
  | .mgetn _ | .mgetrr _ => true

end Sys2Proof
end

