-- ==== Sys2Proof/Decode.lean ====
section
/-! DEFINITION. The command word: its fields, its seven formats, the opcode map, the decoder and the encoder.

30_encoding.md R70 to R79. Decoding is total: a word selects one command or is rejected by name. -/

namespace Sys2Proof

/-! ## The fields of a word (30_encoding.md R70) -/

/-- `op`, bits 31:24. -/
def opField (w : Word) : BitVec 8 := w.extractLsb' 24 8

/-- The register number in bits `lo+3` down to `lo`. -/
def regField (lo : Nat) (w : Word) : Reg := (w.extractLsb' lo 4).toFin

/-- `rd`, bits 23:20. -/
abbrev rdField (w : Word) : Reg := regField 20 w
/-- `ra`, bits 19:16. -/
abbrev raField (w : Word) : Reg := regField 16 w
/-- `rb`, bits 15:12. -/
abbrev rbField (w : Word) : Reg := regField 12 w
/-- `rc`, bits 11:8. -/
abbrev rcField (w : Word) : Reg := regField 8 w

/-- The word with these fields and `z = 0` (30_encoding.md R70, R71). -/
def commandWord (op : BitVec 8) (rd ra rb rc : Reg) : Word :=
  op ++ BitVec.ofNat 4 rd.val ++ BitVec.ofNat 4 ra.val ++ BitVec.ofNat 4 rb.val ++ BitVec.ofNat 4 rc.val ++ 0#8

/-! ## Formats (30_encoding.md R72) -/

/-- The formats: which register fields a command uses. -/
inductive Format where
  | F0 | FD | FA | FAB | FDA | FDAB | FDABC
  deriving DecidableEq, Repr

/-- The bits a decoder compares: the opcode, every unused field, and `z`. -/
def Format.mask : Format → Word
  | .F0    => 0xFFFFFFFF#32
  | .FD    => 0xFF0FFFFF#32
  | .FA    => 0xFFF0FFFF#32
  | .FAB   => 0xFFF00FFF#32
  | .FDA   => 0xFF00FFFF#32
  | .FDAB  => 0xFF000FFF#32
  | .FDABC => 0xFF0000FF#32

/-! ## The opcode map (30_encoding.md R75) -/

/-- A row of the opcode map. `build` places the four register fields of a word (rd, ra, rb, rc) as the command's
operands (30_encoding.md R76); it takes the fields the format uses and drops the others, which are zero. -/
structure OpRow where
  mnemonic : String
  op : BitVec 8
  format : Format
  build : Reg → Reg → Reg → Reg → Instr

/-- `match(X)`, the opcode in bits 31:24 and zeros below (30_encoding.md R72). -/
def OpRow.matchWord (row : OpRow) : Word := row.op ++ 0#24

/-- A word encodes a row's command iff it agrees with `match` under `mask` (30_encoding.md R72). -/
def OpRow.accepts (row : OpRow) (w : Word) : Bool := (w &&& row.format.mask) == row.matchWord

/-- Family 1: queries and moves. -/
def basicRows : List OpRow :=
  [ ⟨"ZERO",    0x10#8, .FD,  fun d _ _ _ => .zero d⟩,
    ⟨"FROMU32", 0x11#8, .FD,  fun d _ _ _ => .fromu32 d⟩,
    ⟨"COPY",    0x12#8, .FDA, fun d a _ _ => .copy d a⟩,
    ⟨"CMP",     0x13#8, .FAB, fun _ a b _ => .cmp a b⟩,
    ⟨"ISZERO",  0x14#8, .FA,  fun _ a _ _ => .iszero a⟩,
    ⟨"ISONE",   0x15#8, .FA,  fun _ a _ _ => .isone a⟩,
    ⟨"BITLEN",  0x16#8, .FA,  fun _ a _ _ => .bitlen a⟩,
    ⟨"GETBIT",  0x17#8, .FA,  fun _ a _ _ => .getbit a⟩ ]

/-- Family 2: arithmetic. -/
def arithRows : List OpRow :=
  [ ⟨"SHL",     0x20#8, .FDA,   fun d a _ _ => .shl d a⟩,
    ⟨"SHR",     0x21#8, .FDA,   fun d a _ _ => .shr d a⟩,
    ⟨"ADD",     0x22#8, .FDAB,  fun d a b _ => .add d a b⟩,
    ⟨"SUB",     0x23#8, .FDAB,  fun d a b _ => .sub d a b⟩,
    ⟨"MUL",     0x24#8, .FDAB,  fun d a b _ => .mul d a b⟩,
    ⟨"DIVMOD",  0x25#8, .FDABC, fun d a b c => .divmod d a b c⟩,
    ⟨"MOD",     0x26#8, .FDAB,  fun d a b _ => .mod d a b⟩,
    ⟨"MULADDW", 0x27#8, .FDA,   fun d a _ _ => .muladdw d a⟩,
    ⟨"ADDW",    0x28#8, .FDA,   fun d a _ _ => .addw d a⟩ ]

/-- Family 4: the Montgomery unit. -/
def montgomeryRows : List OpRow :=
  [ ⟨"MBUILD",    0x40#8, .FA,   fun _ a _ _ => .mbuild a⟩,
    ⟨"MDESTROY",  0x41#8, .F0,   fun _ _ _ _ => .mdestroy⟩,
    ⟨"REDC",      0x42#8, .FDA,  fun d a _ _ => .redc d a⟩,
    ⟨"MTOFORM",   0x43#8, .FDA,  fun d a _ _ => .mtoform d a⟩,
    ⟨"MFROMFORM", 0x44#8, .FDA,  fun d a _ _ => .mfromform d a⟩,
    ⟨"MMUL",      0x45#8, .FDAB, fun d a b _ => .mmul d a b⟩,
    ⟨"MEXP",      0x46#8, .FDAB, fun d a b _ => .mexp d a b⟩,
    ⟨"MGETN",     0x47#8, .FD,   fun d _ _ _ => .mgetn d⟩,
    ⟨"MGETRR",    0x48#8, .FD,   fun d _ _ _ => .mgetrr d⟩ ]

/-- Families 3, 5 and 6: schoolbook exponentiation, modular inverse, selector. -/
def exponentRows : List OpRow :=
  [ ⟨"SMODEXP", 0x30#8, .FDABC, fun d a b c => .smodexp d a b c⟩,
    ⟨"INVMOD",  0x50#8, .FDAB,  fun d a b _ => .invmod d a b⟩,
    ⟨"MODEXP",  0x60#8, .FDABC, fun d a b c => .modexp d a b c⟩ ]

/-- The opcode map, 29 rows (30_encoding.md R75). -/
def opcodeTable : List OpRow := basicRows ++ arithRows ++ montgomeryRows ++ exponentRows

/-! ## The decoder (30_encoding.md R74, R77) -/

/-- Why a word is no command; every reason completes with `IllegalCommand` (60_exceptions.md R235). -/
inductive DecodeError where
  /-- the opcode is in no row (R74 step 1) -/
  | unassignedOpcode
  /-- an unused field or `z` is not zero (R74 step 2) -/
  | reservedFieldNonzero
  /-- `DIVMOD` with `rd = rc` (R74 step 3) -/
  | divmodOneDestination
  deriving DecidableEq, Repr

/-- The row of an opcode. -/
def findRow (op : BitVec 8) : Option OpRow := opcodeTable.find? (fun row => row.op == op)

/-- Decode one command word, in the order of 30_encoding.md R74. -/
def decode (w : Word) : Except DecodeError Instr :=
  match findRow (opField w) with
  | none => .error .unassignedOpcode
  | some row =>
    if row.accepts w then
      let i := row.build (rdField w) (raField w) (rbField w) (rcField w)
      if i.wellFormed then .ok i else .error .divmodOneDestination
    else .error .reservedFieldNonzero

/-! ## The encoder (30_encoding.md R70, R72, R75, R76) -/

/-- The word of a command: unused fields and `z` are zero (30_encoding.md R71). -/
def encode : Instr → Word
  | .zero d          => commandWord 0x10#8 d 0 0 0
  | .fromu32 d       => commandWord 0x11#8 d 0 0 0
  | .copy d a        => commandWord 0x12#8 d a 0 0
  | .cmp a b         => commandWord 0x13#8 0 a b 0
  | .iszero a        => commandWord 0x14#8 0 a 0 0
  | .isone a         => commandWord 0x15#8 0 a 0 0
  | .bitlen a        => commandWord 0x16#8 0 a 0 0
  | .getbit a        => commandWord 0x17#8 0 a 0 0
  | .shl d a         => commandWord 0x20#8 d a 0 0
  | .shr d a         => commandWord 0x21#8 d a 0 0
  | .add d a b       => commandWord 0x22#8 d a b 0
  | .sub d a b       => commandWord 0x23#8 d a b 0
  | .mul d a b       => commandWord 0x24#8 d a b 0
  | .divmod d a b c  => commandWord 0x25#8 d a b c
  | .mod d a b       => commandWord 0x26#8 d a b 0
  | .muladdw d a     => commandWord 0x27#8 d a 0 0
  | .addw d a        => commandWord 0x28#8 d a 0 0
  | .smodexp d a b c => commandWord 0x30#8 d a b c
  | .mbuild a        => commandWord 0x40#8 0 a 0 0
  | .mdestroy        => commandWord 0x41#8 0 0 0 0
  | .redc d a        => commandWord 0x42#8 d a 0 0
  | .mtoform d a     => commandWord 0x43#8 d a 0 0
  | .mfromform d a   => commandWord 0x44#8 d a 0 0
  | .mmul d a b      => commandWord 0x45#8 d a b 0
  | .mexp d a b      => commandWord 0x46#8 d a b 0
  | .mgetn d         => commandWord 0x47#8 d 0 0 0
  | .mgetrr d        => commandWord 0x48#8 d 0 0 0
  | .invmod d a b    => commandWord 0x50#8 d a b 0
  | .modexp d a b c  => commandWord 0x60#8 d a b c

/-! ## The host's view of a table word -/

/-- A command word from the table's numbering: bit 0 least significant, the bits above `nbits` zero.
A command is one 32-bit word, so no bit above 31 exists (30_encoding.md R70). -/
def tableWord (nbits w : Nat) : Word := BitVec.ofNat 32 (w % 2 ^ nbits)

/-- The command the decoder reads from a word numbered as spec/opcode_table.json numbers it. -/
def decodeTableWord (nbits w : Nat) : Option Instr :=
  match decode (tableWord nbits w) with
  | .ok i => some i
  | .error _ => none

end Sys2Proof
end

