-- ==== Sys2Proof/Config.lean ====
section
/-! DEFINITION. What is fixed when a block is built, the constants of the hardware, and the one free value.

`CAP` is the spec's only open parameter (00_scope.md R8, 92_eei_decisions.md D3). Everything else here is a constant
(00_scope.md R9, R11). -/

namespace Sys2Proof

/-- The build-time parameter of one block (00_scope.md R8): `cap` is `CAP`, the number of limbs of a BigUint.
DESIGN CHOICE (log entry 1): it stands in State, so that statements hold for every allowed capacity. Safe. -/
structure Config where
  cap : Nat
  deriving DecidableEq, Repr

/-- The default capacity, 512 limbs (00_scope.md R8). -/
def Config.standard : Config := { cap := 512 }

/-- The constraint on the parameter, `512 ≤ CAP ≤ 65535` (00_scope.md R8). -/
abbrev Config.Allowed (c : Config) : Prop := 512 ≤ c.cap ∧ c.cap ≤ 65535

/-- `NREG` (00_scope.md R9). -/
abbrev Config.nreg : Nat := 16

/-- `W`, the limb width in bits (00_scope.md R7). -/
abbrev Config.limbBits : Nat := 32

/-- The largest limb count of an exponent that takes the binary algorithm (00_scope.md R11, 43_schoolbook_modexp.md R152). -/
abbrev Config.smallExponentLimbs : Nat := 20

/-- The smallest bit length of a modulus that the selector gives to the Montgomery engine
(00_scope.md R11, 46_expselector.md R211). -/
abbrev Config.montgomeryMinBits : Nat := 512

/-- The word a host read returns while BUSY, for the n-th such read (20_memory.md R59, 93_implementation_defined.md U20).
A free value: no body, so no proof can know it. Log entry 4. -/
opaque Config.busyRead : Nat → Word

end Sys2Proof
end

