-- ==== Sys2Proof/Machine/State.lean ====
section
/-! DEFINITION. The state of the block, its reset value, and the reasons a step can stop.

10_state.md lists all state: sixteen BigUint registers, one Montgomery context, the scalar and status registers, the
controller. A BigUint register is held as the integer it represents (00_scope.md R13; log entry 2); its limbs and its
`used` count are views, defined in Machine/Ops.lean. Three fields stand for the outside world: `turns`, `replies`,
`draws` (log entries 3, 7 and 4). -/

namespace Sys2Proof.Machine

/-- The error kinds (60_exceptions.md R230), codes 1 to 13 in this order. Code 0, no error, is `none` of `Option ErrKind`. -/
inductive ErrKind where
  /-- 1: host codec only (42_codec.md R145) -/
  | badFormat
  /-- 2: host codec only (42_codec.md R145) -/
  | bufferTooSmall
  /-- 3 -/
  | overflow
  /-- 4 -/
  | underflow
  /-- 5 -/
  | divisionByZero
  /-- 6 -/
  | zeroOperand
  /-- 7 -/
  | noInverse
  /-- 8 -/
  | evenModulus
  /-- 9 -/
  | zeroModulus
  /-- 10 -/
  | domainError
  /-- 11: enters FATAL when a command ends with it (60_exceptions.md R237, R238) -/
  | internalInvariantBroken
  /-- 12 (60_exceptions.md R235) -/
  | illegalCommand
  /-- 13 (60_exceptions.md R236) -/
  | contextState
  deriving DecidableEq, Repr

/-- The controller state, in the place of a program counter (10_state.md R27). -/
inductive Fsm where
  | idle | busy | fatal
  deriving DecidableEq, Repr

/-- `STATUS.ENGINE`: which engine produced the last successful `MODEXP` result (10_state.md R35). -/
inductive Engine where
  | none | schoolbook | montgomery
  deriving DecidableEq, Repr

/-- `CTX.state` (10_state.md R29). -/
inductive CtxState where
  | uninitialized | active | destroyed
  deriving DecidableEq, Repr

/-- The Montgomery context slot (10_state.md R29): the modulus, its limb count, the word inverse, `R² mod n`. -/
structure Ctx where
  state : CtxState
  n : Nat
  k : Nat
  nPrime : Word
  rSquared : Nat
  deriving DecidableEq, Repr

/-- What the outside can do on a turn: one access of the host port (20_memory.md R51), or the reset input
asserted and released (70_reset_and_hazards.md R260). -/
inductive Access where
  | read (addr : Nat)
  | write (addr : Nat) (v : Word)
  | reset
  deriving DecidableEq, Repr

/-- Who moves next (log entry 3): the controller, or the outside with one access. -/
inductive Turn where
  | controller
  | host (a : Access)
  deriving DecidableEq, Repr

/-- The state of the block. -/
structure State where
  /-- `CAP`, shown by `CONFIG` (10_state.md R40); no step changes it (log entry 1) -/
  config : Config
  /-- `B[r]` as integers (10_state.md R20, R21; 00_scope.md R13) -/
  regs : Vector Nat 16
  /-- `CTX` (10_state.md R29) -/
  ctx : Ctx
  /-- `ARG0` (10_state.md R36) -/
  arg0 : Word
  /-- `ARG1` (10_state.md R36) -/
  arg1 : Word
  /-- `RES0` (10_state.md R37) -/
  res0 : Word
  /-- `fsm` (10_state.md R27); `STATUS.BUSY` and `STATUS.FATAL` are views of it -/
  fsm : Fsm
  /-- the command latch (10_state.md R27), read only while BUSY -/
  cmd : Word
  /-- `STATUS.DONE` (10_state.md R35) -/
  done : Bool
  /-- `STATUS.ERRKIND` (10_state.md R35) -/
  errKind : Option ErrKind
  /-- `STATUS.ENGINE` (10_state.md R35) -/
  engine : Engine
  /-- `STATUS.FALLBACK` (10_state.md R35) -/
  fallback : Bool
  /-- model only: who moves next, soonest first (log entry 3) -/
  turns : List Turn
  /-- model only: the words the port has returned to the host, newest first (log entry 7) -/
  replies : List Word
  /-- model only: how many free words have been drawn (log entry 4) -/
  draws : Nat
  deriving DecidableEq, Repr

/-- Why a step can stop. -/
inductive Fault where
  /-- Raised by a host access at an offset at or above `PORT_SIZE`, which does not exist (20_memory.md R51, R57;
  93_implementation_defined.md U27). Safe: no such access is in the spec's domain. Log entry 8. -/
  | noSuchOffset (addr : Nat)
  deriving DecidableEq, Repr

/-- Why a command can be without meaning: no command is. -/
inductive Refusal where
  /-- A command that is not modelled yet, by its mnemonic; raised by no arm of this model. Safe. -/
  | notModelled (mnemonic : String)
  deriving DecidableEq, Repr

/-- The context after reset: Uninitialized, all fields zero (10_state.md R44). -/
def Ctx.reset : Ctx := { state := .uninitialized, n := 0, k := 0, nPrime := 0#32, rSquared := 0 }

/-- The state after reset (10_state.md R44; 70_reset_and_hazards.md R260), for the default capacity.
`cmd` is unspecified there and 0 here (log entry 6); nothing waits at the port (log entries 3, 4, 7). -/
def State.reset : State :=
  { config := Config.standard
    regs := Vector.replicate 16 0
    ctx := Ctx.reset
    arg0 := 0#32
    arg1 := 0#32
    res0 := 0#32
    fsm := .idle
    cmd := 0#32
    done := false
    errKind := none
    engine := .none
    fallback := false
    turns := []
    replies := []
    draws := 0 }

end Sys2Proof.Machine
end

