-- ==== Sys2Proof/Machine/Ops.lean ====
section
/-! DEFINITION. The shared operations: the limb views of a BigUint, reading and writing registers, and the completion of a
command, with success or with an error kind.

Completion with an error kind takes the place of taking an exception (60_exceptions.md R233, R238); there is no return
from it, since a failed command is over (R233). -/

namespace Sys2Proof.Machine

/-! ## Views of a BigUint (00_scope.md R13, 10_state.md R21) -/

/-- `bitlen(v)`: the least `L` with `v < 2^L` (00_scope.md R13). -/
def bitlen (v : Nat) : Nat := if v = 0 then 0 else Nat.log2 v + 1

/-- `len32(v)`: the least `u` with `v < 2^(32·u)`; it is `used(big(v))` (00_scope.md R13). -/
def len32 (v : Nat) : Nat := (bitlen v + 31) / 32

/-- `limbs[i]` of the BigUint of value `v`, that is `(v >> 32·i) mod 2^32` (00_scope.md R13). -/
def limb (v i : Nat) : Word := BitVec.ofNat 32 (v >>> (32 * i))

/-- Bit `i` of `v`, as 0 or 1: `(v >> i) mod 2`. -/
def bitOf (v i : Nat) : Nat := (v >>> i) % 2

/-- The low `count` limbs of `v`, limb 0 first (20_memory.md R54). -/
def toLimbs (count v : Nat) : List Word := (List.range count).map (limb v)

/-- The integer of a list of limbs, limb 0 first: `Σ limbs[i]·2^(32·i)` (00_scope.md R13). -/
def ofLimbs : List Word → Nat
  | [] => 0
  | l :: ls => l.toNat + limbBase * ofLimbs ls

/-- `v` needs at most `cap` limbs, that is `v < 2^(32·cap)` (10_state.md R21). -/
def fits (cap v : Nat) : Bool := decide (len32 v ≤ cap)

/-- The value after limb `i` of `v` is replaced by `w`: `val − old·2^(32·i) + new·2^(32·i)` (10_state.md R25). -/
def replaceLimb (v i : Nat) (w : Word) : Nat :=
  v - ((limb v i).toNat <<< (32 * i)) + (w.toNat <<< (32 * i))

/-! ## Registers (10_state.md R20, R23) -/

/-- `CAP`. -/
abbrev State.cap (s : State) : Nat := s.config.cap

/-- `val(B[r])`. -/
def State.reg (s : State) (r : Reg) : Nat := s.regs[r]

/-- `B[r] <- v` (00_scope.md R14). -/
def State.setReg (s : State) (r : Reg) (v : Nat) : State := { s with regs := s.regs.set r v }

/-- `used(B[r])` (10_state.md R21). -/
def State.used (s : State) (r : Reg) : Nat := len32 (s.reg r)

/-- `B[r].limbs[i]` (10_state.md R21). -/
def State.limb (s : State) (r : Reg) (i : Nat) : Word := Machine.limb (s.reg r) i

/-- The host write of a limb; `used` follows, being a view (10_state.md R25). -/
def State.writeLimb (s : State) (r : Reg) (i : Nat) (w : Word) : State :=
  s.setReg r (replaceLimb (s.reg r) i w)

/-! ## The controller (10_state.md R28) -/

/-- Accept: latch the word and go BUSY; the other `STATUS` fields keep their values (10_state.md R28(b)). -/
def State.accept (s : State) (w : Word) : State := { s with cmd := w, fsm := .busy, done := false }

/-- Complete with success; `ENGINE` and `FALLBACK` are 0 after every command but `MODEXP`
(10_state.md R28(c), R35; 40_biguint_basic.md R90(c)). The latch keeps the completed word (log entry 6). -/
def State.succeed (s : State) (engine : Engine := .none) (fallback : Bool := false) : State :=
  { s with fsm := .idle, done := true, errKind := none, engine := engine, fallback := fallback }

/-- The controller state after a command ends with a kind: FATAL for `InternalInvariantBroken`, IDLE for every other
(60_exceptions.md R233, R238). -/
def fsmAfter : ErrKind → Fsm
  | .internalInvariantBroken => .fatal
  | _ => .idle

/-- Complete with an error kind: nothing but `STATUS` and the controller state changes
(10_state.md R28(c), 60_exceptions.md R233, R238). The latch keeps the completed word (log entry 6). -/
def State.failWith (s : State) (kind : ErrKind) (fallback : Bool := false) : State :=
  { s with fsm := fsmAfter kind, done := true, errKind := some kind, engine := .none, fallback := fallback }

/-- The completion step of a command whose rule gives the state `r` or raises (10_state.md R28(c)). -/
def finish (s : State) (r : Except ErrKind State) : Host.Outcome State Fault Refusal :=
  match r with
  | .ok t => .next t.succeed
  | .error kind => .next (s.failWith kind)

/-- The completion step of a command with one destination register: `B[rd] <- v`, or the kind it raised. -/
def finishReg (s : State) (rd : Reg) (r : Except ErrKind Nat) : Host.Outcome State Fault Refusal :=
  finish s (r.map (s.setReg rd))

/-- The completion step of a command with a scalar result: `RES0 <- w` (10_state.md R37). -/
def finishRes (s : State) (w : Word) : Host.Outcome State Fault Refusal :=
  finish s (.ok { s with res0 := w })

/-- The reset input (70_reset_and_hazards.md R260, R262): every state field takes its reset value; `CONFIG` is a constant
(10_state.md R44), and what stands for the outside world is not the block's (log entry 9). -/
def State.applyReset (s : State) : State :=
  { State.reset with config := s.config, turns := s.turns, replies := s.replies, draws := s.draws }

end Sys2Proof.Machine
end

