-- ==== Sys2Proof/Machine/BigNum.lean ====
section
/-! DEFINITION. The value-level helpers of the BigUint unit (00_scope.md R14; 41_biguint_arith.md), used by every command.

Each takes and returns integers or raises a kind. All arithmetic is exact; nothing wraps (41_biguint_arith.md R110). -/

namespace Sys2Proof.Machine

/-- `v`, or `Overflow` when it needs more than `cap` limbs (41_biguint_arith.md R110). -/
def within (cap v : Nat) : Except ErrKind Nat := if fits cap v then .ok v else .error .overflow

/-- `shl(a, bits)` (41_biguint_arith.md R111): the size test comes first, so no out-of-range value is formed. -/
def bigShl (cap a bits : Nat) : Except ErrKind Nat :=
  if a ≠ 0 ∧ bitlen a + bits > 32 * cap then .error .overflow
  else if a = 0 then .ok 0 else .ok (a <<< bits)

/-- `shr(a, bits)` (41_biguint_arith.md R112): the floor; 0 when `bits ≥ bitlen(a)`. -/
def bigShr (a bits : Nat) : Nat := if bits ≥ bitlen a then 0 else a >>> bits

/-- `add(a, b)` (41_biguint_arith.md R113). -/
def bigAdd (cap a b : Nat) : Except ErrKind Nat := within cap (a + b)

/-- `sub(a, b)` (41_biguint_arith.md R115). -/
def bigSub (a b : Nat) : Except ErrKind Nat := if a < b then .error .underflow else .ok (a - b)

/-- `mul(a, b)` (41_biguint_arith.md R117): the test is on the limb counts, not on the product. -/
def bigMul (cap a b : Nat) : Except ErrKind Nat :=
  if len32 a + len32 b > cap then .error .overflow else .ok (a * b)

/-- `div_mod(a, b)`, quotient and remainder (41_biguint_arith.md R119). -/
def bigDivMod (a b : Nat) : Except ErrKind (Nat × Nat) :=
  if b = 0 then .error .divisionByZero else .ok (a / b, a % b)

/-- `mod(a, m)` (41_biguint_arith.md R122). -/
def bigMod (a m : Nat) : Except ErrKind Nat := if m = 0 then .error .divisionByZero else .ok (a % m)

/-- `mul_add_word(a, w, c)` (41_biguint_arith.md R123). -/
def bigMulAddWord (cap a w c : Nat) : Except ErrKind Nat := within cap (a * w + c)

/-- `add_word(a, w)` (41_biguint_arith.md R125). -/
def bigAddWord (cap a w : Nat) : Except ErrKind Nat := within cap (a + w)

/-- `mod(mul(x, y), m)`: a product reduced at once (43_schoolbook_modexp.md R155). -/
def mulThenMod (cap x y m : Nat) : Except ErrKind Nat := do
  let p ← bigMul cap x y
  bigMod p m

end Sys2Proof.Machine
end

