-- ==== Sys2Proof/Machine/Operands.lean ====
section
/-! DEFINITION. Scalar operands and scalar results (30_encoding.md R73; 10_state.md R36, R37).

A command word holds no immediate; a scalar operand is all 32 bits of ARG0 or ARG1 as an unsigned integer. The four
register fields are plain register numbers (30_encoding.md R71), read with `State.reg`. -/

namespace Sys2Proof.Machine

/-- The scalar operand in `ARG0`: unsigned, no extension, scaling or shifting (30_encoding.md R73). -/
def State.scalar0 (s : State) : Nat := s.arg0.toNat

/-- The scalar operand in `ARG1` (30_encoding.md R73). -/
def State.scalar1 (s : State) : Nat := s.arg1.toNat

/-- The `RES0` word of a truth value or a bit: 1 or 0 (30_encoding.md R73). -/
def boolWord (b : Bool) : Word := if b then 1#32 else 0#32

/-- The `RES0` word of a comparison: Less, Equal, Greater (30_encoding.md R73). -/
def orderWord : Ordering → Word
  | .lt => 0xFFFFFFFF#32
  | .eq => 0#32
  | .gt => 1#32

/-- The `RES0` word of a count; a bit length is at most `32·CAP < 2^32` (30_encoding.md R73). -/
def countWord (n : Nat) : Word := BitVec.ofNat 32 n

end Sys2Proof.Machine
end

