-- ==== Sys2Proof/Machine/Arith.lean ====
section
/-! DEFINITION. BigUint arithmetic: SHL, SHR, ADD, SUB, MUL, DIVMOD, MOD, MULADDW, ADDW
(41_biguint_arith.md R111 to R125), at the value level, which is normative (00_scope.md R19). The limb-level datapaths of
the same file are in Machine/Datapath.lean. -/

namespace Sys2Proof.Machine

/-- `SHL rd, ra, #bits` (41_biguint_arith.md R111). -/
def execShl (rd ra : Reg) (s : State) : Host.Outcome State Fault Refusal :=
  finishReg s rd (bigShl s.cap (s.reg ra) s.scalar0)

/-- `SHR rd, ra, #bits` (41_biguint_arith.md R112). -/
def execShr (rd ra : Reg) (s : State) : Host.Outcome State Fault Refusal :=
  finishReg s rd (.ok (bigShr (s.reg ra) s.scalar0))

/-- `ADD rd, ra, rb` (41_biguint_arith.md R113). -/
def execAdd (rd ra rb : Reg) (s : State) : Host.Outcome State Fault Refusal :=
  finishReg s rd (bigAdd s.cap (s.reg ra) (s.reg rb))

/-- `SUB rd, ra, rb` (41_biguint_arith.md R115). -/
def execSub (rd ra rb : Reg) (s : State) : Host.Outcome State Fault Refusal :=
  finishReg s rd (bigSub (s.reg ra) (s.reg rb))

/-- `MUL rd, ra, rb` (41_biguint_arith.md R117). -/
def execMul (rd ra rb : Reg) (s : State) : Host.Outcome State Fault Refusal :=
  finishReg s rd (bigMul s.cap (s.reg ra) (s.reg rb))

/-- `DIVMOD`: quotient to `rd`, remainder to `rc` (41_biguint_arith.md R119). `rd = rc` is illegal and tested first
(30_encoding.md R74; 60_exceptions.md R234); the decoder never gives it (log entry 16). -/
def execDivmod (rd ra rb rc : Reg) (s : State) : Host.Outcome State Fault Refusal :=
  if rd = rc then finish s (.error .illegalCommand)
  else finish s ((bigDivMod (s.reg ra) (s.reg rb)).map (fun qr => (s.setReg rd qr.1).setReg rc qr.2))

/-- `MOD rd, ra, rb` (41_biguint_arith.md R122). -/
def execMod (rd ra rb : Reg) (s : State) : Host.Outcome State Fault Refusal :=
  finishReg s rd (bigMod (s.reg ra) (s.reg rb))

/-- `MULADDW rd, ra, #w, #c`: `w` in ARG0, `c` in ARG1 (41_biguint_arith.md R123). -/
def execMuladdw (rd ra : Reg) (s : State) : Host.Outcome State Fault Refusal :=
  finishReg s rd (bigMulAddWord s.cap (s.reg ra) s.scalar0 s.scalar1)

/-- `ADDW rd, ra, #w` (41_biguint_arith.md R125). -/
def execAddw (rd ra : Reg) (s : State) : Host.Outcome State Fault Refusal :=
  finishReg s rd (bigAddWord s.cap (s.reg ra) s.scalar0)

end Sys2Proof.Machine
end

