-- ==== Sys2Proof/Machine/Basic.lean ====
section
/-! DEFINITION. BigUint queries and moves: ZERO, FROMU32, COPY, CMP, ISZERO, ISONE, BITLEN, GETBIT
(40_biguint_basic.md R91 to R98). None can fail. -/

namespace Sys2Proof.Machine

/-- `ZERO rd` (40_biguint_basic.md R91). -/
def execZero (rd : Reg) (s : State) : Host.Outcome State Fault Refusal := finishReg s rd (.ok 0)

/-- `FROMU32 rd, #v` (40_biguint_basic.md R92). -/
def execFromu32 (rd : Reg) (s : State) : Host.Outcome State Fault Refusal := finishReg s rd (.ok s.scalar0)

/-- `COPY rd, ra` (40_biguint_basic.md R93). -/
def execCopy (rd ra : Reg) (s : State) : Host.Outcome State Fault Refusal := finishReg s rd (.ok (s.reg ra))

/-- `CMP ra, rb` (40_biguint_basic.md R94). -/
def execCmp (ra rb : Reg) (s : State) : Host.Outcome State Fault Refusal :=
  finishRes s (orderWord (compare (s.reg ra) (s.reg rb)))

/-- `ISZERO ra` (40_biguint_basic.md R95). -/
def execIszero (ra : Reg) (s : State) : Host.Outcome State Fault Refusal :=
  finishRes s (boolWord (s.reg ra == 0))

/-- `ISONE ra` (40_biguint_basic.md R96). -/
def execIsone (ra : Reg) (s : State) : Host.Outcome State Fault Refusal :=
  finishRes s (boolWord (s.reg ra == 1))

/-- `BITLEN ra` (40_biguint_basic.md R97). -/
def execBitlen (ra : Reg) (s : State) : Host.Outcome State Fault Refusal :=
  finishRes s (countWord (bitlen (s.reg ra)))

/-- The bit of `GETBIT`: 0 at and above bit `32·CAP` (40_biguint_basic.md R98). -/
def getBit (cap a i : Nat) : Bool := if i ≥ 32 * cap then false else bitOf a i == 1

/-- `GETBIT ra, #i` (40_biguint_basic.md R98). -/
def execGetbit (ra : Reg) (s : State) : Host.Outcome State Fault Refusal :=
  finishRes s (boolWord (getBit s.cap (s.reg ra) s.scalar0))

end Sys2Proof.Machine
end

