-- ==== Sys2Proof/Machine/Inverse.lean ====
section
/-! DEFINITION. The modular inverse: INVMOD (45_modinverse.md R200 to R205), by the reference algorithm of R202 with
sign-tagged coefficients. There is no iteration cap (R203). -/

namespace Sys2Proof.Machine

/-- A coefficient as a (magnitude, sign) pair; it exists only inside this unit (45_modinverse.md R202). -/
structure SignedMag where
  neg : Bool
  mag : Nat
  deriving DecidableEq, Repr

/-- `t0 − q·t1` on pairs: opposite signs add the magnitudes, equal signs subtract the smaller from the larger
(45_modinverse.md R202). -/
def SignedMag.subMul (t0 t1 : SignedMag) (q : Nat) : SignedMag :=
  if t0.neg ≠ t1.neg then { neg := t0.neg, mag := t0.mag + q * t1.mag }
  else if q * t1.mag ≤ t0.mag then { neg := t0.neg, mag := t0.mag - q * t1.mag }
  else { neg := !t0.neg, mag := q * t1.mag - t0.mag }

/-- The integer a pair stands for. -/
def SignedMag.toInt (t : SignedMag) : Int := if t.neg then -(t.mag : Int) else (t.mag : Int)

/-- The loop of extended Euclid while `r1 ≠ 0`, at most `fuel` times; it ends because `r1` strictly decreases
(45_modinverse.md R202, R203; log entry 13). The answer is `(r0, t0)` at the exit. -/
def euclidLoop : (fuel r0 r1 : Nat) → (t0 t1 : SignedMag) → Nat × SignedMag
  | 0, r0, _, t0, _ => (r0, t0)
  | fuel + 1, r0, r1, t0, t1 =>
    if r1 = 0 then (r0, t0) else euclidLoop fuel r1 (r0 % r1) t1 (t0.subMul t1 (r0 / r1))

/-- The inverse for `a ≠ 0`, `m ≥ 2` (45_modinverse.md R202). -/
def euclidInverse (a m : Nat) : Except ErrKind Nat :=
  let out := euclidLoop m m (a % m) { neg := false, mag := 0 } { neg := false, mag := 1 }
  if out.1 ≠ 1 then .error .noInverse
  else if out.2.neg then .ok (m - out.2.mag) else .ok out.2.mag

/-- `inv_mod(a, m)`: the zero test first, then `m = 1`, then the algorithm (45_modinverse.md R200, R201). -/
def invMod (a m : Nat) : Except ErrKind Nat :=
  if a = 0 ∨ m = 0 then .error .zeroOperand
  else if m = 1 then .error .noInverse
  else euclidInverse a m

/-- `INVMOD rd, ra, rb` (45_modinverse.md R200). -/
def execInvmod (rd ra rb : Reg) (s : State) : Host.Outcome State Fault Refusal :=
  finishReg s rd (invMod (s.reg ra) (s.reg rb))

end Sys2Proof.Machine
end

