-- ==== Sys2Proof/Machine/Montgomery.lean ====
section
/-! DEFINITION. The Montgomery unit: MBUILD, MDESTROY, REDC, MTOFORM, MFROMFORM, MMUL, MEXP, MGETN, MGETRR
(44_montgomery.md R165 to R188). The word inverse and REDC are limb by limb, as the source prescribes
(00_scope.md R19). -/

namespace Sys2Proof.Machine

/-! ## The word inverse (44_montgomery.md R172) -/

/-- One Hensel step, `x·(2 − n₀·x)` modulo `2^32`. -/
def henselStep (n0 x : Word) : Word := x * (2#32 - n0 * x)

/-- The inverse of `n₀` modulo `2^32` after five steps from `x = n₀`. -/
def henselInverse (n0 : Word) : Word :=
  henselStep n0 (henselStep n0 (henselStep n0 (henselStep n0 (henselStep n0 n0))))

/-- `nprime(n₀)`, with both verifications (44_montgomery.md R172). -/
def nprime (n0 : Word) : Except ErrKind Word :=
  let x := henselInverse n0
  let np := ~~~x + 1#32
  if n0 * x ≠ 1#32 then .error .internalInvariantBroken
  else if n0 * np ≠ 0xFFFFFFFF#32 then .error .internalInvariantBroken
  else .ok np

/-! ## The context (44_montgomery.md R166, R170 to R173, R183) -/

/-- `R = 2^(32·k)` (44_montgomery.md R165). -/
def montRadix (k : Nat) : Nat := 1 <<< (32 * k)

/-- `R² mod n`, as the product of `R mod n` with itself reduced (44_montgomery.md R173). -/
def rSquaredOf (cap k n : Nat) : Except ErrKind Nat := do
  let r ← bigMod (montRadix k) n
  mulThenMod cap r r n

/-- `build(n)`: the context for `n`, or the first failing test (44_montgomery.md R170). -/
def buildCtx (cap : Nat) (old : Ctx) (n : Nat) : Except ErrKind Ctx :=
  if old.state = .active then .error .contextState
  else if n = 0 then .error .zeroModulus
  else if n % 2 = 0 then .error .evenModulus
  else if 2 * len32 n + 1 > cap then .error .overflow
  else do
    let np ← nprime (limb n 0)
    let rr ← rSquaredOf cap (len32 n) n
    .ok { state := .active, n := n, k := len32 n, nPrime := np, rSquared := rr }

/-- The context after teardown: all data fields zero (44_montgomery.md R183). -/
def Ctx.torn : Ctx := { state := .destroyed, n := 0, k := 0, nPrime := 0#32, rSquared := 0 }

/-- The context check that begins every Montgomery command but MBUILD (44_montgomery.md R166). -/
def whenActive (c : Ctx) (r : Except ErrKind α) : Except ErrKind α :=
  if c.state ≠ .active then .error .contextState else r

/-! ## REDC (44_montgomery.md R174 to R177) -/

/-- Add a carry into a buffer, limb by limb, until it is consumed (44_montgomery.md R175, R176). The buffer never ends
before the carry does (R176). -/
def addCarry : (buf : List Word) → (carry : Nat) → List Word
  | [], _ => []
  | a :: as, carry =>
    if carry = 0 then a :: as
    else BitVec.ofNat 32 (a.toNat + carry) :: addCarry as ((a.toNat + carry) / limbBase)

/-- Add `m · n` to a buffer from its first limb, with a carry that takes the high half of each product and the addition
overflow, and propagate the last carry (44_montgomery.md R175, R176). -/
def addMulLimbs (m : Word) : (buf nLimbs : List Word) → (carry : Nat) → List Word
  | as, [], carry => addCarry as carry
  | [], _ :: _, _ => []
  | a :: as, b :: bs, carry =>
    BitVec.ofNat 32 (a.toNat + m.toNat * b.toNat + carry)
      :: addMulLimbs m as bs ((a.toNat + m.toNat * b.toNat + carry) / limbBase)

/-- Iteration `i` of REDC: `m ← A[i]·n' mod 2^32`, then add `m·n` to `A` from limb `i` (44_montgomery.md R175). -/
def redcStep (nPrime : Word) (nLimbs buf : List Word) (i : Nat) : List Word :=
  buf.take i ++ addMulLimbs (buf.getD i 0#32 * nPrime) (buf.drop i) nLimbs 0

/-- The buffer of `2k + 1` limbs after the iterations `i = 0` to `count − 1` (44_montgomery.md R175). -/
def redcBuffer (c : Ctx) (t count : Nat) : List Word :=
  (List.range count).foldl (redcStep c.nPrime (toLimbs c.k c.n)) (toLimbs (2 * c.k + 1) t)

/-- `redc(T)` for `0 ≤ T < n·R`: the loop, the shift by `k` limbs, the conditional subtraction, the check
(44_montgomery.md R175, R177). -/
def redc (c : Ctx) (t : Nat) : Except ErrKind Nat :=
  let shifted := ofLimbs ((redcBuffer c t c.k).drop c.k)
  let res := if shifted ≥ c.n then shifted - c.n else shifted
  if res < c.n then .ok res else .error .internalInvariantBroken

/-! ## Forms, multiplication, exponentiation (44_montgomery.md R178 to R182) -/

/-- `a`, reduced first when it is not below `n` (44_montgomery.md R180). -/
def reduceFirst (c : Ctx) (a : Nat) : Except ErrKind Nat := if a ≥ c.n then bigMod a c.n else .ok a

/-- `to_form(a)` (44_montgomery.md R178). -/
def toForm (cap : Nat) (c : Ctx) (a : Nat) : Except ErrKind Nat := do
  let a' ← reduceFirst c a
  let p ← bigMul cap a' c.rSquared
  redc c p

/-- `from_form(a)` (44_montgomery.md R179). -/
def fromForm (c : Ctx) (a : Nat) : Except ErrKind Nat := do
  let a' ← reduceFirst c a
  redc c a'

/-- `mulmod(a, b)`: operands not below `n` are no Montgomery forms (44_montgomery.md R181). -/
def mulmod (cap : Nat) (c : Ctx) (a b : Nat) : Except ErrKind Nat :=
  if a ≥ c.n ∨ b ≥ c.n then .error .domainError
  else do
    let p ← bigMul cap a b
    redc c p

/-- The left-to-right scan of the bits `i − 1` down to 0 of `exp`; the top bit is not preceded by a squaring
(44_montgomery.md R182). -/
def mexpScan (cap : Nat) (c : Ctx) (bt exp : Nat) : (i rt : Nat) → Except ErrKind Nat
  | 0, rt => .ok rt
  | i + 1, rt => do
    let squared ← if i ≠ bitlen exp - 1 then mulmod cap c rt rt else .ok rt
    let rt' ← if bitOf exp i = 1 then mulmod cap c squared bt else .ok squared
    mexpScan cap c bt exp i rt'

/-- `mexp(base, exp)` on an Active context (44_montgomery.md R182). -/
def mexp (cap : Nat) (c : Ctx) (base exp : Nat) : Except ErrKind Nat :=
  if exp = 0 then .ok 1
  else if base = 0 then .ok 0
  else do
    let b ← bigMod base c.n
    let bt ← toForm cap c b
    let rt ← toForm cap c 1
    let rt' ← mexpScan cap c bt exp (bitlen exp) rt
    fromForm c rt'

/-! ## The commands -/

/-- `MBUILD ra` (44_montgomery.md R170). -/
def execMbuild (ra : Reg) (s : State) : Host.Outcome State Fault Refusal :=
  finish s ((buildCtx s.cap s.ctx (s.reg ra)).map (fun c => { s with ctx := c }))

/-- `MDESTROY` (44_montgomery.md R183). -/
def execMdestroy (s : State) : Host.Outcome State Fault Refusal :=
  finish s (whenActive s.ctx (.ok { s with ctx := Ctx.torn }))

/-- `REDC rd, ra`, with the precondition checked (44_montgomery.md R174). -/
def execRedc (rd ra : Reg) (s : State) : Host.Outcome State Fault Refusal :=
  finishReg s rd (whenActive s.ctx
    (if s.reg ra ≥ s.ctx.n * montRadix s.ctx.k then .error .domainError else redc s.ctx (s.reg ra)))

/-- `MTOFORM rd, ra` (44_montgomery.md R178). -/
def execMtoform (rd ra : Reg) (s : State) : Host.Outcome State Fault Refusal :=
  finishReg s rd (whenActive s.ctx (toForm s.cap s.ctx (s.reg ra)))

/-- `MFROMFORM rd, ra` (44_montgomery.md R179). -/
def execMfromform (rd ra : Reg) (s : State) : Host.Outcome State Fault Refusal :=
  finishReg s rd (whenActive s.ctx (fromForm s.ctx (s.reg ra)))

/-- `MMUL rd, ra, rb` (44_montgomery.md R181). -/
def execMmul (rd ra rb : Reg) (s : State) : Host.Outcome State Fault Refusal :=
  finishReg s rd (whenActive s.ctx (mulmod s.cap s.ctx (s.reg ra) (s.reg rb)))

/-- `MEXP rd, ra, rb` (44_montgomery.md R182). -/
def execMexp (rd ra rb : Reg) (s : State) : Host.Outcome State Fault Refusal :=
  finishReg s rd (whenActive s.ctx (mexp s.cap s.ctx (s.reg ra) (s.reg rb)))

/-- `MGETN rd` (44_montgomery.md R184). -/
def execMgetn (rd : Reg) (s : State) : Host.Outcome State Fault Refusal :=
  finishReg s rd (whenActive s.ctx (.ok s.ctx.n))

/-- `MGETRR rd` (44_montgomery.md R185). -/
def execMgetrr (rd : Reg) (s : State) : Host.Outcome State Fault Refusal :=
  finishReg s rd (whenActive s.ctx (.ok s.ctx.rSquared))

end Sys2Proof.Machine
end

