-- ==== Sys2Proof/Machine/Schoolbook.lean ====
section
/-! DEFINITION. Schoolbook modular exponentiation: SMODEXP (43_schoolbook_modexp.md R150 to R156).

The sequence of multiplications is exactly the spec's, since `Overflow` depends on it (R156). -/

namespace Sys2Proof.Machine

/-- The loop of the right-to-left binary algorithm, at most `fuel` times; `bitlen(exp)` is enough
(43_schoolbook_modexp.md R153; 70_reset_and_hazards.md R274; log entry 13). -/
def binaryLoop (cap m : Nat) : (fuel result b e : Nat) → Except ErrKind Nat
  | 0, result, _, _ => .ok result
  | fuel + 1, result, b, e => do
    let result' ← if e % 2 = 1 then mulThenMod cap result b m else .ok result
    if e >>> 1 = 0 then .ok result'
    else
      let b' ← mulThenMod cap b b m
      binaryLoop cap m fuel result' b' (e >>> 1)

/-- `modexp_binary(base, exp, m)` (43_schoolbook_modexp.md R153). -/
def modexpBinary (cap base exp m : Nat) : Except ErrKind Nat := do
  let b ← bigMod base m
  binaryLoop cap m (bitlen exp) 1 b exp

/-- `count` further entries of the window table after the entry `prev`: each is the one before times `t1`
(43_schoolbook_modexp.md R154). -/
def tableFrom (cap m t1 : Nat) : (count prev : Nat) → Except ErrKind (List Nat)
  | 0, _ => .ok []
  | count + 1, prev => do
    let next ← mulThenMod cap prev t1 m
    let rest ← tableFrom cap m t1 count next
    .ok (next :: rest)

/-- `T[0]` to `T[15]`, all fourteen products, used or not (43_schoolbook_modexp.md R154). -/
def windowTable (cap base m : Nat) : Except ErrKind (List Nat) := do
  let t1 ← bigMod base m
  let rest ← tableFrom cap m t1 14 t1
  .ok (1 :: t1 :: rest)

/-- Square `count` times (43_schoolbook_modexp.md R154). -/
def squareTimes (cap m : Nat) : (count x : Nat) → Except ErrKind Nat
  | 0, x => .ok x
  | count + 1, x => do
    let y ← mulThenMod cap x x m
    squareTimes cap m count y

/-- The width of window `j` of an exponent of `len` bits: 4, but for a narrower leading window
(43_schoolbook_modexp.md R154). -/
def windowWidth (len j : Nat) : Nat := min (4 * j + 3) (len - 1) - 4 * j + 1

/-- The value of window `j` of `exp` (43_schoolbook_modexp.md R154). -/
def windowValue (exp j : Nat) : Nat := (exp >>> (4 * j)) % 2 ^ windowWidth (bitlen exp) j

/-- The scan of windows `j - 1` down to 0; `none` is the spec's `started = false` (43_schoolbook_modexp.md R154). -/
def windowScan (cap exp m : Nat) (table : List Nat) : (j : Nat) → Option Nat → Except ErrKind (Option Nat)
  | 0, result => .ok result
  | j + 1, none =>
    if windowValue exp j = 0 then windowScan cap exp m table j none
    else windowScan cap exp m table j (some (table.getD (windowValue exp j) 0))
  | j + 1, some result => do
    let squared ← squareTimes cap m (windowWidth (bitlen exp) j) result
    let result' ← if windowValue exp j > 0 then mulThenMod cap squared (table.getD (windowValue exp j) 0) m
      else .ok squared
    windowScan cap exp m table j (some result')

/-- `modexp_window(base, exp, m)` (43_schoolbook_modexp.md R154). The scan of a nonzero exponent always starts; the
value 1 for a scan that never does is not reached (log entry 14). -/
def modexpWindow (cap base exp m : Nat) : Except ErrKind Nat := do
  let table ← windowTable cap base m
  let result ← windowScan cap exp m table ((bitlen exp + 3) / 4) none
  .ok (result.getD 1)

/-- `smodexp(base, exp, m)`: the zero modulus, the edge cases in the source's order, then the choice by limb count
(43_schoolbook_modexp.md R150 to R152). -/
def smodexp (cap base exp m : Nat) : Except ErrKind Nat :=
  if m = 0 then .error .divisionByZero
  else if exp = 0 then .ok 1
  else if base = 0 then .ok 0
  else if m = 1 then .ok 0
  else if len32 exp ≤ Config.smallExponentLimbs then modexpBinary cap base exp m
  else modexpWindow cap base exp m

/-- `SMODEXP`: base `ra`, exponent `rb`, modulus `rc` (43_schoolbook_modexp.md R150). -/
def execSmodexp (rd ra rb rc : Reg) (s : State) : Host.Outcome State Fault Refusal :=
  finishReg s rd (smodexp s.cap (s.reg ra) (s.reg rb) (s.reg rc))

end Sys2Proof.Machine
end

