-- ==== Sys2Proof/Machine/Selector.lean ====
section
/-! DEFINITION. The exponentiation selector: MODEXP (46_expselector.md R210 to R215). -/

namespace Sys2Proof.Machine

/-- The selection policy (46_expselector.md R211): Montgomery only for an Active context of this very modulus, odd, of at
least 512 bits. -/
def selectEngine (c : Ctx) (n : Nat) : Engine :=
  if c.state = .active ∧ c.n = n ∧ n % 2 = 1 ∧ bitlen n ≥ Config.montgomeryMinBits then .montgomery
  else .schoolbook

/-- What `MODEXP` ends with: a result, the engine that produced it, and whether a fallback happened; or a kind and whether
it surfaced after a fallback (46_expselector.md R210). -/
abbrev ModexpEnd := Except (ErrKind × Bool) (Nat × Engine × Bool)

/-- The two kinds of the Montgomery engine that the selector catches (46_expselector.md R212). -/
def caught : ErrKind → Bool
  | .overflow => true
  | .internalInvariantBroken => true
  | _ => false

/-- The run of the schoolbook engine when it is selected; errors are returned unchanged (46_expselector.md R210). -/
def runSchoolbook (cap base exp n : Nat) : ModexpEnd :=
  match smodexp cap base exp n with
  | .ok v => .ok (v, .schoolbook, false)
  | .error kind => .error (kind, false)

/-- The run of the Montgomery engine with the fallback: a caught kind is retried on the original inputs, and surfaces if
the retry fails too (46_expselector.md R210, R212). -/
def runMontgomery (cap : Nat) (c : Ctx) (base exp n : Nat) : ModexpEnd :=
  match mexp cap c base exp with
  | .ok v => .ok (v, .montgomery, false)
  | .error e0 =>
    if caught e0 then
      match smodexp cap base exp n with
      | .ok v => .ok (v, .schoolbook, true)
      | .error _ => .error (e0, true)
    else .error (e0, false)

/-- The final reduction (46_expselector.md R214): `n` is not zero here. -/
def finalReduce (n result : Nat) : Nat := if result ≥ n then result % n else result

/-- `modexp(base, exp, n, mont_opt)` (46_expselector.md R210). -/
def modexp (cap : Nat) (c : Ctx) (base exp n : Nat) : ModexpEnd :=
  if n = 0 then .error (.divisionByZero, false)
  else
    let run :=
      match selectEngine c n with
      | .montgomery => runMontgomery cap c base exp n
      | _ => runSchoolbook cap base exp n
    run.map (fun out => (finalReduce n out.1, out.2))

/-- `MODEXP`: base `ra`, exponent `rb`, modulus `rc`; the one command that writes `ENGINE` and `FALLBACK`
(46_expselector.md R210, R215). -/
def execModexp (rd ra rb rc : Reg) (s : State) : Host.Outcome State Fault Refusal :=
  match modexp s.cap s.ctx (s.reg ra) (s.reg rb) (s.reg rc) with
  | .ok out => .next ((s.setReg rd out.1).succeed out.2.1 out.2.2)
  | .error (kind, fb) => .next (s.failWith kind fb)

end Sys2Proof.Machine
end

