-- ==== Sys2Proof/Machine/Dispatch.lean ====
section
/-! DEFINITION. The completion step of each command (10_state.md R28(c)), one arm per constructor of `Instr`. -/

namespace Sys2Proof.Machine

def exec (i : Instr) (s : State) : Host.Outcome State Fault Refusal :=
  match i with
  -- BigUint queries and moves
  | .zero rd => Sys2Proof.Machine.execZero rd s
  | .fromu32 rd => Sys2Proof.Machine.execFromu32 rd s
  | .copy rd ra => Sys2Proof.Machine.execCopy rd ra s
  | .cmp ra rb => Sys2Proof.Machine.execCmp ra rb s
  | .iszero ra => Sys2Proof.Machine.execIszero ra s
  | .isone ra => Sys2Proof.Machine.execIsone ra s
  | .bitlen ra => Sys2Proof.Machine.execBitlen ra s
  | .getbit ra => Sys2Proof.Machine.execGetbit ra s
  -- BigUint arithmetic
  | .shl rd ra => Sys2Proof.Machine.execShl rd ra s
  | .shr rd ra => Sys2Proof.Machine.execShr rd ra s
  | .add rd ra rb => Sys2Proof.Machine.execAdd rd ra rb s
  | .sub rd ra rb => Sys2Proof.Machine.execSub rd ra rb s
  | .mul rd ra rb => Sys2Proof.Machine.execMul rd ra rb s
  | .divmod rd ra rb rc => Sys2Proof.Machine.execDivmod rd ra rb rc s
  | .mod rd ra rb => Sys2Proof.Machine.execMod rd ra rb s
  | .muladdw rd ra => Sys2Proof.Machine.execMuladdw rd ra s
  | .addw rd ra => Sys2Proof.Machine.execAddw rd ra s
  -- schoolbook exponentiation
  | .smodexp rd ra rb rc => Sys2Proof.Machine.execSmodexp rd ra rb rc s
  -- Montgomery unit
  | .mbuild ra => Sys2Proof.Machine.execMbuild ra s
  | .mdestroy => Sys2Proof.Machine.execMdestroy s
  | .redc rd ra => Sys2Proof.Machine.execRedc rd ra s
  | .mtoform rd ra => Sys2Proof.Machine.execMtoform rd ra s
  | .mfromform rd ra => Sys2Proof.Machine.execMfromform rd ra s
  | .mmul rd ra rb => Sys2Proof.Machine.execMmul rd ra rb s
  | .mexp rd ra rb => Sys2Proof.Machine.execMexp rd ra rb s
  | .mgetn rd => Sys2Proof.Machine.execMgetn rd s
  | .mgetrr rd => Sys2Proof.Machine.execMgetrr rd s
  -- modular inverse
  | .invmod rd ra rb => Sys2Proof.Machine.execInvmod rd ra rb s
  -- selector
  | .modexp rd ra rb rc => Sys2Proof.Machine.execModexp rd ra rb rc s

end Sys2Proof.Machine
end

