-- ==== Sys2Proof/Machine/Complete.lean ====
section
/-! DEFINITION. The completion step of the command word in the latch: decoding and the command's effect. -/

namespace Sys2Proof.Machine

/-- The completion step (10_state.md R28(c)): decode the latched word, then its command's effect; a word that is no
command ends with `IllegalCommand` (30_encoding.md R74, 60_exceptions.md R235). -/
def completeCommand (s : State) : Host.Outcome State Fault Refusal :=
  match decode s.cmd with
  | .ok i => exec i s
  | .error _ => finish s (.error .illegalCommand)

end Sys2Proof.Machine
end

