-- ==== Sys2Proof/Machine/Flags.lean ====
section
/-! DEFINITION. The status words. The block has no condition codes (10_state.md R42): its only status bits are the fields
of STATUS (R35) and CTXSTAT (R38); CONFIG is a constant (R40). All are read-only words computed from the state. -/

namespace Sys2Proof.Machine

/-- The code of a kind (60_exceptions.md R230). -/
def ErrKind.code : ErrKind → Nat
  | .badFormat => 1
  | .bufferTooSmall => 2
  | .overflow => 3
  | .underflow => 4
  | .divisionByZero => 5
  | .zeroOperand => 6
  | .noInverse => 7
  | .evenModulus => 8
  | .zeroModulus => 9
  | .domainError => 10
  | .internalInvariantBroken => 11
  | .illegalCommand => 12
  | .contextState => 13

/-- The kind of a code; none for 0, no error, and for the codes that are never written (60_exceptions.md R230). -/
def ErrKind.ofCode : Nat → Option ErrKind
  | 1 => some .badFormat
  | 2 => some .bufferTooSmall
  | 3 => some .overflow
  | 4 => some .underflow
  | 5 => some .divisionByZero
  | 6 => some .zeroOperand
  | 7 => some .noInverse
  | 8 => some .evenModulus
  | 9 => some .zeroModulus
  | 10 => some .domainError
  | 11 => some .internalInvariantBroken
  | 12 => some .illegalCommand
  | 13 => some .contextState
  | _ => none

/-- `ERRKIND`: 0 when the last command succeeded (10_state.md R35). -/
def errCode : Option ErrKind → Nat
  | none => 0
  | some kind => kind.code

/-- The `ENGINE` code (10_state.md R35). -/
def Engine.code : Engine → Nat
  | .none => 0
  | .schoolbook => 1
  | .montgomery => 2

/-- The `CTX.state` code (10_state.md R29, R38). -/
def CtxState.code : CtxState → Nat
  | .uninitialized => 0
  | .active => 1
  | .destroyed => 2

/-- `STATUS` (10_state.md R35): BUSY 0, DONE 1, FATAL 2, ERRKIND 15:8, ENGINE 17:16, FALLBACK 18; the rest read as 0. -/
def State.statusWord (s : State) : Word :=
  BitVec.ofNat 32
    ((if s.fsm = .busy then 1 else 0) + (if s.done then 2 else 0) + (if s.fsm = .fatal then 4 else 0)
      + 256 * errCode s.errKind + 65536 * s.engine.code + (if s.fallback then 262144 else 0))

/-- `CTXSTAT` (10_state.md R38): `CTX.state` in 1:0, `CTX.k` in 31:16; the rest read as 0. -/
def State.ctxstatWord (s : State) : Word := BitVec.ofNat 32 (s.ctx.state.code + 65536 * s.ctx.k)

/-- `CONFIG` (10_state.md R40): `CAP` in 15:0, `NREG` in 23:16, `W` in 31:24. -/
def State.configWord (s : State) : Word :=
  BitVec.ofNat 32 (s.cap + 65536 * Config.nreg + 16777216 * Config.limbBits)

end Sys2Proof.Machine
end

