-- ==== Sys2Proof/Machine/Port.lean ====
section
/-! DEFINITION. The host port: the address map, reads and writes, and whose turn it is (20_memory.md R50 to R63).

One access is one step (20_memory.md R51, R60). -/

namespace Sys2Proof.Machine

/-! ## The address map (20_memory.md R51 to R53, R57; 10_state.md R33) -/

/-- `PORT_SIZE` (20_memory.md R51). -/
def portSize (cap : Nat) : Nat := 0x10000 + 4 * cap * Config.nreg

/-- `LimbAddr(r, i)` (20_memory.md R53). -/
def limbAddr (cap : Nat) (r : Reg) (i : Nat) : Nat := 0x10000 + r.val * (4 * cap) + 4 * i

/-- The offset of `USED[r]` (10_state.md R33). -/
def usedAddr (r : Reg) : Nat := 0x40 + 4 * r.val

/-- What stands at an offset of the port. -/
inductive Loc where
  | cmd | status | arg0 | arg1 | res0 | ctxstat | ctxnprime | config
  | used (r : Reg)
  | limb (r : Reg) (i : Nat)
  /-- unmapped or misaligned (20_memory.md R57) -/
  | unmapped
  deriving DecidableEq, Repr

/-- The control registers, in the order of their offsets (10_state.md R33). -/
def controlLoc : Nat → Loc
  | 0 => .cmd
  | 1 => .status
  | 2 => .arg0
  | 3 => .arg1
  | 4 => .res0
  | 5 => .ctxstat
  | 6 => .ctxnprime
  | 7 => .config
  | _ => .unmapped

/-- What stands at byte offset `addr`; nothing at or above `PORT_SIZE` (20_memory.md R52, R53, R56, R57). -/
def locate (cap addr : Nat) : Option Loc :=
  if addr ≥ portSize cap then none
  else if addr % 4 ≠ 0 then some .unmapped
  else if addr < 0x20 then some (controlLoc (addr / 4))
  else if addr < 0x40 then some .unmapped
  else if addr < 0x80 then some (.used (Fin.ofNat 16 ((addr - 0x40) / 4)))
  else if addr < 0x10000 then some .unmapped
  else some (.limb (Fin.ofNat 16 ((addr - 0x10000) / (4 * cap))) ((addr - 0x10000) % (4 * cap) / 4))

/-! ## Reads (20_memory.md R53, R57 to R59) -/

/-- The true current word at a location (10_state.md R33 to R41; 20_memory.md R53, R57). -/
def State.peek (s : State) : Loc → Word
  | .cmd => 0#32
  | .status => s.statusWord
  | .arg0 => s.arg0
  | .arg1 => s.arg1
  | .res0 => s.res0
  | .ctxstat => s.ctxstatWord
  | .ctxnprime => s.ctx.nPrime
  | .config => s.configWord
  | .used r => BitVec.ofNat 32 (s.used r)
  | .limb r i => s.limb r i
  | .unmapped => 0#32

/-- The locations a read of which is exact while BUSY (20_memory.md R59; an unmapped offset is no mapped one, R57).
A read of CMD while BUSY is left open: log entry 5. -/
def Loc.exactWhileBusy : Loc → Bool
  | .status | .config | .unmapped => true
  | .cmd | .arg0 | .arg1 | .res0 | .ctxstat | .ctxnprime | .used _ | .limb _ _ => false

/-- Return a word to the host. -/
def State.reply (s : State) (w : Word) : State := { s with replies := w :: s.replies }

/-- A host read of a location: the true word, or while BUSY a free word for most locations
(20_memory.md R53, R58, R59; log entry 4). -/
def State.readLoc (s : State) (l : Loc) : State :=
  if s.fsm = .busy ∧ l.exactWhileBusy = false then
    { s with replies := Config.busyRead s.draws :: s.replies, draws := s.draws + 1 }
  else s.reply (s.peek l)

/-! ## Writes (10_state.md R25, R28, R34, R36; 20_memory.md R57 to R59) -/

/-- A host write of a location: dropped unless IDLE; dropped at read-only and unmapped locations; a CMD write starts a
command. -/
def State.writeLoc (s : State) (l : Loc) (v : Word) : State :=
  if s.fsm ≠ .idle then s
  else
    match l with
    | .cmd => s.accept v
    | .arg0 => { s with arg0 := v }
    | .arg1 => { s with arg1 := v }
    | .limb r i => s.writeLimb r i v
    | .status | .res0 | .ctxstat | .ctxnprime | .config | .used _ | .unmapped => s

/-- One access from outside (20_memory.md R51; 70_reset_and_hazards.md R260). An offset that does not exist is a fault
(log entry 8). -/
def performAccess (a : Access) (s : State) : Host.Outcome State Fault Refusal :=
  match a with
  | .read addr =>
    match locate s.cap addr with
    | none => .fault (.noSuchOffset addr)
    | some l => .next (s.readLoc l)
  | .write addr v =>
    match locate s.cap addr with
    | none => .fault (.noSuchOffset addr)
    | some l => .next (s.writeLoc l v)
  | .reset => .next s.applyReset

/-! ## Whose turn it is (log entry 3) -/

/-- A move: nothing happens, the controller completes the command it is running, or the outside makes an access. The
state in it is the state with the turn used up. -/
inductive Move where
  | rest (s : State)
  | complete (s : State)
  | access (a : Access) (s : State)

/-- The controller's move: it completes a command if one is running and otherwise rests (10_state.md R28;
20_memory.md R60(d)). -/
def controllerMove (s : State) : Move := if s.fsm = .busy then .complete s else .rest s

/-- The next move: the first of `turns`; when the outside has nothing left to do, the controller's, so that every command
completes (70_reset_and_hazards.md R270(a)). -/
def nextMove (s : State) : Move :=
  match s.turns with
  | [] => controllerMove s
  | .controller :: rest => controllerMove { s with turns := rest }
  | .host a :: rest => .access a { s with turns := rest }

/-- The state in which the next move is the completion of the command word `w`: latched as an accept does, with the
controller to move (log entry 11). -/
def State.latchNext (s : State) (w : Word) : State :=
  { s.accept w with turns := .controller :: s.turns }

end Sys2Proof.Machine
end

