-- ==== Sys2Proof/Machine/Step.lean ====
section
/-! DEFINITION. One step of the block: one host access, one reset, one completion of a command, or nothing. -/

namespace Sys2Proof.Machine

/-- One step: the next move, made. -/
def step (s : State) : Host.Outcome State Fault Refusal :=
  match nextMove s with
  | .rest t => .next t
  | .complete t => completeCommand t
  | .access a t => performAccess a t

/-- The state whose very next step runs the command word `w` (log entry 11): the block fetches nothing, so the word is
latched as an accepted CMD write latches it, and the controller moves next. -/
def State.withFetchWord (s : State) (nbits w : Nat) : State := s.latchNext (tableWord nbits w)

end Sys2Proof.Machine
end

