-- ==== Sys2Proof/Machine/HostProgram.lean ====
section
/-! DEFINITION. Host programs: what host software does at the port, choosing by what it reads (30_encoding.md R80;
20_memory.md R60).

A program is no state of the block. It runs by steps of the block: each of its accesses is one turn of the outside, and a
wait gives the controller its turn when the block is BUSY (log entry 22). -/

namespace Sys2Proof.Machine

/-- What host software fails with: a kind, and with `BufferTooSmall` the length in bytes that it reports as needed
(42_codec.md R143, R145). -/
structure HostFailure where
  kind : ErrKind
  needed : Option Nat := none
  deriving DecidableEq, Repr

/-- A host program that ends with an answer or with a failure of the host's own. -/
inductive HostProgram (α : Type) where
  | done (a : α)
  /-- host software gives up -/
  | fail (failure : HostFailure)
  /-- `MemRead(addr, 4)`; the word read goes on -/
  | read (addr : Nat) (next : Word → HostProgram α)
  /-- `MemWrite(addr, 4, v)` -/
  | write (addr : Nat) (v : Word) (next : HostProgram α)
  /-- wait until `(MemRead(0x004, 4) AND 0x1) = 0`; the STATUS word that ended the wait goes on -/
  | wait (next : Word → HostProgram α)

/-- One program after another. -/
def HostProgram.andThen {α β : Type} : HostProgram α → (α → HostProgram β) → HostProgram β
  | .done a, f => f a
  | .fail failure, _ => .fail failure
  | .read addr next, f => .read addr (fun w => (next w).andThen f)
  | .write addr v next, f => .write addr v (next.andThen f)
  | .wait next, f => .wait (fun w => (next w).andThen f)

/-- A read of `STATUS`. -/
abbrev statusRead : Turn := .host (.read 0x004)

/-- The turns of a wait: while BUSY, reads of `STATUS` that find the block BUSY, as many as the host makes, and the
completion; then the read that finds it not BUSY. A block that is not BUSY is read once (30_encoding.md R80). -/
def waitTurns (fsm : Fsm) (polls : Nat) : List Turn :=
  if fsm = .busy then List.replicate polls statusRead ++ [.controller, statusRead] else [statusRead]

/-- The block takes these turns, before any it already has. -/
def takeTurns : List Turn → State → Host.Outcome State Fault Refusal
  | [], s => .next s
  | t :: ts, s =>
    match step { s with turns := t :: s.turns } with
    | .next s' => takeTurns ts s'
    | .fault r => .fault r
    | .refused r => .refused r

/-- The word the port returned last. -/
def State.lastReply (s : State) : Word := s.replies.headD 0#32

/-- Run a program from a state, each wait polling `polls` times before the completion: the state at its end, with its answer
or its failure. -/
def HostProgram.run {α : Type} (polls : Nat) :
    HostProgram α → State → Host.Outcome (State × Except HostFailure α) Fault Refusal
  | .done a, s => .next (s, .ok a)
  | .fail failure, s => .next (s, .error failure)
  | .read addr next, s =>
    match takeTurns [.host (.read addr)] s with
    | .next t => (next t.lastReply).run polls t
    | .fault r => .fault r
    | .refused r => .refused r
  | .write addr v next, s =>
    match takeTurns [.host (.write addr v)] s with
    | .next t => next.run polls t
    | .fault r => .fault r
    | .refused r => .refused r
  | .wait next, s =>
    match takeTurns (waitTurns s.fsm polls) s with
    | .next t => (next t.lastReply).run polls t
    | .fault r => .fault r
    | .refused r => .refused r

end Sys2Proof.Machine
end

