-- ==== Sys2Proof/Machine/Assembler.lean ====
section
/-! DEFINITION. The assembler: command lines and what they stand for, the store and load of a value, the pseudo-instructions
(30_encoding.md R73, R80, R81; 20_memory.md R63). All of it is host software on top of the port. -/

namespace Sys2Proof

/-- The commands with a scalar operand in `ARG0` (30_encoding.md R73). -/
def Instr.hasArg0 : Instr → Bool
  | .fromu32 _ | .getbit _ | .shl _ _ | .shr _ _ | .muladdw _ _ | .addw _ _ => true
  | .zero _ | .copy _ _ | .cmp _ _ | .iszero _ | .isone _ | .bitlen _ => false
  | .add _ _ _ | .sub _ _ _ | .mul _ _ _ | .divmod _ _ _ _ | .mod _ _ _ | .smodexp _ _ _ _ => false
  | .mbuild _ | .mdestroy | .redc _ _ | .mtoform _ _ | .mfromform _ _ | .mmul _ _ _ | .mexp _ _ _ => false
  | .mgetn _ | .mgetrr _ | .invmod _ _ _ | .modexp _ _ _ _ => false

/-- The commands with a scalar operand in `ARG1` (30_encoding.md R73). -/
def Instr.hasArg1 : Instr → Bool
  | .muladdw _ _ => true
  | .zero _ | .fromu32 _ | .copy _ _ | .cmp _ _ | .iszero _ | .isone _ | .bitlen _ | .getbit _ => false
  | .shl _ _ | .shr _ _ | .add _ _ _ | .sub _ _ _ | .mul _ _ _ | .divmod _ _ _ _ | .mod _ _ _ | .addw _ _ => false
  | .smodexp _ _ _ _ | .mbuild _ | .mdestroy | .redc _ _ | .mtoform _ _ | .mfromform _ _ => false
  | .mmul _ _ _ | .mexp _ _ _ | .mgetn _ | .mgetrr _ | .invmod _ _ _ | .modexp _ _ _ _ => false

/-- The register operands of a line in the order they are written: rd, ra, rb, rc, but for `DIVMOD`, which is written
quotient, remainder, dividend, divisor (30_encoding.md R80). -/
def Instr.written : Instr → List Reg
  | .zero d | .fromu32 d | .mgetn d | .mgetrr d => [d]
  | .iszero a | .isone a | .bitlen a | .getbit a | .mbuild a => [a]
  | .cmp a b => [a, b]
  | .copy d a | .shl d a | .shr d a | .muladdw d a | .addw d a => [d, a]
  | .redc d a | .mtoform d a | .mfromform d a => [d, a]
  | .add d a b | .sub d a b | .mul d a b | .mod d a b | .mmul d a b | .mexp d a b | .invmod d a b => [d, a, b]
  | .divmod d a b c => [d, c, a, b]
  | .smodexp d a b c | .modexp d a b c => [d, a, b, c]
  | .mdestroy => []

end Sys2Proof

namespace Sys2Proof.Machine

/-! ## Command lines (30_encoding.md R80) -/

/-- One command line: a command with its scalars. A scalar the command does not have is not written. -/
structure AsmLine where
  instr : Instr
  arg0 : Word := 0#32
  arg1 : Word := 0#32
  deriving DecidableEq, Repr

/-- The mnemonic of a line, from the opcode map. -/
def AsmLine.mnemonic (l : AsmLine) : String := ((findRow (opField (encode l.instr))).map (·.mnemonic)).getD ""

/-- The operands of a line as text: registers, then scalars in decimal. -/
def AsmLine.operands (l : AsmLine) : List String :=
  l.instr.written.map (fun r => "B" ++ toString r.val)
    ++ (if l.instr.hasArg0 then ["#" ++ toString l.arg0.toNat] else [])
    ++ (if l.instr.hasArg1 then ["#" ++ toString l.arg1.toNat] else [])

/-- The text of a line. -/
def AsmLine.text (l : AsmLine) : String :=
  if l.operands = [] then l.mnemonic else l.mnemonic ++ " " ++ String.intercalate ", " l.operands

/-- A write made only if the command has the operand. -/
def writeIf (b : Bool) (addr : Nat) (v : Word) (p : HostProgram α) : HostProgram α :=
  if b then .write addr v p else p

/-- The host sequence a line stands for: wait, the scalars the command has, the command word, wait. Its answer is the
`STATUS` word of the last poll. -/
def AsmLine.program (l : AsmLine) : HostProgram Word :=
  .wait fun _ =>
    writeIf l.instr.hasArg0 0x008 l.arg0 <|
      writeIf l.instr.hasArg1 0x00C l.arg1 <|
        .write 0x000 (encode l.instr) <| .wait .done

/-- The kind that a `STATUS` word reports (10_state.md R35, 60_exceptions.md R232). -/
def statusKind (w : Word) : Option ErrKind := ErrKind.ofCode (w.extractLsb' 8 8).toNat

/-- A line whose kind, if it ends with one, becomes the failure of the program (60_exceptions.md R232). -/
def AsmLine.orFail (l : AsmLine) : HostProgram Unit :=
  l.program.andThen fun w =>
    match statusKind w with
    | none => .done ()
    | some kind => .fail { kind := kind }

/-! ## Store and load (20_memory.md R63) -/

/-- Store `v` into register `r`, every limb (20_memory.md R63). DESIGN CHOICE (log entry 24): of a `v` at or above
`2^(32·CAP)`, which R63 does not cover, the low `CAP` limbs are stored and the rest is dropped. -/
def storeTurns (cap : Nat) (r : Reg) (v : Nat) : List Turn :=
  (List.range cap).map fun i => .host (.write (limbAddr cap r i) (limb v i))

/-- Load register `r`: read `USED[r]`, then that many limbs (20_memory.md R63); `used` is what the host read. -/
def loadTurns (cap : Nat) (r : Reg) (used : Nat) : List Turn :=
  .host (.read (usedAddr r)) :: (List.range used).map fun i => .host (.read (limbAddr cap r i))

/-- Read `count` limbs from limb `i` on. -/
def readLimbs (cap : Nat) (r : Reg) : (count i : Nat) → HostProgram (List Word)
  | 0, _ => .done []
  | count + 1, i =>
    .read (limbAddr cap r i) fun w => (readLimbs cap r count (i + 1)).andThen fun ws => .done (w :: ws)

/-- The load sequence as a program: the limbs below the `USED` word that was read, limb 0 first. It requires that the block
is not BUSY (20_memory.md R63). -/
def loadProgram (cap : Nat) (r : Reg) : HostProgram (List Word) :=
  .read (usedAddr r) fun u => readLimbs cap r u.toNat 0

/-- The writes of the nonzero limbs of `v` among these (20_memory.md R63). -/
def writeNonzero (cap : Nat) (r : Reg) (v : Nat) : List Nat → HostProgram Unit
  | [] => .done ()
  | i :: is => writeIf (limb v i != 0#32) (limbAddr cap r i) (limb v i) (writeNonzero cap r v is)

/-! ## Pseudo-instructions (30_encoding.md R81) -/

/-- The pseudo-instructions. -/
inductive Pseudo where
  | ldw (r : Reg) (value : Nat)
  | stw (r : Reg)
  | wait
  | mov (rd ra : Reg)
  | one (rd : Reg)
  | sqr (rd ra : Reg)
  | msqr (rd ra : Reg)
  | rdres
  | rdstat
  deriving DecidableEq, Repr

/-- The expansion of a pseudo-instruction; its answer is the words the host has read for it. DESIGN CHOICE (log entry 24):
`LDW` of a value at or above `2^(32·CAP)` stores its low `CAP` limbs. -/
def Pseudo.program (cap : Nat) : Pseudo → HostProgram (List Word)
  | .ldw r v =>
    (AsmLine.program { instr := .zero r }).andThen fun _ =>
      (writeNonzero cap r v (List.range cap)).andThen fun _ => .done []
  | .stw r => loadProgram cap r
  | .wait => .wait fun _ => .done []
  | .mov d a => (AsmLine.program { instr := .copy d a }).andThen fun _ => .done []
  | .one d => (AsmLine.program { instr := .fromu32 d, arg0 := 1#32 }).andThen fun _ => .done []
  | .sqr d a => (AsmLine.program { instr := .mul d a a }).andThen fun _ => .done []
  | .msqr d a => (AsmLine.program { instr := .mmul d a a }).andThen fun _ => .done []
  | .rdres => .read 0x010 fun w => .done [w]
  | .rdstat => .read 0x004 fun w => .done [w]

end Sys2Proof.Machine
end

