-- ==== Sys2Proof/Machine/Codec.lean ====
section
/-! DEFINITION. The codec, host software with no opcode (42_codec.md R140 to R146): decimal, hex and big-endian bytes to and
from a BigUint; `BadFormat` and `BufferTooSmall` are raised here only.

First the contract, on values, by the helpers `mul_add_word` and `div_mod`; then the same on top of the block's commands, as
host programs (42_codec.md R140). -/

namespace Sys2Proof.Machine

/-- The value of a decimal digit (42_codec.md R141). -/
def decimalDigit (c : Char) : Option Nat :=
  if 48 ≤ c.toNat ∧ c.toNat ≤ 57 then some (c.toNat - 48) else none

/-- The value of a hex digit, case-insensitive (42_codec.md R142). -/
def hexDigit (c : Char) : Option Nat :=
  if 48 ≤ c.toNat ∧ c.toNat ≤ 57 then some (c.toNat - 48)
  else if 97 ≤ c.toNat ∧ c.toNat ≤ 102 then some (c.toNat - 87)
  else if 65 ≤ c.toNat ∧ c.toNat ≤ 70 then some (c.toNat - 55)
  else none

/-- The character of a digit, lower-case above 9 (42_codec.md R141, R142). -/
def digitChar (d : Nat) : Char := if d < 10 then Char.ofNat (48 + d) else Char.ofNat (87 + d)

/-- Read digits left to right as repeated `×base + d` from `x`; a non-digit is `BadFormat`; an `Overflow` of the step is
returned unchanged; empty input is zero (42_codec.md R141, R142, R144).
DESIGN CHOICE (log entry 20): a string that overflows and also holds a non-digit ends with whichever comes first from the
left. -/
def readDigits (cap base : Nat) (digit : Char → Option Nat) : (x : Nat) → List Char → Except ErrKind Nat
  | x, [] => .ok x
  | x, c :: cs =>
    match digit c with
    | none => .error .badFormat
    | some d =>
      match bigMulAddWord cap x base d with
      | .ok y => readDigits cap base digit y cs
      | .error kind => .error kind

/-- Decimal to BigUint (42_codec.md R141). -/
def readDecimal (cap : Nat) (s : List Char) : Except ErrKind Nat := readDigits cap 10 decimalDigit 0 s

/-- Hex to BigUint (42_codec.md R142). -/
def readHex (cap : Nat) (s : List Char) : Except ErrKind Nat := readDigits cap 16 hexDigit 0 s

/-- Peel digits by repeated `div_mod` by the base, onto the digits already peeled; `bitlen` peelings are enough for a
base of at least 2 (42_codec.md R141; log entry 13). -/
def peelDigits (base : Nat) : (fuel x : Nat) → List Char → List Char
  | 0, _, acc => acc
  | fuel + 1, x, acc =>
    if x = 0 then acc
    else
      match bigDivMod x base with
      | .ok qr => peelDigits base fuel qr.1 (digitChar qr.2 :: acc)
      | .error _ => acc

/-- Digits of a value, no leading zeros but for zero itself (42_codec.md R141, R142). -/
def writeDigits (base v : Nat) : List Char := if v = 0 then [digitChar 0] else peelDigits base (bitlen v) v []

/-- BigUint to decimal (42_codec.md R141). -/
def writeDecimal (v : Nat) : List Char := writeDigits 10 v

/-- BigUint to hex (42_codec.md R142). -/
def writeHex (v : Nat) : List Char := writeDigits 16 v

/-- The integer of a big-endian byte string, the first byte the most significant (42_codec.md R143, 20_memory.md R55). -/
def bytesValue (s : List (BitVec 8)) : Nat := s.foldl (fun v b => 256 * v + b.toNat) 0

/-- Bytes to BigUint (42_codec.md R143); a value beyond the capacity is `Overflow` (log entry 18). -/
def readBytes (cap : Nat) (s : List (BitVec 8)) : Except ErrKind Nat := within cap (bytesValue s)

/-- The output length in bytes, one for zero (42_codec.md R143). -/
def byteLength (v : Nat) : Nat := max 1 ((bitlen v + 7) / 8)

/-- BigUint to bytes, minimum length, big-endian; too short a buffer fails and reports the length it needs
(42_codec.md R143, R145). -/
def writeBytes (v bufferLength : Nat) : Except (ErrKind × Nat) (List (BitVec 8)) :=
  if bufferLength < byteLength v then .error (.bufferTooSmall, byteLength v)
  else .ok ((List.range (byteLength v)).reverse.map fun j => BitVec.ofNat 8 (v >>> (8 * j)))

/-! ## Canonical forms (42_codec.md R146) -/

/-- Strip leading zeros, but keep "0"; the empty string, which decodes to zero (R144), becomes "0" (log entry 21). -/
def canonicalDecimal (s : List Char) : List Char :=
  match s.dropWhile (· == '0') with
  | [] => ['0']
  | c :: cs => c :: cs

/-- The lower-case form of a hex digit. -/
def lowerHex (c : Char) : Char := if 65 ≤ c.toNat ∧ c.toNat ≤ 70 then Char.ofNat (c.toNat + 32) else c

/-- For hex the output is lower-case too (42_codec.md R142). -/
def canonicalHex (s : List Char) : List Char := canonicalDecimal (s.map lowerHex)

/-- The same for bytes: no leading zero byte, one byte for zero (42_codec.md R143). -/
def canonicalBytes (s : List (BitVec 8)) : List (BitVec 8) :=
  match s.dropWhile (· == 0#8) with
  | [] => [0#8]
  | b :: bs => b :: bs

/-! ## The codec on top of the block (42_codec.md R140; program P5 of the vectors) -/

/-- Digits into register `r`, which holds what was read so far: one `MULADDW r, r, #base, #d` for each.
DESIGN CHOICE (log entry 30): the string is not looked through before its first command, so when the program fails `r` keeps
the value of the digits read before. -/
def readDigitsProgram (base : Word) (digit : Char → Option Nat) (r : Reg) : List Char → HostProgram Unit
  | [] => .done ()
  | c :: cs =>
    match digit c with
    | none => .fail { kind := .badFormat }
    | some d =>
      (AsmLine.orFail { instr := .muladdw r r, arg0 := base, arg1 := BitVec.ofNat 32 d }).andThen fun _ =>
        readDigitsProgram base digit r cs

/-- Read a decimal string into register `r`: `ZERO r`, then its digits (42_codec.md R141). -/
def readDecimalProgram (r : Reg) (s : List Char) : HostProgram Unit :=
  (AsmLine.orFail { instr := .zero r }).andThen fun _ => readDigitsProgram 10#32 decimalDigit r s

/-- Read a hex string into register `r` (42_codec.md R142). -/
def readHexProgram (r : Reg) (s : List Char) : HostProgram Unit :=
  (AsmLine.orFail { instr := .zero r }).andThen fun _ => readDigitsProgram 16#32 hexDigit r s

/-- Peel digits: `DIVMOD rv, rr, rv, rb`, read the remainder's limb 0, `ISZERO rv`, until `RES0 = 1`. A zero remainder has a
zero limb 0 (42_codec.md R141). -/
def peelProgram (cap : Nat) (rv rr rb : Reg) : (fuel : Nat) → List Char → HostProgram (List Char)
  | 0, acc => .done acc
  | fuel + 1, acc =>
    (AsmLine.orFail { instr := .divmod rv rv rb rr }).andThen fun _ =>
      .read (limbAddr cap rr 0) fun d =>
        (AsmLine.orFail { instr := .iszero rv }).andThen fun _ =>
          .read 0x010 fun z =>
            if z = 1#32 then .done (digitChar d.toNat :: acc) else peelProgram cap rv rr rb fuel (digitChar d.toNat :: acc)

/-- Write the value of register `rv` in a base, with `rr` and `rb` as scratch; `rv` ends as 0. At least one digit is
peeled, so zero is "0" (42_codec.md R141, R142); a register of `CAP` limbs has at most `32·CAP` digits. -/
def writeDigitsProgram (cap : Nat) (base : Word) (rv rr rb : Reg) : HostProgram (List Char) :=
  (AsmLine.orFail { instr := .fromu32 rb, arg0 := base }).andThen fun _ => peelProgram cap rv rr rb (32 * cap) []

/-- Fill the limb window of register `r` from a byte string (42_codec.md R140, 20_memory.md R55). DESIGN CHOICE (log entry
30): a string that does not fit is turned away before any access, so `r` keeps what it held. -/
def readBytesProgram (cap : Nat) (r : Reg) (s : List (BitVec 8)) : HostProgram Unit :=
  match readBytes cap s with
  | .error kind => .fail { kind := kind }
  | .ok v => (Pseudo.program cap (.ldw r v)).andThen fun _ => .done ()

/-- Drain the limb window of register `r` into bytes; too short a buffer fails with `BufferTooSmall` and the length it
needs (42_codec.md R140, R143, R145, 20_memory.md R55). It requires that the block is not BUSY (20_memory.md R63). -/
def writeBytesProgram (cap : Nat) (r : Reg) (bufferLength : Nat) : HostProgram (List (BitVec 8)) :=
  (loadProgram cap r).andThen fun ws =>
    match writeBytes (ofLimbs ws) bufferLength with
    | .ok bs => .done bs
    | .error e => .fail { kind := e.1, needed := some e.2 }

end Sys2Proof.Machine
end

