-- ==== Sys2Proof/Machine/Datapath.lean ====
section
/-! DEFINITION. The limb-level datapaths that the spec gives beside the value level: comparator, shifter, adder,
subtractor, multiplier, dividers, word operations (40_biguint_basic.md R94; 41_biguint_arith.md R111, R114, R116, R118,
R120, R121, R123).

The value level is normative (00_scope.md R19) and the commands use it; that each datapath gives the same answer is stated
in the obligations. Buffers are lists of limbs, limb 0 first. -/

namespace Sys2Proof.Machine

/-- `used` of a limb array: the count of significant limbs (10_state.md R25). -/
def significant : List Word → Nat
  | [] => 0
  | l :: ls => if significant ls ≠ 0 then significant ls + 1 else if l = 0#32 then 0 else 1

/-- The comparator: limbs `i − 1` down to 0 of `a` and `b`, from the most significant (40_biguint_basic.md R94). -/
def compareLimbs (a b : Nat) : (i : Nat) → Ordering
  | 0 => .eq
  | i + 1 =>
    if (limb a i).toNat < (limb b i).toNat then .lt
    else if (limb a i).toNat > (limb b i).toNat then .gt
    else compareLimbs a b i

/-- The left shifter's output limb `j`: `q` limbs down and `t` bits across, limbs below `q` zero
(41_biguint_arith.md R111). -/
def shlLimb (a bits j : Nat) : Nat :=
  let q := bits / 32
  let t := bits % 32
  if j < q then 0
  else if t = 0 then (limb a (j - q)).toNat
  else ((limb a (j - q)).toNat <<< t) % limbBase
    + (if j = q then 0 else (limb a (j - q - 1)).toNat >>> (32 - t))

/-- The adder: sum limbs and the final carry (41_biguint_arith.md R114). -/
def adderLimbs : (a b : List Word) → (carry : Nat) → List Word × Nat
  | x :: xs, y :: ys, carry =>
    let t := x.toNat + y.toNat + carry
    let rest := adderLimbs xs ys (t / limbBase)
    (BitVec.ofNat 32 t :: rest.1, rest.2)
  | _, _, carry => ([], carry)

/-- The adder's answer: a carry out of limb `CAP − 1` is `Overflow` (41_biguint_arith.md R114). -/
def adderDatapath (cap a b : Nat) : Except ErrKind Nat :=
  let out := adderLimbs (toLimbs cap a) (toLimbs cap b) 0
  if out.2 = 1 then .error .overflow else .ok (ofLimbs out.1)

/-- The subtractor: difference limbs and the final borrow (41_biguint_arith.md R116). -/
def subtractorLimbs : (a b : List Word) → (borrow : Nat) → List Word × Nat
  | x :: xs, y :: ys, borrow =>
    let short := decide (x.toNat < y.toNat + borrow)
    let t := if short then x.toNat + limbBase - (y.toNat + borrow) else x.toNat - (y.toNat + borrow)
    let rest := subtractorLimbs xs ys (if short then 1 else 0)
    (BitVec.ofNat 32 t :: rest.1, rest.2)
  | _, _, borrow => ([], borrow)

/-- The subtractor's answer: a final borrow is `Underflow` (41_biguint_arith.md R116). -/
def subtractorDatapath (cap a b : Nat) : Except ErrKind Nat :=
  let out := subtractorLimbs (toLimbs cap a) (toLimbs cap b) 0
  if out.2 = 1 then .error .underflow else .ok (ofLimbs out.1)

/-- One row of the schoolbook multiplier: add `x · b` to the buffer from its first limb and put the last carry in the limb
after (41_biguint_arith.md R118). -/
def mulRow (x : Word) : (out b : List Word) → (carry : Nat) → List Word
  | _ :: os, [], carry => BitVec.ofNat 32 carry :: os
  | [], _, _ => []
  | o :: os, y :: ys, carry =>
    let t := o.toNat + x.toNat * y.toNat + carry
    BitVec.ofNat 32 t :: mulRow x os ys (t / limbBase)

/-- The rows of the schoolbook multiplier, one limb of `a` at a time (41_biguint_arith.md R118). -/
def mulRows : (a b out : List Word) → List Word
  | [], _, out => out
  | x :: xs, b, out =>
    match mulRow x out b 0 with
    | [] => []
    | o :: os => o :: mulRows xs b os

/-- The schoolbook multiplier (41_biguint_arith.md R118), after the check of R117. -/
def multiplierDatapath (cap a b : Nat) : Except ErrKind Nat :=
  if len32 a + len32 b > cap then .error .overflow
  else .ok (ofLimbs (mulRows (toLimbs (len32 a) a) (toLimbs (len32 b) b)
    (List.replicate (len32 a + len32 b + 1) 0#32)))

/-- Binary long division: bits `i − 1` down to 0 of `a`, with the quotient and remainder so far
(41_biguint_arith.md R120). -/
def longDivide (a b : Nat) : (i q r : Nat) → Nat × Nat
  | 0, q, r => (q, r)
  | i + 1, q, r =>
    let r' := 2 * r + bitOf a i
    if r' ≥ b then longDivide a b i (q + 1 <<< i) (r' - b) else longDivide a b i q r'

/-- The divider (41_biguint_arith.md R120). -/
def dividerDatapath (a b : Nat) : Except ErrKind (Nat × Nat) :=
  if b = 0 then .error .divisionByZero else .ok (longDivide a b (bitlen a) 0 0)

/-- The single-limb divider: limbs `i − 1` down to 0 of `a`, in one pass (41_biguint_arith.md R121). -/
def shortDivide (a d : Nat) : (i q rem : Nat) → Nat × Nat
  | 0, q, rem => (q, rem)
  | i + 1, q, rem =>
    let t := rem * limbBase + (limb a i).toNat
    shortDivide a d i (q + (t / d) <<< (32 * i)) (t % d)

/-- The word multiply-add scan: limbs and the final carry (41_biguint_arith.md R123). -/
def mulAddScan (w : Nat) : (a : List Word) → (carry : Nat) → List Word × Nat
  | [], carry => ([], carry)
  | x :: xs, carry =>
    let t := x.toNat * w + carry
    let rest := mulAddScan w xs (t / limbBase)
    (BitVec.ofNat 32 t :: rest.1, rest.2)

/-- `mul_add_word` in a single limb-scan; a carry left over is `Overflow` (41_biguint_arith.md R123). -/
def mulAddDatapath (cap a w c : Nat) : Except ErrKind Nat :=
  let out := mulAddScan w (toLimbs cap a) c
  if out.2 ≠ 0 then .error .overflow else .ok (ofLimbs out.1)

/-- The trial search for the inverse modulo `m`: the first of `x`, `x + 1`, … that works, `count` values tried
(45_modinverse.md R204). -/
def trialInverse (a m : Nat) : (count x : Nat) → Option Nat
  | 0, _ => none
  | count + 1, x => if ((a % m) * x) % m = 1 then some x else trialInverse a m count (x + 1)

end Sys2Proof.Machine
end

