-- ==== Sys2Proof/Machine/Properties.lean ====
section
/-! DEFINITION. The universal properties of the source, as properties of the value-level helpers (41_biguint_arith.md R127,
44_montgomery.md R186; the numbers are those of 95_test_vectors.md part 2). Property 2 is the codec's
(42_codec.md R146). -/

namespace Sys2Proof.Machine

/-! ## The BigUint unit (41_biguint_arith.md R127) -/

/-- Property 1, normalization: the top used limb is not zero and every limb above is (10_state.md R22). -/
abbrev Normalised (v : Nat) : Prop :=
  (len32 v = 0 ∨ limb v (len32 v - 1) ≠ 0#32) ∧ ∀ i, len32 v ≤ i → limb v i = 0#32

/-- Property 3, division identity (41_biguint_arith.md R119). -/
abbrev DivisionIdentity (a b : Nat) : Prop := ∃ q r, bigDivMod a b = .ok (q, r) ∧ a = q * b + r ∧ r < b

/-- Property 4, add/sub inverse (41_biguint_arith.md R113). -/
abbrev AddSubInverse (cap a b : Nat) : Prop := ∀ c, bigAdd cap a b = .ok c → bigSub c b = .ok a

/-- Property 5, shift identity (41_biguint_arith.md R112). -/
abbrev ShiftIdentity (cap a k : Nat) : Prop := ∀ c, bigShl cap a k = .ok c → bigShr c k = a

/-- Property 11, idempotence of reduction (41_biguint_arith.md R122). -/
abbrev ReductionIdempotent (a m : Nat) : Prop := ∀ r, bigMod a m = .ok r → bigMod r m = .ok r

/-! ## The Montgomery unit (44_montgomery.md R186) -/

/-- Property 6, mulmod congruence (44_montgomery.md R181). -/
abbrev MulmodCongruence (cap : Nat) (c : Ctx) (a b : Nat) : Prop :=
  ∃ fa fb p, toForm cap c a = .ok fa ∧ toForm cap c b = .ok fb ∧ mulmod cap c fa fb = .ok p
    ∧ toForm cap c (a * b % c.n) = .ok p

/-- Property 7, form round trip (44_montgomery.md R179). -/
abbrev FormRoundTrip (cap : Nat) (c : Ctx) (a : Nat) : Prop := ∃ f, toForm cap c a = .ok f ∧ fromForm c f = .ok a

/-- Property 8, `n'` (44_montgomery.md R172). -/
abbrev NPrimeProperty (c : Ctx) : Prop := limb c.n 0 * c.nPrime = 0xFFFFFFFF#32

/-- Property 9, expmod agreement: the Montgomery engine answers, the schoolbook engine answers the same, and for a modulus of
at least 2 it is the power reduced (43_schoolbook_modexp.md R157). -/
abbrev EnginesAgree (cap : Nat) (c : Ctx) (base exp : Nat) : Prop :=
  ∃ v, mexp cap c base exp = .ok v ∧ smodexp cap base exp c.n = .ok v ∧ (2 ≤ c.n → v = base ^ exp % c.n)

/-- A valid keypair `(n, e, d)`, which the source names and does not define (47_rsaop_collaborator.md R224; DESIGN CHOICE, log
entry 28): `n` is a product of different primes, and `e·d` is at least 1 and is 1 modulo `p − 1` for each of them. Inverses
modulo `(p − 1)(q − 1)` and modulo the least common multiple are both of this kind (`validKeypair_of_primes`). -/
abbrev ValidKeypair (n e d : Nat) : Prop :=
  Squarefree n ∧ 1 ≤ e * d ∧ ∀ p : Nat, p.Prime → p ∣ n → e * d ≡ 1 [MOD p - 1]

/-- Property 10, RSA correctness, on the Montgomery engine and through the selector (47_rsaop_collaborator.md R224). -/
abbrev RsaCorrect (cap : Nat) (c : Ctx) (e d m : Nat) : Prop :=
  (∃ x, mexp cap c m e = .ok x ∧ mexp cap c x d = .ok m)
  ∧ ∃ out out', modexp cap c m e c.n = .ok out ∧ modexp cap c out.1 d c.n = .ok out' ∧ out'.1 = m

end Sys2Proof.Machine
end

