-- ==== Sys2Proof/Machine/RsaOp.lean ====
section
/-! DEFINITION. The RSA operation, host software with no opcode (47_rsaop_collaborator.md R220 to R224): the key, its context
in the one slot, encrypt and decrypt on values, and the same as host programs on the block. -/

namespace Sys2Proof.Machine

/-! ## The key (47_rsaop_collaborator.md R220) -/

/-- The host's key record; `n` and `exp` are BigUints of the block beside it (`RsaKey.Valid`). `mont` is what the one context slot offers this key. -/
structure RsaKey where
  n : Nat
  exp : Nat
  isPrivate : Bool
  mont : Option Ctx
  deriving DecidableEq, Repr

/-- The slot, for a modulus: present exactly when it is Active for this very modulus, which is when the last context setup
for it succeeded (47_rsaop_collaborator.md R220; 46_expselector.md R211; log entry 23). -/
def slotFor (s : State) (n : Nat) : Option Ctx :=
  if s.ctx.state = .active ∧ s.ctx.n = n then some s.ctx else none

/-- `n` and `exp` are BigUints of `cap` limbs (47_rsaop_collaborator.md R220, 10_state.md R21). -/
def keyFits (cap n exp : Nat) : Bool := fits cap n && fits cap exp

/-- The invariants of a key beside a block: `n` and `exp` are BigUints, `n ≠ 0`, `exp ≠ 0`, and `mont` is the slot's. -/
abbrev RsaKey.Valid (s : State) (key : RsaKey) : Prop :=
  keyFits s.cap key.n key.exp = true ∧ key.n ≠ 0 ∧ key.exp ≠ 0 ∧ key.mont = slotFor s key.n

/-- The key with this modulus and exponent beside a block; none when an invariant forbids it. -/
def rsaKey (s : State) (n exp : Nat) (isPrivate : Bool) : Option RsaKey :=
  if keyFits s.cap n exp = false ∨ n = 0 ∨ exp = 0 then none else some { n := n, exp := exp, isPrivate := isPrivate, mont := slotFor s n }

/-! ## Encrypt and decrypt on values (47_rsaop_collaborator.md R221, R222) -/

/-- `encrypt` and `decrypt`, which are the same arithmetic: `m ≥ n` is the host's `DomainError`, zero is not run at all,
the rest is `modexp`. -/
def rsaApply (cap : Nat) (key : RsaKey) (m : Nat) : Except ErrKind Nat :=
  if m ≥ key.n then .error .domainError
  else if m = 0 then .ok 0
  else
    match modexp cap (key.mont.getD Ctx.reset) m key.exp key.n with
    | .ok out => .ok out.1
    | .error e => .error e.1

/-! ## Host programs -/

/-- Teardown of whatever context the slot holds: wait, read `CTXSTAT`, `MDESTROY` if it reads Active
(44_montgomery.md R183, 10_state.md R38). DESIGN CHOICE (log entry 29): it waits first, since while BUSY the word read would
be a draw (20_memory.md R59). -/
def destroyContextProgram : HostProgram Unit :=
  .wait fun _ =>
    .read 0x014 fun ctxstat =>
      if ctxstat.extractLsb' 0 2 = 1#2 then AsmLine.orFail { instr := .mdestroy } else .done ()

/-- Key load and key change: `MDESTROY` if the slot is Active, whichever key's the context is (log entry 25), the
exponent to B2 and `n` to B3, then `MBUILD B3`. The answer says whether `mont` is present: a modulus that is even or too
large leaves the key to the schoolbook engine (47_rsaop_collaborator.md R220; 70_reset_and_hazards.md R264). DESIGN CHOICE
(log entry 26): an `n` or `exp` that is no BigUint is `Overflow` before any access; an exponent 0 is loaded like any other;
`n = 0` fails with the block's `ZeroModulus`. -/
def loadKeyProgram (cap n exp : Nat) : HostProgram Bool :=
  if keyFits cap n exp = false then .fail { kind := .overflow }
  else
    destroyContextProgram.andThen fun _ =>
      (Pseudo.program cap (.ldw 2 exp)).andThen fun _ =>
        (Pseudo.program cap (.ldw 3 n)).andThen fun _ =>
          (AsmLine.program { instr := .mbuild 3 }).andThen fun w =>
            match statusKind w with
            | none => .done true
            | some .evenModulus | some .overflow => .done false
            | some kind => .fail { kind := kind }

/-- Discarding a key: `MDESTROY` if the slot is Active, and zeros over the registers of its exponent and modulus
(70_reset_and_hazards.md R264). DESIGN CHOICE (log entry 25): the context is destroyed whichever key's it is; no register
but B2 and B3 is overwritten, since the spec names none that holds intermediates. -/
def discardKeyProgram : HostProgram Unit :=
  destroyContextProgram.andThen fun _ =>
    (AsmLine.orFail { instr := .zero 2 }).andThen fun _ => AsmLine.orFail { instr := .zero 3 }

/-- One operation with `m` in B1, the exponent in B2, `n` in B3 and the result in B4: `CMP B1, B3`, and `DomainError` in
software unless `RES0` reads Less; then `MODEXP B4, B1, B2, B3`. A kind the command ends with is the operation's
(47_rsaop_collaborator.md R221). -/
def rsaProgram : HostProgram Unit :=
  (AsmLine.orFail { instr := .cmp 1 3 }).andThen fun _ =>
    .read 0x010 fun order =>
      if order ≠ 0xFFFFFFFF#32 then .fail { kind := .domainError } else AsmLine.orFail { instr := .modexp 4 1 2 3 }

/-- The operation with the host's zero short-circuit: `ISZERO B1`, and without running the exponentiation the result 0; else
the operation, and the limbs of its result (47_rsaop_collaborator.md R222). DESIGN CHOICE (log entry 27): the short-circuit's 0
is the program's answer, no limbs, and B4 is not written. -/
def rsaShortProgram (cap : Nat) : HostProgram (List Word) :=
  (AsmLine.orFail { instr := .iszero 1 }).andThen fun _ =>
    .read 0x010 fun z =>
      if z = 1#32 then .done [] else rsaProgram.andThen fun _ => loadProgram cap 4

end Sys2Proof.Machine
end

