-- ==== Sys2Proof/Safety.lean ====
section
/-! DEFINITION. The terms the statements use: the invariant of the block, what a command writes, what it leaves unchanged,
and the three ways a command ends. -/

namespace Sys2Proof.Machine

/-! ## The invariant -/

/-- The context invariants (10_state.md R30, R31). -/
abbrev Ctx.Sound (cap : Nat) (c : Ctx) : Prop :=
  (c.state = .active →
    c.n % 2 = 1 ∧ c.k = len32 c.n ∧ 2 * c.k + 1 ≤ cap ∧ limb c.n 0 * c.nPrime = 0xFFFFFFFF#32
      ∧ c.rSquared = (2 ^ (32 * c.k)) ^ 2 % c.n)
  ∧ (c.state ≠ .active → c.n = 0 ∧ c.k = 0 ∧ c.nPrime = 0#32 ∧ c.rSquared = 0)

/-- Every register holds a value of at most `CAP` limbs (10_state.md R21, R22). -/
abbrev State.RegsFit (s : State) : Prop := ∀ r : Reg, s.reg r < 2 ^ (32 * s.cap)

/-- The relations among the status fields (10_state.md R28, R35; 60_exceptions.md R230, R238). -/
abbrev State.StatusSound (s : State) : Prop :=
  (s.fsm = .busy → s.done = false)
  ∧ (s.fsm = .fatal → s.done = true ∧ s.errKind = some .internalInvariantBroken)
  ∧ s.errKind ≠ some .badFormat ∧ s.errKind ≠ some .bufferTooSmall
  ∧ (s.engine ≠ .none → s.errKind = none)

/-- What holds of every state a run reaches: an allowed capacity (00_scope.md R8), registers that fit, a sound context,
sound status fields. -/
abbrev State.Inv (s : State) : Prop :=
  s.config.Allowed ∧ s.RegsFit ∧ s.ctx.Sound s.cap ∧ s.StatusSound

/-! ## What a command writes (30_encoding.md R73, R76) -/

end Sys2Proof.Machine

namespace Sys2Proof

/-- The destination registers of a command (30_encoding.md R76). -/
def Instr.dests : Instr → List Reg
  | .zero d | .fromu32 d | .mgetn d | .mgetrr d => [d]
  | .copy d _ | .shl d _ | .shr d _ | .muladdw d _ | .addw d _ => [d]
  | .redc d _ | .mtoform d _ | .mfromform d _ => [d]
  | .add d _ _ | .sub d _ _ | .mul d _ _ | .mod d _ _ | .mmul d _ _ | .mexp d _ _ | .invmod d _ _ => [d]
  | .smodexp d _ _ _ | .modexp d _ _ _ => [d]
  | .divmod d _ _ c => [d, c]
  | .cmp _ _ | .iszero _ | .isone _ | .bitlen _ | .getbit _ | .mbuild _ | .mdestroy => []

/-- The commands with a scalar result in `RES0` (10_state.md R37). -/
def Instr.writesRes0 : Instr → Bool
  | .cmp _ _ | .iszero _ | .isone _ | .bitlen _ | .getbit _ => true
  | .zero _ | .fromu32 _ | .copy _ _ | .shl _ _ | .shr _ _ | .add _ _ _ | .sub _ _ _ | .mul _ _ _ => false
  | .divmod _ _ _ _ | .mod _ _ _ | .muladdw _ _ | .addw _ _ | .smodexp _ _ _ _ | .invmod _ _ _ => false
  | .mbuild _ | .mdestroy | .redc _ _ | .mtoform _ _ | .mfromform _ _ | .mmul _ _ _ | .mexp _ _ _ => false
  | .mgetn _ | .mgetrr _ | .modexp _ _ _ _ => false

/-- The commands that write the context (10_state.md R32). -/
def Instr.writesCtx : Instr → Bool
  | .mbuild _ | .mdestroy => true
  | .cmp _ _ | .iszero _ | .isone _ | .bitlen _ | .getbit _ => false
  | .zero _ | .fromu32 _ | .copy _ _ | .shl _ _ | .shr _ _ | .add _ _ _ | .sub _ _ _ | .mul _ _ _ => false
  | .divmod _ _ _ _ | .mod _ _ _ | .muladdw _ _ | .addw _ _ | .smodexp _ _ _ _ | .invmod _ _ _ => false
  | .redc _ _ | .mtoform _ _ | .mfromform _ _ | .mmul _ _ _ | .mexp _ _ _ => false
  | .mgetn _ | .mgetrr _ | .modexp _ _ _ _ => false

end Sys2Proof

namespace Sys2Proof.Machine

/-- The locations of the port a command may change: its destinations' limbs and counts, STATUS, and RES0 or the context
words where it writes those (10_state.md R23, R32, R35, R37). -/
def Loc.writtenBy (i : Instr) : Loc → Bool
  | .status => true
  | .res0 => i.writesRes0
  | .ctxstat | .ctxnprime => i.writesCtx
  | .used r | .limb r _ => i.dests.contains r
  | .cmd | .arg0 | .arg1 | .config | .unmapped => false

/-! ## Frames -/

/-- `t` is `s` but for the registers of `D`, RES0, the context and the controller and status fields. That the
latch `cmd` is among what stays, also once the block is not BUSY, is the model's choice (log entry 6). -/
structure SameBut (D : List Reg) (s t : State) : Prop where
  regs : ∀ r, r ∉ D → t.reg r = s.reg r
  config : t.config = s.config
  arg0 : t.arg0 = s.arg0
  arg1 : t.arg1 = s.arg1
  cmd : t.cmd = s.cmd
  turns : t.turns = s.turns
  replies : t.replies = s.replies
  draws : t.draws = s.draws

/-- `t` is `s` but for the registers of `D` and the controller and status fields. -/
structure OnlyRegs (D : List Reg) (s t : State) : Prop where
  same : SameBut D s t
  ctx : t.ctx = s.ctx
  res0 : t.res0 = s.res0

/-- `t` is `s` but for RES0 and the controller and status fields. -/
structure OnlyRes0 (s t : State) : Prop where
  same : SameBut [] s t
  ctx : t.ctx = s.ctx

/-- `t` is `s` but for the context and the controller and status fields. -/
structure OnlyCtx (s t : State) : Prop where
  same : SameBut [] s t
  res0 : t.res0 = s.res0

/-- The registers, the context, the scalar registers and every status and controller field are those of `s`: only what
stands for the outside world differs. -/
structure SameBlock (s t : State) : Prop where
  config : t.config = s.config
  regs : t.regs = s.regs
  ctx : t.ctx = s.ctx
  arg0 : t.arg0 = s.arg0
  arg1 : t.arg1 = s.arg1
  res0 : t.res0 = s.res0
  fsm : t.fsm = s.fsm
  cmd : t.cmd = s.cmd
  done : t.done = s.done
  errKind : t.errKind = s.errKind
  engine : t.engine = s.engine
  fallback : t.fallback = s.fallback

/-! ## How a command ends -/

/-- The status of a success; `ENGINE` and `FALLBACK` are 0 after every command but MODEXP (40_biguint_basic.md R90(c)). -/
structure Succeeded (t : State) (engine : Engine := .none) : Prop where
  fsm : t.fsm = .idle
  done : t.done = true
  errKind : t.errKind = none
  engine : t.engine = engine
  fallback : t.fallback = false

/-- The status of a failure with a kind that is not fatal (60_exceptions.md R233). -/
structure FailedWith (kind : ErrKind) (t : State) : Prop where
  fsm : t.fsm = .idle
  done : t.done = true
  errKind : t.errKind = some kind
  engine : t.engine = .none
  fallback : t.fallback = false

/-- The command succeeds, its one destination `rd` gets `v`, and nothing else changes. -/
def Writes (i : Instr) (s : State) (rd : Reg) (v : Nat) : Prop :=
  ∃ t, exec i s = .next t ∧ t.reg rd = v ∧ Succeeded t ∧ OnlyRegs [rd] s t

/-- The command succeeds, RES0 gets `w`, and nothing else changes. -/
def Yields (i : Instr) (s : State) (w : Word) : Prop :=
  ∃ t, exec i s = .next t ∧ t.res0 = w ∧ Succeeded t ∧ OnlyRes0 s t

/-- The command ends with the kind and changes nothing but the status (60_exceptions.md R233). -/
def Raises (i : Instr) (s : State) (kind : ErrKind) : Prop :=
  ∃ t, exec i s = .next t ∧ FailedWith kind t ∧ OnlyRegs [] s t

/-- The command's outcome is the datapath's: its value in `rd`, or its kind. -/
def Follows (i : Instr) (s : State) (rd : Reg) (r : Except ErrKind Nat) : Prop :=
  (∀ v, r = .ok v → Writes i s rd v) ∧ (∀ kind, r = .error kind → Raises i s kind)

/-! ## The multiplications of schoolbook exponentiation (43_schoolbook_modexp.md R153, R154, R156) -/

/-- A multiplication that does not overflow (41_biguint_arith.md R117). -/
abbrev MulFits (cap x y : Nat) : Prop := len32 x + len32 y ≤ cap

/-- Every multiplication of the binary algorithm fits. Before bit `i` is looked at, the accumulator is the power for the bits
below `i` and the base has been squared `i` times; there is no squaring after the last bit (43_schoolbook_modexp.md R153). -/
abbrev BinaryFits (cap base exp m : Nat) : Prop :=
  ∀ i, i < bitlen exp →
    (exp / 2 ^ i % 2 = 1 → MulFits cap (base ^ (exp % 2 ^ i) % m) (base ^ 2 ^ i % m))
    ∧ (i + 1 < bitlen exp → MulFits cap (base ^ 2 ^ i % m) (base ^ 2 ^ i % m))

/-- Every multiplication of the window algorithm fits: the fourteen table products, then for each window `j` after the leading
one four squarings and, unless the window is zero, a product with its table entry (43_schoolbook_modexp.md R154). -/
abbrev WindowFits (cap base exp m : Nat) : Prop :=
  (∀ i, 2 ≤ i → i ≤ 15 → MulFits cap (base ^ (i - 1) % m) (base % m))
  ∧ ∀ j, 4 * (j + 1) < bitlen exp →
    (∀ t, t < 4 →
      MulFits cap (base ^ (exp / 2 ^ (4 * (j + 1)) * 2 ^ t) % m) (base ^ (exp / 2 ^ (4 * (j + 1)) * 2 ^ t) % m))
    ∧ (exp / 2 ^ (4 * j) % 16 ≠ 0 →
      MulFits cap (base ^ (exp / 2 ^ (4 * (j + 1)) * 16) % m) (base ^ (exp / 2 ^ (4 * j) % 16) % m))

/-! ## Whose turn it is -/

/-- The controller moves next: it is its turn, or the outside has nothing left to do (log entry 3). -/
def State.controllerNext (s : State) : Prop := s.turns = [] ∨ ∃ rest, s.turns = .controller :: rest

/-- The state with its first turn used up. -/
def State.afterTurn (s : State) : State := { s with turns := s.turns.tail }

end Sys2Proof.Machine
end

