-- ==== Sys2Proof/Certificates/Slice0/Obligations.lean ====
section
/-! DEFINITION. The statements for the provers, from the numbered rules of spec/.

A statement about a command says how it ends (`Writes`, `Yields`, `Raises`, `Follows` of Safety.lean), which includes its
whole frame and its status; that a frame holds the latch too is the model's choice (log entry 6). `State.Inv`, itself
stated to be kept by every step, is assumed only where a rule holds of the states a run reaches. -/

open Sys2Proof Sys2Proof.Machine

/-! ## Encoding (30_encoding.md) -/

/-- 30_encoding.md R80, the examples: words written out in the spec decode to the commands they stand for. -/
def Obligations.DecodesWrittenOutWords : Prop :=
  decode 0x22312000#32 = .ok (.add 3 1 2) ∧ decode 0x10500000#32 = .ok (.zero 5)
    ∧ decode 0x13012000#32 = .ok (.cmp 1 2) ∧ decode 0x20210000#32 = .ok (.shl 2 1)
    ∧ decode 0x25412500#32 = .ok (.divmod 4 1 2 5) ∧ decode 0x60412300#32 = .ok (.modexp 4 1 2 3)
    ∧ decode 0x41000000#32 = .ok .mdestroy ∧ decode 0x30412300#32 = .ok (.smodexp 4 1 2 3)
    ∧ decode 0x50312000#32 = .ok (.invmod 3 1 2)

/-- 30_encoding.md R70 to R76: every command is recovered from its word, with every operand at every value. -/
def Obligations.DecodeOfEncode : Prop :=
  ∀ i : Instr, i.wellFormed = true → decode (encode i) = .ok i

/-- 30_encoding.md R71, R74: a word that decodes is the word of its command, so no bit of it is ignored. -/
def Obligations.EncodeOfDecode : Prop :=
  ∀ (w : Word) (i : Instr), decode w = .ok i → i.wellFormed = true ∧ encode i = w

/-- 30_encoding.md R74, R77: the opcodes of the map are distinct and a word is accepted by at most one row of it; a word
selects a command exactly when a row accepts it and it is no `DIVMOD` with `rd = rc`. -/
def Obligations.WordSelectsAtMostOneRow : Prop :=
  (opcodeTable.map OpRow.op).Nodup
  ∧ ∀ w : Word,
    (∀ row₁ ∈ opcodeTable, ∀ row₂ ∈ opcodeTable, row₁.accepts w = true → row₂.accepts w = true → row₁ = row₂)
    ∧ ((∃ i, decode w = .ok i) ↔
        ∃ row ∈ opcodeTable, row.accepts w = true ∧ (row.op = 0x25#8 → rdField w ≠ rcField w))

/-! ## The step -/

/-- 10_state.md R28(c), 30_encoding.md R74: while BUSY, when the controller moves, the step is the effect of the latched
command on the state with that turn used up. -/
def Obligations.StepRunsLatchedCommand : Prop :=
  ∀ (s : State) (i : Instr), s.fsm = .busy → s.controllerNext → decode s.cmd = .ok i → step s = exec i s.afterTurn

/-- Log entry 11: the state that the host's fetch helper makes runs the encoded command in its very next step. -/
def Obligations.FetchWordRunsItsCommand : Prop :=
  ∀ (s : State) (i : Instr), i.wellFormed = true →
    step (s.withFetchWord 32 (encode i).toNat) = exec i (s.accept (encode i))

/-- 60_exceptions.md R235, 30_encoding.md R77: a latched word that decodes to no command completes with `IllegalCommand`
and changes nothing but the status (that the latch stays is the model's choice: log entry 6). -/
def Obligations.IllegalWordChangesOnlyStatus : Prop :=
  ∀ (s : State) (e : DecodeError), s.fsm = .busy → s.controllerNext → decode s.cmd = .error e →
    ∃ t, step s = .next t ∧ FailedWith .illegalCommand t ∧ OnlyRegs [] s.afterTurn t

/-- 70_reset_and_hazards.md R270(a), R274, 10_state.md R28(c): BUSY ends after finitely many steps, whatever accesses inside
the port the outside makes meanwhile; and if none of them is the reset input (R262), it ends with the completion of the
latched command on the block as it was, which sets DONE. The bound is the model's list of turns (log entry 3). -/
def Obligations.EveryAcceptedCommandCompletes : Prop :=
  ∀ s : State, s.fsm = .busy →
    (∀ addr, Turn.host (.read addr) ∈ s.turns → addr < portSize s.cap) →
    (∀ addr v, Turn.host (.write addr v) ∈ s.turns → addr < portSize s.cap) →
    ∃ n t, n ≤ s.turns.length + 1 ∧ Host.Core.run Sys2Proof.core n s = .next t ∧ t.fsm ≠ .busy
      ∧ (Turn.host .reset ∉ s.turns → t.done = true ∧ ∃ u, SameBlock s u ∧ completeCommand u = .next t)

/-! ## Reset and the invariant -/

/-- 10_state.md R44: after reset every word of the port is 0 but CONFIG, which reads `0x20100200`; the controller is IDLE
and the context Uninitialized. -/
def Obligations.ResetReadsZero : Prop :=
  (∀ l : Loc, l ≠ .config → State.reset.peek l = 0#32) ∧ State.reset.peek .config = 0x20100200#32
    ∧ State.reset.fsm = .idle ∧ State.reset.ctx.state = .uninitialized
    ∧ State.reset.ctx.n = 0 ∧ State.reset.ctx.rSquared = 0 ∧ ∀ r, State.reset.reg r = 0

/-- The invariant holds at reset. -/
def Obligations.ResetMeetsInvariant : Prop := State.reset.Inv

/-- 10_state.md R22, R30, R35: every step keeps the invariant: registers fit, the context is sound, the status fields
agree. -/
def Obligations.StepKeepsInvariant : Prop :=
  ∀ s t : State, s.Inv → step s = .next t → t.Inv

/-- 60_exceptions.md R237: no step from a state of the invariant enters FATAL or reports `InternalInvariantBroken`. -/
def Obligations.FatalIsNeverEntered : Prop :=
  ∀ s t : State, s.Inv → s.fsm ≠ .fatal → s.errKind ≠ some .internalInvariantBroken → step s = .next t →
    t.fsm ≠ .fatal ∧ t.errKind ≠ some .internalInvariantBroken

/-- 70_reset_and_hazards.md R260, R262: the reset input, in any controller state, leaves the reset state; CONFIG is not
affected. -/
def Obligations.ResetInputClearsEverything : Prop :=
  ∀ (s : State) (rest : List Turn), s.turns = .host .reset :: rest →
    ∃ t, step s = .next t ∧ (∀ l : Loc, l ≠ .config → t.peek l = 0#32) ∧ t.configWord = s.configWord
      ∧ (∀ r, t.reg r = 0) ∧ t.ctx = Ctx.reset ∧ t.fsm = .idle ∧ t.turns = rest

/-! ## Whole-machine rules -/

/-- 10_state.md R22: in its limbs every register is normalised, and its limbs are its value. -/
def Obligations.RegistersAreNormalised : Prop :=
  ∀ (s : State) (r : Reg), s.RegsFit →
    (s.used r = 0 ↔ s.reg r = 0) ∧ (0 < s.used r → s.limb r (s.used r - 1) ≠ 0#32)
      ∧ (∀ i, s.used r ≤ i → s.limb r i = 0#32) ∧ s.used r ≤ s.cap
      ∧ ofLimbs (toLimbs s.cap (s.reg r)) = s.reg r ∧ significant (toLimbs s.cap (s.reg r)) = s.used r

/-- 10_state.md R23: a register changes only as the destination of a command that succeeds, by a host write to its limb
window while IDLE, or by reset. -/
def Obligations.RegisterChangesOnlyAsDestination : Prop :=
  ∀ (s t : State) (r : Reg), step s = .next t → t.reg r ≠ s.reg r →
    (∃ i, s.fsm = .busy ∧ s.controllerNext ∧ decode s.cmd = .ok i ∧ r ∈ i.dests ∧ t.errKind = none)
    ∨ (s.fsm = .idle ∧ ∃ addr v j rest, s.turns = .host (.write addr v) :: rest ∧ locate s.cap addr = some (.limb r j))
    ∨ (∃ rest, s.turns = .host .reset :: rest)

/-- 10_state.md R31, R32: the context changes only by `MBUILD` when it is not Active, which makes it Active, by `MDESTROY`
when it is Active, which makes it Destroyed, or by reset. -/
def Obligations.ContextChangesOnlyByBuildAndDestroy : Prop :=
  ∀ s t : State, step s = .next t → t.ctx ≠ s.ctx →
    (∃ ra, s.fsm = .busy ∧ decode s.cmd = .ok (.mbuild ra) ∧ s.ctx.state ≠ .active ∧ t.ctx.state = .active)
    ∨ (s.fsm = .busy ∧ decode s.cmd = .ok .mdestroy ∧ s.ctx.state = .active ∧ t.ctx.state = .destroyed)
    ∨ (∃ rest, s.turns = .host .reset :: rest)

/-- 10_state.md R37: `RES0` changes only by the success of a command with a scalar result, or by reset. -/
def Obligations.Res0ChangesOnlyByScalarCommands : Prop :=
  ∀ s t : State, step s = .next t → t.res0 ≠ s.res0 →
    (∃ i, s.fsm = .busy ∧ decode s.cmd = .ok i ∧ i.writesRes0 = true ∧ t.errKind = none)
    ∨ (∃ rest, s.turns = .host .reset :: rest)

/-- 60_exceptions.md R233, R238: a command that ends with a kind writes the status and nothing else; the controller is IDLE,
or FATAL for `InternalInvariantBroken`; FALLBACK is set only by `MODEXP`. That the latch stays is the model's choice (log entry 6). -/
def Obligations.FailureChangesOnlyStatus : Prop :=
  ∀ (i : Instr) (s t : State) (kind : ErrKind), exec i s = .next t → t.errKind = some kind →
    OnlyRegs [] s t ∧ t.done = true ∧ t.engine = .none
      ∧ t.fsm = (if kind = .internalInvariantBroken then .fatal else .idle)
      ∧ (t.fallback = true → ∃ rd ra rb rc, i = .modexp rd ra rb rc)

/-- 10_state.md R23, R32, R36, R37: what the port shows after a command differs only at the locations the command writes. -/
def Obligations.PortFrameOfEveryCommand : Prop :=
  ∀ (i : Instr) (s t : State) (l : Loc), exec i s = .next t → l.writtenBy i = false → t.peek l = s.peek l

/-! ## The host port (20_memory.md) -/

/-- 20_memory.md R51 to R53, R57, 10_state.md R33: what stands at each offset. -/
def Obligations.AddressMap : Prop :=
  ∀ cap : Nat,
    (∀ (r : Reg) (i : Nat), i < cap → locate cap (0x10000 + r.val * (4 * cap) + 4 * i) = some (.limb r i))
    ∧ (∀ r : Reg, locate cap (0x40 + 4 * r.val) = some (.used r))
    ∧ locate cap 0x000 = some .cmd ∧ locate cap 0x004 = some .status ∧ locate cap 0x008 = some .arg0
    ∧ locate cap 0x00C = some .arg1 ∧ locate cap 0x010 = some .res0 ∧ locate cap 0x014 = some .ctxstat
    ∧ locate cap 0x018 = some .ctxnprime ∧ locate cap 0x01C = some .config
    ∧ (∀ addr, addr < 0x10000 + 4 * cap * 16 →
        addr % 4 ≠ 0 ∨ (0x20 ≤ addr ∧ addr < 0x40) ∨ (0x80 ≤ addr ∧ addr < 0x10000) →
        locate cap addr = some .unmapped)
    ∧ (∀ addr, locate cap addr = none ↔ 0x10000 + 4 * cap * 16 ≤ addr)

/-- 10_state.md R25: an accepted limb write sets that limb, keeps every other limb and register, changes the value by the
difference, and leaves the register normalised. -/
def Obligations.LimbWriteRenormalises : Prop :=
  ∀ (s : State) (r : Reg) (i : Nat) (v : Word) (rest : List Turn), s.fsm = .idle → s.RegsFit → i < s.cap →
    s.turns = .host (.write (limbAddr s.cap r i) v) :: rest →
    ∃ t, step s = .next t ∧ t.limb r i = v ∧ (∀ j, j ≠ i → t.limb r j = s.limb r j)
      ∧ t.reg r = s.reg r - (s.limb r i).toNat * 2 ^ (32 * i) + v.toNat * 2 ^ (32 * i)
      ∧ (∀ q, q ≠ r → t.reg q = s.reg q) ∧ t.used r = significant (toLimbs s.cap (t.reg r)) ∧ t.RegsFit
      ∧ t = { s.afterTurn with regs := t.regs }

/-- 20_memory.md R58: no read has a side effect; it gives one word, the true one unless BUSY (20_memory.md R53, R59;
10_state.md R34 to R41), and while BUSY the true `STATUS` and `CONFIG`. -/
def Obligations.ReadsHaveNoSideEffect : Prop :=
  ∀ (s : State) (addr : Nat) (rest : List Turn), s.turns = .host (.read addr) :: rest → addr < portSize s.cap →
    ∃ t w, step s = .next t ∧ SameBlock s t ∧ t.turns = rest ∧ t.replies = w :: s.replies
      ∧ (addr = 0x004 → w = s.statusWord) ∧ (addr = 0x01C → w = s.configWord)
      ∧ (s.fsm ≠ .busy →
          (∃ l, locate s.cap addr = some l ∧ w = s.peek l)
          ∧ (addr = 0x008 → w = s.arg0) ∧ (addr = 0x00C → w = s.arg1) ∧ (addr = 0x010 → w = s.res0)
          ∧ (addr = 0x014 → w = s.ctxstatWord) ∧ (addr = 0x018 → w = s.ctx.nPrime)
          ∧ (∀ r : Reg, addr = 0x040 + 4 * r.val → w = BitVec.ofNat 32 (s.used r))
          ∧ ∀ (r : Reg) (i : Nat), i < s.cap → addr = 0x10000 + r.val * (4 * s.cap) + 4 * i → w = s.limb r i)

/-- 20_memory.md R59, 60_exceptions.md R238: while BUSY or FATAL every host write, to any offset, is dropped. -/
def Obligations.WritesDroppedUnlessIdle : Prop :=
  ∀ (s : State) (addr : Nat) (v : Word) (rest : List Turn), s.fsm ≠ .idle →
    s.turns = .host (.write addr v) :: rest → addr < portSize s.cap → step s = .next s.afterTurn

/-- 10_state.md R28(b), R34, R36: a CMD write while IDLE latches the word and goes BUSY with DONE clear; the other status
fields keep their values, and STATUS reads so. A write to ARG0 or ARG1 while IDLE stores the word and nothing else. -/
def Obligations.AcceptLatchesTheWord : Prop :=
  ∀ (s : State) (w : Word) (rest : List Turn), s.fsm = .idle →
    (s.turns = .host (.write 0x000 w) :: rest →
      ∃ t, step s = .next t ∧ t = { s with turns := rest, cmd := w, fsm := .busy, done := false }
        ∧ t.statusWord.extractLsb' 0 8 = 1#8 ∧ t.statusWord.extractLsb' 8 24 = s.statusWord.extractLsb' 8 24)
    ∧ (s.turns = .host (.write 0x008 w) :: rest → step s = .next { s with turns := rest, arg0 := w })
    ∧ (s.turns = .host (.write 0x00C w) :: rest → step s = .next { s with turns := rest, arg1 := w })

/-- 20_memory.md R57: reads of misaligned and unmapped offsets give 0, writes to them and to read-only registers are
dropped; neither touches anything. (Not while BUSY: log entry 5.) -/
def Obligations.UnmappedAndReadOnlyAccesses : Prop :=
  ∀ (s : State) (addr : Nat) (v : Word) (rest : List Turn), s.fsm ≠ .busy → addr < portSize s.cap →
    ((addr % 4 ≠ 0 ∨ (0x20 ≤ addr ∧ addr < 0x40) ∨ (0x80 ≤ addr ∧ addr < 0x10000) ∨ addr = 0x000) →
      s.turns = .host (.read addr) :: rest → step s = .next (s.afterTurn.reply 0#32))
    ∧ ((addr % 4 ≠ 0 ∨ (0x20 ≤ addr ∧ addr < 0x40) ∨ (0x80 ≤ addr ∧ addr < 0x10000) ∨ addr = 0x004
        ∨ (0x010 ≤ addr ∧ addr < 0x20) ∨ (0x40 ≤ addr ∧ addr < 0x80)) →
      s.turns = .host (.write addr v) :: rest → step s = .next s.afterTurn)

/-- 20_memory.md R60(d), 60_exceptions.md R238, R239, R246: without a command running the controller changes nothing, and
while FATAL no access but reset changes anything. -/
def Obligations.StoppedBlockChangesNothing : Prop :=
  ∀ s : State,
    (s.fsm ≠ .busy → s.controllerNext → step s = .next s.afterTurn)
    ∧ (∀ t, s.fsm = .fatal → step s = .next t → (∀ rest, s.turns ≠ .host .reset :: rest) → SameBlock s t)

/-- 20_memory.md R63, R54: the host's store sequence followed by its load sequence returns the value, and touches no other
register. -/
def Obligations.StoreThenLoadReturnsValue : Prop :=
  ∀ (s : State) (r : Reg) (v : Nat), s.fsm = .idle → s.RegsFit → v < 2 ^ (32 * s.cap) →
    s.turns = storeTurns s.cap r v ++ loadTurns s.cap r (len32 v) →
    ∃ t, Host.Core.run Sys2Proof.core (s.cap + 1 + len32 v) s = .next t ∧ t.reg r = v ∧ t.turns = []
      ∧ t.replies = (toLimbs (len32 v) v).reverse ++ BitVec.ofNat 32 (len32 v) :: s.replies
      ∧ ∀ q, q ≠ r → t.reg q = s.reg q

/-! ## Status words (10_state.md R35, R38 to R41) -/

/-- 10_state.md R35, 60_exceptions.md R230: the fields of `STATUS`, with the code of every kind and engine. -/
def Obligations.StatusWordFields : Prop :=
  ∀ s : State,
    s.statusWord.getLsbD 0 = decide (s.fsm = .busy) ∧ s.statusWord.getLsbD 1 = s.done
      ∧ s.statusWord.getLsbD 2 = decide (s.fsm = .fatal) ∧ s.statusWord.extractLsb' 3 5 = 0#5
      ∧ (∀ k c, (k, c) ∈ [(none, 0#8), (some ErrKind.badFormat, 1#8), (some .bufferTooSmall, 2#8), (some .overflow, 3#8),
            (some .underflow, 4#8), (some .divisionByZero, 5#8), (some .zeroOperand, 6#8), (some .noInverse, 7#8),
            (some .evenModulus, 8#8), (some .zeroModulus, 9#8), (some .domainError, 10#8),
            (some .internalInvariantBroken, 11#8), (some .illegalCommand, 12#8), (some .contextState, 13#8)] →
          s.errKind = k → s.statusWord.extractLsb' 8 8 = c)
      ∧ (∀ e c, (e, c) ∈ [(Engine.none, 0#2), (.schoolbook, 1#2), (.montgomery, 2#2)] →
          s.engine = e → s.statusWord.extractLsb' 16 2 = c)
      ∧ s.statusWord.getLsbD 18 = s.fallback ∧ s.statusWord.extractLsb' 19 13 = 0#13
      ∧ ¬ (s.statusWord.getLsbD 0 = true ∧ s.statusWord.getLsbD 2 = true)

/-- 10_state.md R38, R40, R41: the fields of `CTXSTAT` and `CONFIG`, and the `USED` words. -/
def Obligations.ContextConfigAndUsedWords : Prop :=
  ∀ s : State, s.Inv →
    (s.ctx.state = .uninitialized → s.ctxstatWord.extractLsb' 0 2 = 0#2)
      ∧ (s.ctx.state = .active → s.ctxstatWord.extractLsb' 0 2 = 1#2)
      ∧ (s.ctx.state = .destroyed → s.ctxstatWord.extractLsb' 0 2 = 2#2)
      ∧ s.ctxstatWord.extractLsb' 2 14 = 0#14
      ∧ (s.ctxstatWord.extractLsb' 16 16).toNat = s.ctx.k ∧ (s.ctx.state ≠ .active → s.ctx.k = 0)
      ∧ (s.configWord.extractLsb' 0 16).toNat = s.cap ∧ s.configWord.extractLsb' 16 8 = 16#8
      ∧ s.configWord.extractLsb' 24 8 = 32#8 ∧ (s.cap = 512 → s.configWord = 0x20100200#32)
      ∧ ∀ r, (s.peek (.used r)).toNat = s.used r ∧ s.used r ≤ s.cap

/-! ## Queries and moves (40_biguint_basic.md) -/

/-- R91, R92, R93: the limbs and the count that `ZERO`, `FROMU32` and `COPY` leave in the destination. -/
def Obligations.ConstantsAndCopies : Prop :=
  ∀ (s : State) (rd ra : Reg),
    (∃ v, Writes (.zero rd) s rd v ∧ (∀ i, limb v i = 0#32) ∧ len32 v = 0)
    ∧ (∃ v, Writes (.fromu32 rd) s rd v ∧ limb v 0 = s.arg0 ∧ (∀ i, 1 ≤ i → limb v i = 0#32)
        ∧ len32 v = (if s.arg0 = 0#32 then 0 else 1))
    ∧ (∃ v, Writes (.copy rd ra) s rd v ∧ (∀ i, limb v i = s.limb ra i) ∧ len32 v = s.used ra)

/-- R94: `CMP` gives the order of the values, which is what the scan from the most significant limb finds. -/
def Obligations.CompareScansFromTheTop : Prop :=
  ∀ (s : State) (ra rb : Reg), s.RegsFit →
    Yields (.cmp ra rb) s (orderWord (compareLimbs (s.reg ra) (s.reg rb) s.cap))
    ∧ (s.reg ra < s.reg rb → Yields (.cmp ra rb) s 0xFFFFFFFF#32)
    ∧ (s.reg ra = s.reg rb → Yields (.cmp ra rb) s 0#32)
    ∧ (s.reg rb < s.reg ra → Yields (.cmp ra rb) s 1#32)

/-- R95, R96: `ISZERO` is the test `used = 0`, `ISONE` the test `used = 1` and `limbs[0] = 1`. -/
def Obligations.ZeroAndOneTestsByLimbs : Prop :=
  ∀ (s : State) (ra : Reg),
    Yields (.iszero ra) s (if s.used ra = 0 then 1#32 else 0#32)
    ∧ Yields (.isone ra) s (if s.used ra = 1 ∧ s.limb ra 0 = 1#32 then 1#32 else 0#32)

/-- R97: `BITLEN` is 0 for 0 and otherwise the `w` with `2^(w−1) ≤ a < 2^w`, the position of the highest set bit plus one; it
is found in the top limb. -/
def Obligations.BitLengthFromTopLimb : Prop :=
  ∀ (s : State) (ra : Reg), s.Inv →
    ∃ w, Yields (.bitlen ra) s w
      ∧ (s.reg ra = 0 → w = 0#32)
      ∧ (s.reg ra ≠ 0 → 2 ^ (w.toNat - 1) ≤ s.reg ra ∧ s.reg ra < 2 ^ w.toNat
        ∧ ∃ b, w.toNat = 32 * (s.used ra - 1) + b
          ∧ 2 ^ (b - 1) ≤ (s.limb ra (s.used ra - 1)).toNat ∧ (s.limb ra (s.used ra - 1)).toNat < 2 ^ b)

/-- R98: `GETBIT` reads bit `i mod 32` of limb `i div 32`, and 0 at and above bit `32·CAP`. -/
def Obligations.BitFromItsLimb : Prop :=
  ∀ (s : State) (ra : Reg),
    Yields (.getbit ra) s
      (if s.arg0.toNat ≥ 32 * s.cap then 0#32
       else if (s.limb ra (s.arg0.toNat / 32)).getLsbD (s.arg0.toNat % 32) then 1#32 else 0#32)

/-! ## Arithmetic (41_biguint_arith.md) -/

/-- R111: `SHL` multiplies by a power of two, limb by limb, and overflows exactly when the result needs too many limbs. -/
def Obligations.ShiftLeftByLimbs : Prop :=
  ∀ (s : State) (rd ra : Reg),
    (s.reg ra ≠ 0 ∧ bitlen (s.reg ra) + s.arg0.toNat > 32 * s.cap → Raises (.shl rd ra) s .overflow)
    ∧ (¬ (s.reg ra ≠ 0 ∧ bitlen (s.reg ra) + s.arg0.toNat > 32 * s.cap) →
        Writes (.shl rd ra) s rd (s.reg ra * 2 ^ s.arg0.toNat)
        ∧ ∀ j, (limb (s.reg ra * 2 ^ s.arg0.toNat) j).toNat = shlLimb (s.reg ra) s.arg0.toNat j)

/-- R112: `SHR` is the floor of the division by a power of two, and undoes a `SHL` that did not overflow. -/
def Obligations.ShiftRightIsFloorAndUndoes : Prop :=
  ∀ (s : State) (rd ra : Reg),
    Writes (.shr rd ra) s rd (s.reg ra / 2 ^ s.arg0.toNat)
    ∧ ∀ t, exec (.shl rd ra) s = .next t → t.errKind = none → Writes (.shr rd rd) t rd (s.reg ra)

/-- R113, R114: `ADD` is the exact sum or `Overflow`, and both are what the adder's carry chain gives. -/
def Obligations.AddFollowsTheAdder : Prop :=
  ∀ (s : State) (rd ra rb : Reg), s.RegsFit →
    Follows (.add rd ra rb) s rd (adderDatapath s.cap (s.reg ra) (s.reg rb))
    ∧ (s.reg ra + s.reg rb < 2 ^ (32 * s.cap) → Writes (.add rd ra rb) s rd (s.reg ra + s.reg rb))
    ∧ (2 ^ (32 * s.cap) ≤ s.reg ra + s.reg rb → Raises (.add rd ra rb) s .overflow)

/-- R115, R116: `SUB` is the exact difference or `Underflow`, and both are what the subtractor's borrow chain gives; it
undoes an `ADD` that did not overflow. -/
def Obligations.SubFollowsTheSubtractor : Prop :=
  ∀ (s : State) (rd ra rb : Reg), s.RegsFit →
    Follows (.sub rd ra rb) s rd (subtractorDatapath s.cap (s.reg ra) (s.reg rb))
    ∧ (s.reg rb ≤ s.reg ra → Writes (.sub rd ra rb) s rd (s.reg ra - s.reg rb))
    ∧ (s.reg ra < s.reg rb → Raises (.sub rd ra rb) s .underflow)
    ∧ ∀ t, exec (.add rd ra rb) s = .next t → t.errKind = none → rd ≠ rb → Writes (.sub rd rd rb) t rd (s.reg ra)

/-- R117, R118: `MUL` is the exact product unless the limb counts add up to more than `CAP`, and is what the rows of the
schoolbook multiplier give. -/
def Obligations.MulFollowsTheMultiplier : Prop :=
  ∀ (s : State) (rd ra rb : Reg),
    Follows (.mul rd ra rb) s rd (multiplierDatapath s.cap (s.reg ra) (s.reg rb))
    ∧ (s.used ra + s.used rb ≤ s.cap → Writes (.mul rd ra rb) s rd (s.reg ra * s.reg rb))
    ∧ (s.cap < s.used ra + s.used rb → Raises (.mul rd ra rb) s .overflow)

/-- R119, R120, R121: `DIVMOD` gives the one quotient and remainder, which binary long division and, for a one-limb divisor,
the single pass give; a zero divisor and `rd = rc` fail. -/
def Obligations.DivisionByAnyDivider : Prop :=
  ∀ (s : State) (rd ra rb rc : Reg),
    (rd ≠ rc → s.reg rb ≠ 0 →
      ∃ t, exec (.divmod rd ra rb rc) s = .next t ∧ s.reg ra = t.reg rd * s.reg rb + t.reg rc ∧ t.reg rc < s.reg rb
        ∧ longDivide (s.reg ra) (s.reg rb) (bitlen (s.reg ra)) 0 0 = (t.reg rd, t.reg rc)
        ∧ (s.used rb = 1 → shortDivide (s.reg ra) (s.limb rb 0).toNat (s.used ra) 0 0 = (t.reg rd, t.reg rc))
        ∧ Succeeded t ∧ OnlyRegs [rd, rc] s t)
    ∧ (rd ≠ rc → s.reg rb = 0 → Raises (.divmod rd ra rb rc) s .divisionByZero)
    ∧ (rd = rc → Raises (.divmod rd ra rb rc) s .illegalCommand)

/-- R122: `MOD` is the remainder, a second `MOD` changes nothing, and a zero modulus fails. -/
def Obligations.ModReducesOnce : Prop :=
  ∀ (s : State) (rd ra rb : Reg),
    (s.reg rb ≠ 0 → ∃ v, Writes (.mod rd ra rb) s rd v ∧ v < s.reg rb ∧ (∃ q, s.reg ra = q * s.reg rb + v)
      ∧ ∀ t, exec (.mod rd ra rb) s = .next t → rd ≠ rb → Writes (.mod rd rd rb) t rd v)
    ∧ (s.reg rb = 0 → Raises (.mod rd ra rb) s .divisionByZero)

/-- R123, R125: `MULADDW` and `ADDW` are the exact values or `Overflow`, and are what the single limb-scan gives. -/
def Obligations.WordCommandsFollowTheScan : Prop :=
  ∀ (s : State) (rd ra : Reg), s.RegsFit →
    Follows (.muladdw rd ra) s rd (mulAddDatapath s.cap (s.reg ra) s.arg0.toNat s.arg1.toNat)
    ∧ (s.reg ra * s.arg0.toNat + s.arg1.toNat < 2 ^ (32 * s.cap) →
        Writes (.muladdw rd ra) s rd (s.reg ra * s.arg0.toNat + s.arg1.toNat))
    ∧ (2 ^ (32 * s.cap) ≤ s.reg ra * s.arg0.toNat + s.arg1.toNat → Raises (.muladdw rd ra) s .overflow)
    ∧ Follows (.addw rd ra) s rd (mulAddDatapath s.cap (s.reg ra) 1 s.arg0.toNat)
    ∧ (s.reg ra + s.arg0.toNat < 2 ^ (32 * s.cap) → Writes (.addw rd ra) s rd (s.reg ra + s.arg0.toNat))
    ∧ (2 ^ (32 * s.cap) ≤ s.reg ra + s.arg0.toNat → Raises (.addw rd ra) s .overflow)

/-! ## Schoolbook exponentiation (43_schoolbook_modexp.md) -/

/-- R150, R152 to R157: for a modulus of at least 2 `SMODEXP` gives the power reduced; `Overflow` exactly when a
multiplication of the algorithm that the exponent's limb count selects overflows, so never when twice the modulus' limb count
is within the capacity. -/
def Obligations.SchoolbookPower : Prop :=
  ∀ (s : State) (rd ra rb rc : Reg), 2 ≤ s.reg rc →
    (Writes (.smodexp rd ra rb rc) s rd (s.reg ra ^ s.reg rb % s.reg rc)
      ∨ Raises (.smodexp rd ra rb rc) s .overflow)
    ∧ (2 * s.used rc ≤ s.cap → Writes (.smodexp rd ra rb rc) s rd (s.reg ra ^ s.reg rb % s.reg rc))
    ∧ (s.reg ra ≠ 0 → s.reg rb ≠ 0 → s.used rb ≤ 20 →
        (BinaryFits s.cap (s.reg ra) (s.reg rb) (s.reg rc) →
          Writes (.smodexp rd ra rb rc) s rd (s.reg ra ^ s.reg rb % s.reg rc))
        ∧ (¬ BinaryFits s.cap (s.reg ra) (s.reg rb) (s.reg rc) → Raises (.smodexp rd ra rb rc) s .overflow))
    ∧ (s.reg ra ≠ 0 → 20 < s.used rb →
        (WindowFits s.cap (s.reg ra) (s.reg rb) (s.reg rc) →
          Writes (.smodexp rd ra rb rc) s rd (s.reg ra ^ s.reg rb % s.reg rc))
        ∧ (¬ WindowFits s.cap (s.reg ra) (s.reg rb) (s.reg rc) → Raises (.smodexp rd ra rb rc) s .overflow))

/-- R151, with the frames of R90 and 60_exceptions.md R233: the zero modulus first, then the edge cases in the source's order; a base that is a nonzero multiple of the
modulus is no edge case and gives 0. -/
def Obligations.SchoolbookEdgeCasesInOrder : Prop :=
  ∀ (s : State) (rd ra rb rc : Reg),
    (s.reg rc = 0 → Raises (.smodexp rd ra rb rc) s .divisionByZero)
    ∧ (s.reg rc ≠ 0 → s.reg rb = 0 → Writes (.smodexp rd ra rb rc) s rd 1)
    ∧ (s.reg rc ≠ 0 → s.reg rb ≠ 0 → s.reg ra = 0 → Writes (.smodexp rd ra rb rc) s rd 0)
    ∧ (s.reg rc = 1 → s.reg rb ≠ 0 → s.reg ra ≠ 0 → Writes (.smodexp rd ra rb rc) s rd 0)
    ∧ (s.config.Allowed → 2 ≤ s.reg rc → s.reg rb ≠ 0 → s.reg ra ≠ 0 → s.reg ra % s.reg rc = 0 →
        Writes (.smodexp rd ra rb rc) s rd 0)

/-! ## Montgomery unit (44_montgomery.md) -/

/-- R172: the lifting ends, for every odd word, in the one word `n'` with `n₀·n' ≡ −1` modulo `2^32`; neither verification
fails. -/
def Obligations.HenselLiftingFindsTheInverse : Prop :=
  ∀ n0 : Word, n0.toNat % 2 = 1 →
    ∃ np, nprime n0 = .ok np ∧ n0 * np = 0xFFFFFFFF#32 ∧ ∀ x, n0 * x = 0xFFFFFFFF#32 → x = np

/-- R170, R173: `MBUILD` of an odd modulus with `2k + 1 ≤ CAP`, when no context is Active, makes the context of the rule
and writes nothing else. -/
def Obligations.BuildMakesTheContext : Prop :=
  ∀ (s : State) (ra : Reg), s.ctx.state ≠ .active → s.reg ra % 2 = 1 → 2 * s.used ra + 1 ≤ s.cap →
    ∃ t, exec (.mbuild ra) s = .next t ∧ t.ctx.state = .active ∧ t.ctx.n = s.reg ra ∧ t.ctx.k = s.used ra
      ∧ s.limb ra 0 * t.ctx.nPrime = 0xFFFFFFFF#32
      ∧ t.ctx.rSquared = (2 ^ (32 * s.used ra)) ^ 2 % s.reg ra ∧ Succeeded t ∧ OnlyCtx s t

/-- R170, 60_exceptions.md R234: the failures of `MBUILD`, in the order they are tested. -/
def Obligations.BuildFailuresInOrder : Prop :=
  ∀ (s : State) (ra : Reg),
    (s.ctx.state = .active → Raises (.mbuild ra) s .contextState)
    ∧ (s.ctx.state ≠ .active → s.reg ra = 0 → Raises (.mbuild ra) s .zeroModulus)
    ∧ (s.ctx.state ≠ .active → s.reg ra ≠ 0 → s.reg ra % 2 = 0 → Raises (.mbuild ra) s .evenModulus)
    ∧ (s.ctx.state ≠ .active → s.reg ra % 2 = 1 → s.cap < 2 * s.used ra + 1 → Raises (.mbuild ra) s .overflow)

/-- R183, R184, R185: teardown zeroes the context, so that `CTXSTAT` reads 2; `MGETN` and `MGETRR` copy its fields. -/
def Obligations.TeardownAndContextReads : Prop :=
  ∀ (s : State) (rd : Reg), s.ctx.state = .active →
    (∃ t, exec .mdestroy s = .next t ∧ t.ctx.state = .destroyed ∧ t.ctx.n = 0 ∧ t.ctx.k = 0 ∧ t.ctx.nPrime = 0#32
      ∧ t.ctx.rSquared = 0 ∧ t.peek .ctxstat = 2#32 ∧ t.peek .ctxnprime = 0#32 ∧ Succeeded t ∧ OnlyCtx s t)
    ∧ Writes (.mgetn rd) s rd s.ctx.n ∧ Writes (.mgetrr rd) s rd s.ctx.rSquared

/-- R166, with the frame of 60_exceptions.md R233: without an Active context every Montgomery command but `MBUILD` fails with `ContextState`, whatever its operands
hold. -/
def Obligations.MontgomeryNeedsActiveContext : Prop :=
  ∀ (s : State) (rd ra rb : Reg), s.ctx.state ≠ .active →
    Raises .mdestroy s .contextState ∧ Raises (.mgetn rd) s .contextState ∧ Raises (.mgetrr rd) s .contextState
      ∧ Raises (.redc rd ra) s .contextState ∧ Raises (.mtoform rd ra) s .contextState
      ∧ Raises (.mfromform rd ra) s .contextState ∧ Raises (.mmul rd ra rb) s .contextState
      ∧ Raises (.mexp rd ra rb) s .contextState

/-- R174 to R177: `REDC` gives the one value below `n` that is `T·R⁻¹` modulo `n`, and refuses `T ≥ n·R`. -/
def Obligations.RedcDividesByR : Prop :=
  ∀ (s : State) (rd ra : Reg), s.Inv → s.ctx.state = .active →
    (s.reg ra < s.ctx.n * 2 ^ (32 * s.ctx.k) →
      ∃ v, Writes (.redc rd ra) s rd v ∧ v < s.ctx.n ∧ v * 2 ^ (32 * s.ctx.k) % s.ctx.n = s.reg ra % s.ctx.n)
    ∧ (s.ctx.n * 2 ^ (32 * s.ctx.k) ≤ s.reg ra → Raises (.redc rd ra) s .domainError)

/-- R178, R180: `MTOFORM` gives `a·R mod n` for every `a`. -/
def Obligations.ToFormMultipliesByR : Prop :=
  ∀ (s : State) (rd ra : Reg), s.Inv → s.ctx.state = .active →
    Writes (.mtoform rd ra) s rd (s.reg ra * 2 ^ (32 * s.ctx.k) % s.ctx.n)

/-- R179, R180: `MFROMFORM` gives `a·R⁻¹ mod n` for every `a`, and takes a form back to its value. -/
def Obligations.FromFormDividesByRAndRestores : Prop :=
  ∀ (s : State) (rd ra : Reg), s.Inv → s.ctx.state = .active →
    (∃ v, Writes (.mfromform rd ra) s rd v ∧ v < s.ctx.n ∧ v * 2 ^ (32 * s.ctx.k) % s.ctx.n = s.reg ra % s.ctx.n)
    ∧ ∀ t, s.reg ra < s.ctx.n → exec (.mtoform rd ra) s = .next t → Writes (.mfromform rd rd) t rd (s.reg ra)

/-- R181: `MMUL` multiplies forms: it gives `a·b·R⁻¹ mod n`, the form of the product when the operands are forms, and
refuses an operand that is not below `n`. -/
def Obligations.MontgomeryProduct : Prop :=
  ∀ (s : State) (rd ra rb : Reg), s.Inv → s.ctx.state = .active →
    (s.reg ra < s.ctx.n → s.reg rb < s.ctx.n →
      ∃ v, Writes (.mmul rd ra rb) s rd v ∧ v < s.ctx.n
        ∧ v * 2 ^ (32 * s.ctx.k) % s.ctx.n = s.reg ra * s.reg rb % s.ctx.n
        ∧ ∀ x y, s.reg ra = x * 2 ^ (32 * s.ctx.k) % s.ctx.n → s.reg rb = y * 2 ^ (32 * s.ctx.k) % s.ctx.n →
            v = x * y * 2 ^ (32 * s.ctx.k) % s.ctx.n)
    ∧ (s.ctx.n ≤ s.reg ra ∨ s.ctx.n ≤ s.reg rb → Raises (.mmul rd ra rb) s .domainError)

/-- R182: `MEXP` gives the power reduced, and 1 for a zero exponent. -/
def Obligations.MontgomeryPower : Prop :=
  ∀ (s : State) (rd ra rb : Reg), s.Inv → s.ctx.state = .active →
    Writes (.mexp rd ra rb) s rd (if s.reg rb = 0 then 1 else s.reg ra ^ s.reg rb % s.ctx.n)

/-! ## Modular inverse (45_modinverse.md) -/

/-- R200, R201, R204: `INVMOD` gives the one inverse in `[1, m)`, which trial search finds too, or the kind of the first
failing test. -/
def Obligations.InverseIsTheUniqueInverse : Prop :=
  ∀ (s : State) (rd ra rb : Reg),
    (s.reg ra = 0 ∨ s.reg rb = 0 → Raises (.invmod rd ra rb) s .zeroOperand)
    ∧ (s.reg ra ≠ 0 → s.reg rb ≠ 0 → Nat.gcd (s.reg ra) (s.reg rb) ≠ 1 ∨ s.reg rb = 1 →
        Raises (.invmod rd ra rb) s .noInverse)
    ∧ (s.reg ra ≠ 0 → 2 ≤ s.reg rb → Nat.gcd (s.reg ra) (s.reg rb) = 1 →
        ∃ x, Writes (.invmod rd ra rb) s rd x ∧ 1 ≤ x ∧ x < s.reg rb ∧ s.reg ra * x % s.reg rb = 1
          ∧ (∀ y, 1 ≤ y → y < s.reg rb → s.reg ra * y % s.reg rb = 1 → y = x)
          ∧ trialInverse (s.reg ra) (s.reg rb) (s.reg rb - 1) 1 = some x)

/-! ## Selector (46_expselector.md) -/

/-- R210, R211, R212, R214: `MODEXP` gives the power reduced, without a fallback: by the Montgomery engine exactly when the
context is Active for this very modulus, odd and of at least 512 bits; else by the schoolbook engine, which may end with its
`Overflow`. A zero modulus is `DivisionByZero`. -/
def Obligations.SelectorGivesThePower : Prop :=
  ∀ (s : State) (rd ra rb rc : Reg), s.Inv →
    (s.reg rc = 0 → Raises (.modexp rd ra rb rc) s .divisionByZero)
    ∧ (s.ctx.state = .active ∧ s.ctx.n = s.reg rc ∧ s.reg rc % 2 = 1 ∧ 2 ^ 511 ≤ s.reg rc →
        ∃ t, exec (.modexp rd ra rb rc) s = .next t ∧ t.reg rd = s.reg ra ^ s.reg rb % s.reg rc
          ∧ Succeeded t .montgomery ∧ OnlyRegs [rd] s t)
    ∧ (s.reg rc ≠ 0 → ¬ (s.ctx.state = .active ∧ s.ctx.n = s.reg rc ∧ s.reg rc % 2 = 1 ∧ 2 ^ 511 ≤ s.reg rc) →
        (2 * s.used rc ≤ s.cap →
          ∃ t, exec (.modexp rd ra rb rc) s = .next t ∧ t.reg rd = s.reg ra ^ s.reg rb % s.reg rc
            ∧ Succeeded t .schoolbook ∧ OnlyRegs [rd] s t)
        ∧ (Raises (.smodexp rd ra rb rc) s .overflow → Raises (.modexp rd ra rb rc) s .overflow)
        ∧ (∀ v, Writes (.smodexp rd ra rb rc) s rd v →
          ∃ t, exec (.modexp rd ra rb rc) s = .next t ∧ t.reg rd = s.reg ra ^ s.reg rb % s.reg rc
            ∧ Succeeded t .schoolbook ∧ OnlyRegs [rd] s t)
        ∧ ((∃ t, exec (.modexp rd ra rb rc) s = .next t ∧ t.reg rd = s.reg ra ^ s.reg rb % s.reg rc
            ∧ Succeeded t .schoolbook ∧ OnlyRegs [rd] s t)
          ∨ Raises (.modexp rd ra rb rc) s .overflow))

/-- 47_rsaop_collaborator.md R224 (property 10): for a valid keypair, one `MODEXP` undoes the other, on either engine. What a
valid keypair is, is the model's choice (`ValidKeypair`, log entry 28). -/
def Obligations.RsaRoundTrip : Prop :=
  ∀ (s t : State) (bm be bd bn bc bo : Reg), s.Inv →
    ValidKeypair (s.reg bn) (s.reg be) (s.reg bd) → s.reg bm < s.reg bn → 2 * s.used bn ≤ s.cap →
    bc ≠ bd → bc ≠ bn → exec (.modexp bc bm be bn) s = .next t →
    ∃ u, exec (.modexp bo bc bd bn) t = .next u ∧ u.errKind = none ∧ u.reg bo = s.reg bm

/-! ## Host codec (42_codec.md) -/

/-- R143, R145, R146 (property 2): decoding an encoded value gives it back, in decimal, hex and bytes; encoding a decoded
string gives its canonical form; bytes come out in the least number that holds the value, one for zero, and a shorter buffer
fails with the length it needs. -/
def Obligations.CodecRoundTrip : Prop :=
  (∀ cap v : Nat, v < 2 ^ (32 * cap) →
    readDecimal cap (writeDecimal v) = .ok v ∧ readHex cap (writeHex v) = .ok v
      ∧ ∃ bs, writeBytes v bs.length = .ok bs ∧ readBytes cap bs = .ok v
        ∧ 1 ≤ bs.length ∧ v < 256 ^ bs.length ∧ (∀ m, 1 ≤ m → v < 256 ^ m → bs.length ≤ m)
        ∧ (∀ m, bs.length ≤ m → writeBytes v m = .ok bs)
        ∧ ∀ m, m < bs.length → writeBytes v m = .error (.bufferTooSmall, bs.length))
  ∧ (∀ (cap v : Nat) (s : List Char),
    (readDecimal cap s = .ok v → writeDecimal v = canonicalDecimal s)
      ∧ (readHex cap s = .ok v → writeHex v = canonicalHex s))
  ∧ ∀ (cap v : Nat) (bs : List (BitVec 8)), readBytes cap bs = .ok v →
    writeBytes v (max 1 bs.length) = .ok (canonicalBytes bs)

/-! ## The universal properties (41_biguint_arith.md R127, 44_montgomery.md R186) -/

/-- 41_biguint_arith.md R127: properties 1, 3, 4, 5 and 11, of the BigUint unit's helpers; and property 1 of every register
after every command. -/
def Obligations.BigUintProperties : Prop :=
  (∀ v, Normalised v) ∧ (∀ a b, b ≠ 0 → DivisionIdentity a b) ∧ (∀ cap a b, AddSubInverse cap a b)
    ∧ (∀ cap a k, ShiftIdentity cap a k) ∧ (∀ a m, ReductionIdempotent a m)
    ∧ ∀ (i : Instr) (s t : State) (r : Reg), s.Inv → exec i s = .next t →
        t.used r ≤ t.cap ∧ (t.used r = 0 ∨ t.limb r (t.used r - 1) ≠ 0#32) ∧ ∀ j, t.used r ≤ j → t.limb r j = 0#32

/-- 44_montgomery.md R186: properties 6 to 10, of the Montgomery unit under any sound Active context; what a valid
keypair is, is the model's choice (`ValidKeypair`, log entry 28). -/
def Obligations.MontgomeryProperties : Prop :=
  ∀ s : State, s.Inv → s.ctx.state = .active →
    (∀ a b, a < s.ctx.n → b < s.ctx.n → MulmodCongruence s.cap s.ctx a b)
    ∧ (∀ a, a < s.ctx.n → FormRoundTrip s.cap s.ctx a)
    ∧ NPrimeProperty s.ctx
    ∧ (∀ base exp, EnginesAgree s.cap s.ctx base exp)
    ∧ ∀ e d m : Nat, ValidKeypair s.ctx.n e d → m < s.ctx.n → RsaCorrect s.cap s.ctx e d m
end

