-- ==== Sys2Proof/Laws/BigNum.lean ====
section
/-! SUPPORT. What the limb views and the value-level helpers say, in terms of integers. Later proofs cite these and unfold
no view. -/

namespace Sys2Proof.Machine

/-! ## Bit length and limb count (00_scope.md R13) -/

/-- `bitlen` is the least exponent: the defining property of 00_scope.md R13. -/
theorem bitlen_le_iff (v L : Nat) : bitlen v ≤ L ↔ v < 2 ^ L := by
  unfold bitlen
  split
  · next h => simp [h]
  · next h => rw [Nat.succ_le_iff, Nat.log2_lt h]

theorem lt_two_pow_bitlen (v : Nat) : v < 2 ^ bitlen v := (bitlen_le_iff v _).1 le_rfl

theorem lt_bitlen_iff (v L : Nat) : L < bitlen v ↔ 2 ^ L ≤ v := by
  rw [← not_le, bitlen_le_iff, not_lt]

@[simp] theorem bitlen_zero : bitlen 0 = 0 := rfl

@[simp] theorem bitlen_eq_zero (v : Nat) : bitlen v = 0 ↔ v = 0 := by
  unfold bitlen; split <;> simp_all

/-- `len32` is the least limb count: the defining property of 00_scope.md R13. -/
theorem len32_le_iff (v u : Nat) : len32 v ≤ u ↔ v < 2 ^ (32 * u) := by
  rw [← bitlen_le_iff]; unfold len32; omega

theorem lt_len32_iff (v u : Nat) : u < len32 v ↔ 2 ^ (32 * u) ≤ v := by
  rw [← not_le, len32_le_iff, not_lt]

theorem lt_two_pow_len32 (v : Nat) : v < 2 ^ (32 * len32 v) := (len32_le_iff v _).1 le_rfl

@[simp] theorem len32_zero : len32 0 = 0 := rfl

@[simp] theorem len32_eq_zero (v : Nat) : len32 v = 0 ↔ v = 0 := by
  have h := len32_le_iff v 0
  simp only [Nat.le_zero, Nat.mul_zero, Nat.pow_zero, Nat.lt_one_iff] at h
  exact h

/-- A smaller value has no more limbs. -/
theorem len32_mono {a b : Nat} (h : a ≤ b) : len32 a ≤ len32 b :=
  (len32_le_iff a _).2 (lt_of_le_of_lt h (lt_two_pow_len32 b))

/-- `fits` is the range of 10_state.md R21. -/
theorem fits_iff (cap v : Nat) : fits cap v = true ↔ v < 2 ^ (32 * cap) := by
  simp [fits, len32_le_iff]

/-! ## Limbs -/

/-- The number in a limb. -/
theorem limb_toNat (v i : Nat) : (limb v i).toNat = v / 2 ^ (32 * i) % 2 ^ 32 := by
  simp [limb, Nat.shiftRight_eq_div_pow]

/-- `∀ i ≥ used: limbs[i] = 0` (10_state.md R22(b)). -/
theorem limb_eq_zero_of_len32_le {v i : Nat} (h : len32 v ≤ i) : limb v i = 0#32 := by
  have hv : v < 2 ^ (32 * i) := (len32_le_iff v i).1 h
  apply BitVec.eq_of_toNat_eq
  simp [limb_toNat, Nat.div_eq_of_lt hv]

@[simp] theorem toLimbs_length (count v : Nat) : (toLimbs count v).length = count := by simp [toLimbs]

theorem toLimbs_getElem {count v i : Nat} (h : i < (toLimbs count v).length) : (toLimbs count v)[i] = limb v i := by
  simp [toLimbs]

theorem toLimbs_succ (count v : Nat) : toLimbs (count + 1) v = limb v 0 :: toLimbs count (v / 2 ^ 32) := by
  simp only [toLimbs, List.range_succ_eq_map, List.map_cons, List.map_map]
  congr 1
  apply List.map_congr_left
  intro i _
  apply BitVec.eq_of_toNat_eq
  simp only [Function.comp_apply, limb_toNat, Nat.div_div_eq_div_mul, ← Nat.pow_add]
  rw [show 32 + 32 * i = 32 * (i + 1) by ring]

/-- The integer of the low limbs of `v` is `v` modulo a power of the base. -/
theorem ofLimbs_toLimbs (count v : Nat) : ofLimbs (toLimbs count v) = v % 2 ^ (32 * count) := by
  induction count generalizing v with
  | zero => simp [toLimbs, ofLimbs, Nat.mod_one]
  | succ n ih =>
    rw [toLimbs_succ, ofLimbs, ih, limb_toNat]
    have e : 2 ^ (32 * (n + 1)) = 2 ^ 32 * 2 ^ (32 * n) := by rw [← Nat.pow_add]; ring_nf
    rw [e, Nat.mod_mul]
    simp [limbBase]

/-- The limbs of a value that fits give it back (10_state.md R21). -/
theorem ofLimbs_toLimbs_of_lt {count v : Nat} (h : v < 2 ^ (32 * count)) : ofLimbs (toLimbs count v) = v := by
  rw [ofLimbs_toLimbs, Nat.mod_eq_of_lt h]

theorem ofLimbs_append (xs ys : List Word) :
    ofLimbs (xs ++ ys) = ofLimbs xs + 2 ^ (32 * xs.length) * ofLimbs ys := by
  induction xs with
  | nil => simp [ofLimbs]
  | cons x xs ih =>
    simp only [List.cons_append, ofLimbs, ih, List.length_cons]
    rw [show 32 * (xs.length + 1) = 32 * xs.length + 32 by ring, Nat.pow_add]
    simp only [limbBase]; ring

theorem ofLimbs_lt (xs : List Word) : ofLimbs xs < 2 ^ (32 * xs.length) := by
  induction xs with
  | nil => simp [ofLimbs]
  | cons x xs ih =>
    have hx := x.isLt
    simp only [ofLimbs, List.length_cons]
    rw [show 32 * (xs.length + 1) = 32 + 32 * xs.length by ring, Nat.pow_add]
    simp only [limbBase]
    nlinarith [hx, ih]

/-! ## Replacing a limb (10_state.md R25) -/

/-- The three parts of a value around limb `i`. -/
theorem split_at_limb (v i : Nat) :
    v = v % 2 ^ (32 * i) + 2 ^ (32 * i) * ((limb v i).toNat + 2 ^ 32 * (v / 2 ^ (32 * (i + 1)))) := by
  rw [limb_toNat, show 32 * (i + 1) = 32 * i + 32 by ring, Nat.pow_add, ← Nat.div_div_eq_div_mul,
    Nat.mod_add_div (v / 2 ^ (32 * i)) (2 ^ 32), Nat.mod_add_div]

/-- The value after a limb write, by its three parts. -/
theorem replaceLimb_eq (v i : Nat) (w : Word) :
    replaceLimb v i w = v % 2 ^ (32 * i) + 2 ^ (32 * i) * (w.toNat + 2 ^ 32 * (v / 2 ^ (32 * (i + 1)))) := by
  have h := split_at_limb v i
  unfold replaceLimb
  simp only [Nat.shiftLeft_eq]
  generalize v % 2 ^ (32 * i) = lo at *
  generalize v / 2 ^ (32 * (i + 1)) = hi at *
  generalize (limb v i).toNat = mid at *
  generalize 2 ^ (32 * i) = P at *
  rw [h]
  have e1 : lo + P * (mid + 2 ^ 32 * hi) = (lo + P * (2 ^ 32 * hi)) + mid * P := by ring
  rw [e1, Nat.add_sub_cancel]; ring

/-! ## The helpers that raise -/

theorem within_ok {cap v : Nat} (h : v < 2 ^ (32 * cap)) : within cap v = .ok v := by
  simp [within, (fits_iff cap v).2 h]

theorem within_overflow {cap v : Nat} (h : 2 ^ (32 * cap) ≤ v) : within cap v = .error .overflow := by
  have : fits cap v = false := by
    rw [← Bool.not_eq_true, fits_iff]; omega
  simp [within, this]

/-- Everything `within` can answer. -/
theorem within_cases (cap v : Nat) :
    (v < 2 ^ (32 * cap) ∧ within cap v = .ok v) ∨ (2 ^ (32 * cap) ≤ v ∧ within cap v = .error .overflow) := by
  rcases Nat.lt_or_ge v (2 ^ (32 * cap)) with h | h
  · exact .inl ⟨h, within_ok h⟩
  · exact .inr ⟨h, within_overflow h⟩

/-- Everything `bigMul` can answer. -/
theorem bigMul_cases (cap a b : Nat) :
    (len32 a + len32 b ≤ cap ∧ bigMul cap a b = .ok (a * b)) ∨
      (cap < len32 a + len32 b ∧ bigMul cap a b = .error .overflow) := by
  unfold bigMul
  split
  · next h => exact .inr ⟨h, rfl⟩
  · next h => exact .inl ⟨by omega, rfl⟩

/-- Everything `mulThenMod` can answer for a modulus that is not zero. -/
theorem mulThenMod_cases {cap x y m : Nat} (hm : m ≠ 0) :
    (len32 x + len32 y ≤ cap ∧ mulThenMod cap x y m = .ok (x * y % m)) ∨
      (cap < len32 x + len32 y ∧ mulThenMod cap x y m = .error .overflow) := by
  rcases bigMul_cases cap x y with ⟨h, e⟩ | ⟨h, e⟩
  · refine .inl ⟨h, ?_⟩
    simp [mulThenMod, e, bigMod, hm, bind, Except.bind]
  · refine .inr ⟨h, ?_⟩
    simp [mulThenMod, e, bind, Except.bind]

/-- Operands below a modulus of at most half the capacity multiply without overflow (43_schoolbook_modexp.md R156). -/
theorem mulThenMod_ok {cap x y m : Nat} (hm : m ≠ 0) (hx : x < m) (hy : y < m) (h : 2 * len32 m ≤ cap) :
    mulThenMod cap x y m = .ok (x * y % m) := by
  have h1 := len32_mono hx.le
  have h2 := len32_mono hy.le
  rcases mulThenMod_cases (cap := cap) (x := x) (y := y) hm with ⟨_, e⟩ | ⟨h', _⟩
  · exact e
  · omega

end Sys2Proof.Machine
end

