-- ==== Sys2Proof/Laws/Datapath.lean ====
section
/-! SUPPORT. What the multiply-accumulate loops of the limb-level datapaths compute, as integers: the carry chain loses
nothing while the buffer can hold the sum (44_montgomery.md R176). -/

namespace Sys2Proof.Machine

theorem addCarry_length (buf : List Word) (c : Nat) : (addCarry buf c).length = buf.length := by
  induction buf generalizing c with
  | nil => rfl
  | cons a as ih => simp only [addCarry]; split <;> simp [ih]

/-- The carry propagation adds the carry. -/
theorem ofLimbs_addCarry {buf : List Word} {c : Nat} (h : ofLimbs buf + c < 2 ^ (32 * buf.length)) :
    ofLimbs (addCarry buf c) = ofLimbs buf + c := by
  induction buf generalizing c with
  | nil => simp [ofLimbs] at h; simp [addCarry, ofLimbs, h]
  | cons a as ih =>
    simp only [addCarry]
    split
    · next hc => simp [hc]
    · rw [List.length_cons, show 32 * (as.length + 1) = 32 * as.length + 32 by ring, Nat.pow_add] at h
      simp only [ofLimbs, limbBase, BitVec.toNat_ofNat] at h ⊢
      rw [ih (by omega)]
      omega

theorem addMulLimbs_length (m : Word) (buf nl : List Word) (c : Nat) (h : nl.length ≤ buf.length) :
    (addMulLimbs m buf nl c).length = buf.length := by
  induction nl generalizing buf c with
  | nil => cases buf <;> simp [addMulLimbs, addCarry_length]
  | cons b bs ih =>
    cases buf with
    | nil => simp at h
    | cons a as => simp only [addMulLimbs, List.length_cons]; rw [ih as _ (by simpa using h)]

/-- One row of REDC adds `m · n` and the carry (44_montgomery.md R175, R176). -/
theorem ofLimbs_addMulLimbs {m : Word} {buf nl : List Word} {c : Nat} (hl : nl.length ≤ buf.length)
    (h : ofLimbs buf + m.toNat * ofLimbs nl + c < 2 ^ (32 * buf.length)) :
    ofLimbs (addMulLimbs m buf nl c) = ofLimbs buf + m.toNat * ofLimbs nl + c := by
  induction nl generalizing buf c with
  | nil =>
    have e : addMulLimbs m buf [] c = addCarry buf c := by cases buf <;> rfl
    simp only [ofLimbs, Nat.mul_zero, Nat.add_zero] at h ⊢
    rw [e, ofLimbs_addCarry h]
  | cons b bs ih =>
    cases buf with
    | nil => simp at hl
    | cons a as =>
      rw [List.length_cons, show 32 * (as.length + 1) = 32 * as.length + 32 by ring, Nat.pow_add] at h
      simp only [addMulLimbs, ofLimbs, limbBase, BitVec.toNat_ofNat] at h ⊢
      have hm : m.toNat * (b.toNat + 4294967296 * ofLimbs bs)
          = m.toNat * b.toNat + 4294967296 * (m.toNat * ofLimbs bs) := by ring
      rw [hm] at h ⊢
      generalize m.toNat * b.toNat = p at *
      rw [ih (by simpa using hl) (by omega)]
      generalize m.toNat * ofLimbs bs = q at *
      omega

end Sys2Proof.Machine
end

