-- ==== Sys2Proof/Laws/Decode.lean ====
section
/-! SUPPORT. The fields of a command word read back, and its bits under a format's mask: what the decoder needs of the
encoder's words. -/

namespace Sys2Proof

/-- The integer of a command word: each field at its place (30_encoding.md R70). -/
theorem commandWord_toNat (op : BitVec 8) (rd ra rb rc : Reg) :
    (commandWord op rd ra rb rc).toNat
      = op.toNat * 2 ^ 24 + rd.val * 2 ^ 20 + ra.val * 2 ^ 16 + rb.val * 2 ^ 12 + rc.val * 2 ^ 8 := by
  have h1 := rd.isLt; have h2 := ra.isLt; have h3 := rb.isLt; have h4 := rc.isLt
  have e (a b : Nat) (h : b < 16) : a <<< 4 ||| b = 16 * a + b := by
    rw [← Nat.shiftLeft_add_eq_or_of_lt (by omega), Nat.shiftLeft_eq]; omega
  simp only [commandWord, BitVec.toNat_append, BitVec.toNat_ofNat, Nat.reducePow,
    Nat.mod_eq_of_lt h1, Nat.mod_eq_of_lt h2, Nat.mod_eq_of_lt h3, Nat.mod_eq_of_lt h4, Nat.zero_mod, Nat.or_zero]
  rw [e _ _ h1, e _ _ h2, e _ _ h3, e _ _ h4, Nat.shiftLeft_eq]
  omega

theorem opField_toNat (w : Word) : (opField w).toNat = w.toNat / 2 ^ 24 := by
  have := w.isLt
  simp [opField, BitVec.extractLsb'_toNat, Nat.shiftRight_eq_div_pow]
  omega

theorem regField_val (lo : Nat) (w : Word) : (regField lo w).val = w.toNat / 2 ^ lo % 16 := by
  simp [regField, Nat.shiftRight_eq_div_pow]

@[simp] theorem opField_commandWord (op : BitVec 8) (rd ra rb rc : Reg) :
    opField (commandWord op rd ra rb rc) = op := by
  apply BitVec.eq_of_toNat_eq
  rw [opField_toNat, commandWord_toNat]
  have h1 := rd.isLt; have h2 := ra.isLt; have h3 := rb.isLt; have h4 := rc.isLt
  omega

@[simp] theorem rdField_commandWord (op : BitVec 8) (rd ra rb rc : Reg) :
    regField 20 (commandWord op rd ra rb rc) = rd := by
  apply Fin.ext
  rw [regField_val, commandWord_toNat]
  have h1 := rd.isLt; have h2 := ra.isLt; have h3 := rb.isLt; have h4 := rc.isLt
  omega

@[simp] theorem raField_commandWord (op : BitVec 8) (rd ra rb rc : Reg) :
    regField 16 (commandWord op rd ra rb rc) = ra := by
  apply Fin.ext
  rw [regField_val, commandWord_toNat]
  have h1 := rd.isLt; have h2 := ra.isLt; have h3 := rb.isLt; have h4 := rc.isLt
  omega

@[simp] theorem rbField_commandWord (op : BitVec 8) (rd ra rb rc : Reg) :
    regField 12 (commandWord op rd ra rb rc) = rb := by
  apply Fin.ext
  rw [regField_val, commandWord_toNat]
  have h1 := rd.isLt; have h2 := ra.isLt; have h3 := rb.isLt; have h4 := rc.isLt
  omega

@[simp] theorem rcField_commandWord (op : BitVec 8) (rd ra rb rc : Reg) :
    regField 8 (commandWord op rd ra rb rc) = rc := by
  apply Fin.ext
  rw [regField_val, commandWord_toNat]
  have h1 := rd.isLt; have h2 := ra.isLt; have h3 := rb.isLt; have h4 := rc.isLt
  omega

end Sys2Proof
end

