-- ==== Sys2Proof/Laws/HostProgram.lean ====
section
/-! SUPPORT. Host programs: how they run, what a wait is, kinds and their codes, the one slot that all keys share. -/

namespace Sys2Proof.Machine

variable {α β γ : Type}

/-! ## Running (30_encoding.md R80) -/

@[simp] theorem run_done (polls : Nat) (a : α) (s : State) : (HostProgram.done a).run polls s = .next (s, .ok a) := rfl

@[simp] theorem run_fail (polls : Nat) (failure : HostFailure) (s : State) :
    (HostProgram.fail failure : HostProgram α).run polls s = .next (s, .error failure) := rfl

@[simp] theorem takeTurns_nil (s : State) : takeTurns [] s = .next s := rfl

@[simp] theorem waitTurns_busy (polls : Nat) :
    waitTurns .busy polls = List.replicate polls statusRead ++ [.controller, statusRead] := rfl

theorem waitTurns_of_not_busy {fsm : Fsm} (h : fsm ≠ .busy) (polls : Nat) : waitTurns fsm polls = [statusRead] := by
  simp [waitTurns, h]

/-- The turns of a list, then those of another. -/
theorem takeTurns_append (ts us : List Turn) (s : State) :
    takeTurns (ts ++ us) s =
      match takeTurns ts s with
      | .next t => takeTurns us t
      | .fault r => .fault r
      | .refused r => .refused r := by
  induction ts generalizing s with
  | nil => rfl
  | cons t ts ih =>
    simp only [List.cons_append, takeTurns]
    cases step { s with turns := t :: s.turns } with
    | next s' => exact ih s'
    | fault r => rfl
    | refused r => rfl

/-- A program followed by another runs as the one and then the other, unless the first fails or stops. -/
theorem run_andThen (polls : Nat) (p : HostProgram α) (f : α → HostProgram β) (s : State) :
    (p.andThen f).run polls s =
      match p.run polls s with
      | .next (t, .ok a) => (f a).run polls t
      | .next (t, .error failure) => .next (t, .error failure)
      | .fault r => .fault r
      | .refused r => .refused r := by
  induction p generalizing s with
  | done a => rfl
  | fail failure => rfl
  | read addr next ih =>
    simp only [HostProgram.andThen, HostProgram.run]
    cases takeTurns [.host (.read addr)] s with
    | next t => exact ih _ t
    | fault r => rfl
    | refused r => rfl
  | write addr v next ih =>
    simp only [HostProgram.andThen, HostProgram.run]
    cases takeTurns [.host (.write addr v)] s with
    | next t => exact ih t
    | fault r => rfl
    | refused r => rfl
  | wait next ih =>
    simp only [HostProgram.andThen, HostProgram.run]
    cases takeTurns (waitTurns s.fsm polls) s with
    | next t => exact ih _ t
    | fault r => rfl
    | refused r => rfl

theorem andThen_assoc (p : HostProgram α) (f : α → HostProgram β) (g : β → HostProgram γ) :
    (p.andThen f).andThen g = p.andThen fun a => (f a).andThen g := by
  induction p with
  | done a => rfl
  | fail failure => rfl
  | read addr next ih => simp [HostProgram.andThen, ih]
  | write addr v next ih => simp [HostProgram.andThen, ih]
  | wait next ih => simp [HostProgram.andThen, ih]

/-! ## Kinds and codes (60_exceptions.md R230) -/

@[simp] theorem ofCode_code (kind : ErrKind) : ErrKind.ofCode kind.code = some kind := by cases kind <;> rfl

/-! ## Keys and the slot (47_rsaop_collaborator.md R220) -/

/-- At most one modulus has the slot at a time. -/
theorem slotFor_unique {s : State} {n n' : Nat} {c c' : Ctx} (h : slotFor s n = some c) (h' : slotFor s n' = some c') :
    n = n' := by
  unfold slotFor at h h'
  split at h
  · split at h'
    · next a b => exact a.2.symm.trans b.2
    · cases h'
  · cases h

/-- What `rsaKey` makes meets the invariants of a key. -/
theorem rsaKey_valid {s : State} {n exp : Nat} {p : Bool} {key : RsaKey} (h : rsaKey s n exp p = some key) : key.Valid s := by
  unfold rsaKey at h
  split at h
  · cases h
  · next hz => cases h; simp only [not_or, Bool.not_eq_false] at hz; exact ⟨hz.1, hz.2.1, hz.2.2, rfl⟩

/-- `n` and `exp` of a key are registers' values (10_state.md R21). -/
theorem keyFits_iff (cap n exp : Nat) : keyFits cap n exp = true ↔ len32 n ≤ cap ∧ len32 exp ≤ cap := by
  simp [keyFits, fits]

/-- A key load with an `n` or `exp` that is no BigUint ends before any access. -/
theorem run_loadKeyProgram_of_not_fits {cap n exp : Nat} (h : keyFits cap n exp = false) (polls : Nat) (s : State) :
    (loadKeyProgram cap n exp).run polls s = .next (s, .error { kind := .overflow }) := by
  simp [loadKeyProgram, h]

/-- Two different primes, with exponents that are inverse modulo `lcm(p − 1, q − 1)`, make a keypair; being inverse modulo the
multiple `(p − 1)(q − 1)` of it is enough too (log entry 28). -/
theorem validKeypair_of_primes {p q e d : Nat} (hp : p.Prime) (hq : q.Prime) (hne : p ≠ q) (h0 : 1 ≤ e * d)
    (h : e * d ≡ 1 [MOD Nat.lcm (p - 1) (q - 1)]) : ValidKeypair (p * q) e d := by
  refine ⟨?_, h0, fun r hr hd => ?_⟩
  · exact (Nat.squarefree_mul ((Nat.coprime_primes hp hq).2 hne)).2 ⟨hp.squarefree, hq.squarefree⟩
  · rcases hr.dvd_mul.1 hd with hd | hd
    · rw [(Nat.prime_dvd_prime_iff_eq hr hp).1 hd]; exact h.of_dvd (Nat.dvd_lcm_left ..)
    · rw [(Nat.prime_dvd_prime_iff_eq hr hq).1 hd]; exact h.of_dvd (Nat.dvd_lcm_right ..)

end Sys2Proof.Machine
end

