-- ==== Sys2Proof/Laws/State.lean ====
section
/-! SUPPORT. One lemma per field per state update, so that no proof unfolds a record update. -/

namespace Sys2Proof.Machine

variable (s : State)

/-! `State.setReg` -/

@[simp] theorem setReg_config (r : Reg) (v : Nat) : (s.setReg r v).config = s.config := rfl
@[simp] theorem setReg_regs (r : Reg) (v : Nat) : (s.setReg r v).regs = s.regs.set r v := rfl
@[simp] theorem setReg_ctx (r : Reg) (v : Nat) : (s.setReg r v).ctx = s.ctx := rfl
@[simp] theorem setReg_arg0 (r : Reg) (v : Nat) : (s.setReg r v).arg0 = s.arg0 := rfl
@[simp] theorem setReg_arg1 (r : Reg) (v : Nat) : (s.setReg r v).arg1 = s.arg1 := rfl
@[simp] theorem setReg_res0 (r : Reg) (v : Nat) : (s.setReg r v).res0 = s.res0 := rfl
@[simp] theorem setReg_fsm (r : Reg) (v : Nat) : (s.setReg r v).fsm = s.fsm := rfl
@[simp] theorem setReg_cmd (r : Reg) (v : Nat) : (s.setReg r v).cmd = s.cmd := rfl
@[simp] theorem setReg_done (r : Reg) (v : Nat) : (s.setReg r v).done = s.done := rfl
@[simp] theorem setReg_errKind (r : Reg) (v : Nat) : (s.setReg r v).errKind = s.errKind := rfl
@[simp] theorem setReg_engine (r : Reg) (v : Nat) : (s.setReg r v).engine = s.engine := rfl
@[simp] theorem setReg_fallback (r : Reg) (v : Nat) : (s.setReg r v).fallback = s.fallback := rfl
@[simp] theorem setReg_turns (r : Reg) (v : Nat) : (s.setReg r v).turns = s.turns := rfl
@[simp] theorem setReg_replies (r : Reg) (v : Nat) : (s.setReg r v).replies = s.replies := rfl
@[simp] theorem setReg_draws (r : Reg) (v : Nat) : (s.setReg r v).draws = s.draws := rfl

/-! `State.accept` -/

@[simp] theorem accept_config (w : Word) : (s.accept w).config = s.config := rfl
@[simp] theorem accept_regs (w : Word) : (s.accept w).regs = s.regs := rfl
@[simp] theorem accept_ctx (w : Word) : (s.accept w).ctx = s.ctx := rfl
@[simp] theorem accept_arg0 (w : Word) : (s.accept w).arg0 = s.arg0 := rfl
@[simp] theorem accept_arg1 (w : Word) : (s.accept w).arg1 = s.arg1 := rfl
@[simp] theorem accept_res0 (w : Word) : (s.accept w).res0 = s.res0 := rfl
@[simp] theorem accept_fsm (w : Word) : (s.accept w).fsm = .busy := rfl
@[simp] theorem accept_cmd (w : Word) : (s.accept w).cmd = w := rfl
@[simp] theorem accept_done (w : Word) : (s.accept w).done = false := rfl
@[simp] theorem accept_errKind (w : Word) : (s.accept w).errKind = s.errKind := rfl
@[simp] theorem accept_engine (w : Word) : (s.accept w).engine = s.engine := rfl
@[simp] theorem accept_fallback (w : Word) : (s.accept w).fallback = s.fallback := rfl
@[simp] theorem accept_turns (w : Word) : (s.accept w).turns = s.turns := rfl
@[simp] theorem accept_replies (w : Word) : (s.accept w).replies = s.replies := rfl
@[simp] theorem accept_draws (w : Word) : (s.accept w).draws = s.draws := rfl

/-! `State.succeed` -/

@[simp] theorem succeed_config (e : Engine) (fb : Bool) : (s.succeed e fb).config = s.config := rfl
@[simp] theorem succeed_regs (e : Engine) (fb : Bool) : (s.succeed e fb).regs = s.regs := rfl
@[simp] theorem succeed_ctx (e : Engine) (fb : Bool) : (s.succeed e fb).ctx = s.ctx := rfl
@[simp] theorem succeed_arg0 (e : Engine) (fb : Bool) : (s.succeed e fb).arg0 = s.arg0 := rfl
@[simp] theorem succeed_arg1 (e : Engine) (fb : Bool) : (s.succeed e fb).arg1 = s.arg1 := rfl
@[simp] theorem succeed_res0 (e : Engine) (fb : Bool) : (s.succeed e fb).res0 = s.res0 := rfl
@[simp] theorem succeed_fsm (e : Engine) (fb : Bool) : (s.succeed e fb).fsm = .idle := rfl
@[simp] theorem succeed_cmd (e : Engine) (fb : Bool) : (s.succeed e fb).cmd = s.cmd := rfl
@[simp] theorem succeed_done (e : Engine) (fb : Bool) : (s.succeed e fb).done = true := rfl
@[simp] theorem succeed_errKind (e : Engine) (fb : Bool) : (s.succeed e fb).errKind = none := rfl
@[simp] theorem succeed_engine (e : Engine) (fb : Bool) : (s.succeed e fb).engine = e := rfl
@[simp] theorem succeed_fallback (e : Engine) (fb : Bool) : (s.succeed e fb).fallback = fb := rfl
@[simp] theorem succeed_turns (e : Engine) (fb : Bool) : (s.succeed e fb).turns = s.turns := rfl
@[simp] theorem succeed_replies (e : Engine) (fb : Bool) : (s.succeed e fb).replies = s.replies := rfl
@[simp] theorem succeed_draws (e : Engine) (fb : Bool) : (s.succeed e fb).draws = s.draws := rfl

/-! `State.failWith` -/

@[simp] theorem failWith_config (kind : ErrKind) (fb : Bool) : (s.failWith kind fb).config = s.config := rfl
@[simp] theorem failWith_regs (kind : ErrKind) (fb : Bool) : (s.failWith kind fb).regs = s.regs := rfl
@[simp] theorem failWith_ctx (kind : ErrKind) (fb : Bool) : (s.failWith kind fb).ctx = s.ctx := rfl
@[simp] theorem failWith_arg0 (kind : ErrKind) (fb : Bool) : (s.failWith kind fb).arg0 = s.arg0 := rfl
@[simp] theorem failWith_arg1 (kind : ErrKind) (fb : Bool) : (s.failWith kind fb).arg1 = s.arg1 := rfl
@[simp] theorem failWith_res0 (kind : ErrKind) (fb : Bool) : (s.failWith kind fb).res0 = s.res0 := rfl
@[simp] theorem failWith_fsm (kind : ErrKind) (fb : Bool) : (s.failWith kind fb).fsm = fsmAfter kind := rfl
@[simp] theorem failWith_cmd (kind : ErrKind) (fb : Bool) : (s.failWith kind fb).cmd = s.cmd := rfl
@[simp] theorem failWith_done (kind : ErrKind) (fb : Bool) : (s.failWith kind fb).done = true := rfl
@[simp] theorem failWith_errKind (kind : ErrKind) (fb : Bool) : (s.failWith kind fb).errKind = some kind := rfl
@[simp] theorem failWith_engine (kind : ErrKind) (fb : Bool) : (s.failWith kind fb).engine = .none := rfl
@[simp] theorem failWith_fallback (kind : ErrKind) (fb : Bool) : (s.failWith kind fb).fallback = fb := rfl
@[simp] theorem failWith_turns (kind : ErrKind) (fb : Bool) : (s.failWith kind fb).turns = s.turns := rfl
@[simp] theorem failWith_replies (kind : ErrKind) (fb : Bool) : (s.failWith kind fb).replies = s.replies := rfl
@[simp] theorem failWith_draws (kind : ErrKind) (fb : Bool) : (s.failWith kind fb).draws = s.draws := rfl

/-! `State.reply` -/

@[simp] theorem reply_config (w : Word) : (s.reply w).config = s.config := rfl
@[simp] theorem reply_regs (w : Word) : (s.reply w).regs = s.regs := rfl
@[simp] theorem reply_ctx (w : Word) : (s.reply w).ctx = s.ctx := rfl
@[simp] theorem reply_arg0 (w : Word) : (s.reply w).arg0 = s.arg0 := rfl
@[simp] theorem reply_arg1 (w : Word) : (s.reply w).arg1 = s.arg1 := rfl
@[simp] theorem reply_res0 (w : Word) : (s.reply w).res0 = s.res0 := rfl
@[simp] theorem reply_fsm (w : Word) : (s.reply w).fsm = s.fsm := rfl
@[simp] theorem reply_cmd (w : Word) : (s.reply w).cmd = s.cmd := rfl
@[simp] theorem reply_done (w : Word) : (s.reply w).done = s.done := rfl
@[simp] theorem reply_errKind (w : Word) : (s.reply w).errKind = s.errKind := rfl
@[simp] theorem reply_engine (w : Word) : (s.reply w).engine = s.engine := rfl
@[simp] theorem reply_fallback (w : Word) : (s.reply w).fallback = s.fallback := rfl
@[simp] theorem reply_turns (w : Word) : (s.reply w).turns = s.turns := rfl
@[simp] theorem reply_replies (w : Word) : (s.reply w).replies = w :: s.replies := rfl
@[simp] theorem reply_draws (w : Word) : (s.reply w).draws = s.draws := rfl

/-! `State.afterTurn` -/

@[simp] theorem afterTurn_config : (s.afterTurn).config = s.config := rfl
@[simp] theorem afterTurn_regs : (s.afterTurn).regs = s.regs := rfl
@[simp] theorem afterTurn_ctx : (s.afterTurn).ctx = s.ctx := rfl
@[simp] theorem afterTurn_arg0 : (s.afterTurn).arg0 = s.arg0 := rfl
@[simp] theorem afterTurn_arg1 : (s.afterTurn).arg1 = s.arg1 := rfl
@[simp] theorem afterTurn_res0 : (s.afterTurn).res0 = s.res0 := rfl
@[simp] theorem afterTurn_fsm : (s.afterTurn).fsm = s.fsm := rfl
@[simp] theorem afterTurn_cmd : (s.afterTurn).cmd = s.cmd := rfl
@[simp] theorem afterTurn_done : (s.afterTurn).done = s.done := rfl
@[simp] theorem afterTurn_errKind : (s.afterTurn).errKind = s.errKind := rfl
@[simp] theorem afterTurn_engine : (s.afterTurn).engine = s.engine := rfl
@[simp] theorem afterTurn_fallback : (s.afterTurn).fallback = s.fallback := rfl
@[simp] theorem afterTurn_turns : (s.afterTurn).turns = s.turns.tail := rfl
@[simp] theorem afterTurn_replies : (s.afterTurn).replies = s.replies := rfl
@[simp] theorem afterTurn_draws : (s.afterTurn).draws = s.draws := rfl

/-! `State.applyReset` -/

@[simp] theorem applyReset_config : (s.applyReset).config = s.config := rfl
@[simp] theorem applyReset_regs : (s.applyReset).regs = State.reset.regs := rfl
@[simp] theorem applyReset_ctx : (s.applyReset).ctx = State.reset.ctx := rfl
@[simp] theorem applyReset_arg0 : (s.applyReset).arg0 = State.reset.arg0 := rfl
@[simp] theorem applyReset_arg1 : (s.applyReset).arg1 = State.reset.arg1 := rfl
@[simp] theorem applyReset_res0 : (s.applyReset).res0 = State.reset.res0 := rfl
@[simp] theorem applyReset_fsm : (s.applyReset).fsm = State.reset.fsm := rfl
@[simp] theorem applyReset_cmd : (s.applyReset).cmd = State.reset.cmd := rfl
@[simp] theorem applyReset_done : (s.applyReset).done = State.reset.done := rfl
@[simp] theorem applyReset_errKind : (s.applyReset).errKind = State.reset.errKind := rfl
@[simp] theorem applyReset_engine : (s.applyReset).engine = State.reset.engine := rfl
@[simp] theorem applyReset_fallback : (s.applyReset).fallback = State.reset.fallback := rfl
@[simp] theorem applyReset_turns : (s.applyReset).turns = s.turns := rfl
@[simp] theorem applyReset_replies : (s.applyReset).replies = s.replies := rfl
@[simp] theorem applyReset_draws : (s.applyReset).draws = s.draws := rfl

/-! Reading registers -/

@[simp] theorem reg_setReg_same (r : Reg) (v : Nat) : (s.setReg r v).reg r = v := by
  simp [State.reg]

@[simp] theorem reg_setReg_other {r q : Reg} (h : q ≠ r) (v : Nat) : (s.setReg r v).reg q = s.reg q := by
  have h' : (r : Nat) ≠ (q : Nat) := fun e => h (Fin.ext e.symm)
  simp [State.reg, h']

theorem reg_setReg (r q : Reg) (v : Nat) : (s.setReg r v).reg q = if q = r then v else s.reg q := by
  by_cases h : q = r
  · subst h; simp
  · simp [h]

@[simp] theorem reg_succeed (e : Engine) (fb : Bool) (r : Reg) : (s.succeed e fb).reg r = s.reg r := rfl

@[simp] theorem reg_failWith (kind : ErrKind) (fb : Bool) (r : Reg) : (s.failWith kind fb).reg r = s.reg r := rfl

@[simp] theorem reg_accept (w : Word) (r : Reg) : (s.accept w).reg r = s.reg r := rfl

@[simp] theorem reg_afterTurn (r : Reg) : s.afterTurn.reg r = s.reg r := rfl

@[simp] theorem reg_reset (r : Reg) : State.reset.reg r = 0 := by
  simp [State.reg, State.reset]

end Sys2Proof.Machine
end

