-- ==== Sys2Proof/Laws/Ops.lean ====
section
/-! SUPPORT. What completing a command can do, said once: `finish` by cases, and the outcome of every command.

`exec_ends` is the inversion lemma of `exec`; proofs about any command or about `step` cite it. -/

namespace Sys2Proof.Machine

/-- Everything `finish` can do. -/
theorem finish_cases {s t : State} {r : Except ErrKind State} (h : finish s r = .next t) :
    (∃ u, r = .ok u ∧ t = u.succeed) ∨ (∃ kind, r = .error kind ∧ t = s.failWith kind) := by
  unfold finish at h
  split at h
  · next u => exact .inl ⟨u, rfl, by injection h with h; exact h.symm⟩
  · next k => exact .inr ⟨k, rfl, by injection h with h; exact h.symm⟩

@[simp] theorem finish_ok (s u : State) : finish s (.ok u) = .next u.succeed := rfl

@[simp] theorem finish_error (s : State) (kind : ErrKind) : finish s (.error kind) = .next (s.failWith kind) := rfl

@[simp] theorem finishReg_ok (s : State) (rd : Reg) (v : Nat) :
    finishReg s rd (.ok v) = .next (s.setReg rd v).succeed := rfl

@[simp] theorem finishReg_error (s : State) (rd : Reg) (kind : ErrKind) :
    finishReg s rd (.error kind) = .next (s.failWith kind) := rfl

@[simp] theorem finishRes_eq (s : State) (w : Word) :
    finishRes s w = .next ({ s with res0 := w } : State).succeed := rfl

/-! ## Frames of the shared updates -/

theorem SameBut.refl (D : List Reg) (s : State) : SameBut D s s := ⟨fun _ _ => rfl, rfl, rfl, rfl, rfl, rfl, rfl, rfl⟩

theorem onlyRegs_setReg (s : State) (rd : Reg) (v : Nat) (e : Engine) (fb : Bool) :
    OnlyRegs [rd] s ((s.setReg rd v).succeed e fb) :=
  ⟨⟨fun r h => by simp at h; simp [h], rfl, rfl, rfl, rfl, rfl, rfl, rfl⟩, rfl, rfl⟩

theorem onlyRegs_failWith (D : List Reg) (s : State) (kind : ErrKind) (fb : Bool) :
    OnlyRegs D s (s.failWith kind fb) := ⟨⟨fun _ _ => rfl, rfl, rfl, rfl, rfl, rfl, rfl, rfl⟩, rfl, rfl⟩

/-- A command that writes one register with what a helper answers follows that helper. -/
theorem follows_of_finishReg {i : Instr} {s : State} {rd : Reg} {r : Except ErrKind Nat}
    (h : exec i s = finishReg s rd r) (hk : r ≠ .error .internalInvariantBroken) : Follows i s rd r := by
  refine ⟨fun v e => ?_, fun kind e => ?_⟩
  · exact ⟨_, by rw [h, e, finishReg_ok], by simp, ⟨rfl, rfl, rfl, rfl, rfl⟩, onlyRegs_setReg s rd v _ _⟩
  · refine ⟨_, by rw [h, e, finishReg_error], ⟨?_, rfl, rfl, rfl, rfl⟩, onlyRegs_failWith [] s kind _⟩
    subst e
    cases kind <;> first | rfl | exact absurd rfl hk

/-! ## What a command can do -/

/-- How a command ended: with success, its destinations, RES0 and the context written as the command may; or with a kind,
nothing but the status changed. -/
def Ended (i : Instr) (s t : State) : Prop :=
  (t.errKind = none ∧ t.fsm = .idle ∧ t.done = true ∧ SameBut i.dests s t
      ∧ (i.writesRes0 = false → t.res0 = s.res0) ∧ (i.writesCtx = false → t.ctx = s.ctx))
    ∨ (∃ kind fb, t = s.failWith kind fb)

theorem ended_finishReg {i : Instr} {s t : State} {rd : Reg} {r : Except ErrKind Nat}
    (hd : i.dests = [rd]) (h : finishReg s rd r = .next t) : Ended i s t := by
  rcases r with kind | v
  · rw [finishReg_error] at h; injection h with h
    exact .inr ⟨kind, false, h.symm⟩
  · rw [finishReg_ok] at h; injection h with h; subst h
    refine .inl ⟨rfl, rfl, rfl, ?_, fun _ => rfl, fun _ => rfl⟩
    rw [hd]; exact (onlyRegs_setReg s rd v _ _).same

theorem ended_finishRes {i : Instr} {s t : State} {w : Word}
    (hr : i.writesRes0 = true) (h : finishRes s w = .next t) : Ended i s t := by
  rw [finishRes_eq] at h; injection h with h; subst h
  exact .inl ⟨rfl, rfl, rfl, ⟨fun _ _ => rfl, rfl, rfl, rfl, rfl, rfl, rfl, rfl⟩, by simp [hr], fun _ => rfl⟩

theorem ended_finishCtx {i : Instr} {s t : State} {r : Except ErrKind State}
    (hc : i.writesCtx = true) (hr : ∀ u, r = .ok u → ∃ c, u = { s with ctx := c })
    (h : finish s r = .next t) : Ended i s t := by
  rcases finish_cases h with ⟨u, e, rfl⟩ | ⟨kind, _, rfl⟩
  · obtain ⟨c, rfl⟩ := hr u e
    exact .inl ⟨rfl, rfl, rfl, ⟨fun _ _ => rfl, rfl, rfl, rfl, rfl, rfl, rfl, rfl⟩, fun _ => rfl, by simp [hc]⟩
  · exact .inr ⟨kind, false, rfl⟩

theorem ended_divmod {rd ra rb rc : Reg} {s t : State} (h : execDivmod rd ra rb rc s = .next t) :
    Ended (.divmod rd ra rb rc) s t := by
  unfold execDivmod at h
  split at h
  · rw [finish_error] at h; injection h with h; exact .inr ⟨_, false, h.symm⟩
  · rcases finish_cases h with ⟨u, e, rfl⟩ | ⟨kind, _, rfl⟩
    · left
      cases hq : bigDivMod (s.reg ra) (s.reg rb) with
      | error k => rw [hq] at e; simp [Except.map] at e
      | ok qr =>
        rw [hq] at e; simp only [Except.map, Except.ok.injEq] at e; subst e
        refine ⟨rfl, rfl, rfl, ⟨fun r hr => ?_, rfl, rfl, rfl, rfl, rfl, rfl, rfl⟩, fun _ => rfl, fun _ => rfl⟩
        simp [Instr.dests] at hr
        simp [hr]
    · exact .inr ⟨kind, false, rfl⟩

theorem ended_modexp {rd ra rb rc : Reg} {s t : State} (h : execModexp rd ra rb rc s = .next t) :
    Ended (.modexp rd ra rb rc) s t := by
  unfold execModexp at h
  split at h
  · injection h with h; subst h
    exact .inl ⟨rfl, rfl, rfl, (onlyRegs_setReg s rd _ _ _).same, fun _ => rfl, fun _ => rfl⟩
  · injection h with h; exact .inr ⟨_, _, h.symm⟩

/-- Everything a command can do (10_state.md R28(c)). -/
theorem exec_ends {i : Instr} {s t : State} (h : exec i s = .next t) : Ended i s t := by
  cases i with
  | cmp | iszero | isone | bitlen | getbit => exact ended_finishRes rfl h
  | zero | fromu32 | copy | shr => exact ended_finishReg (r := .ok _) rfl h
  | divmod => exact ended_divmod h
  | modexp => exact ended_modexp h
  | mbuild =>
    refine ended_finishCtx rfl (fun u e => ?_) h
    simp only [Except.map] at e
    split at e
    · simp at e
    · simp only [Except.ok.injEq] at e; exact ⟨_, e.symm⟩
  | mdestroy =>
    refine ended_finishCtx rfl (fun u e => ?_) h
    simp only [whenActive] at e
    split at e
    · simp at e
    · simp only [Except.ok.injEq] at e; exact ⟨_, e.symm⟩
  | _ => exact ended_finishReg rfl h

/-- Every command completes (70_reset_and_hazards.md R274): no command faults and none is refused. -/
theorem exec_answers (i : Instr) (s : State) : ∃ t, exec i s = .next t := by
  have hf : ∀ r : Except ErrKind State, ∃ t, finish s r = .next t := by rintro (_ | _) <;> exact ⟨_, rfl⟩
  cases i with
  | divmod =>
    simp only [exec, execDivmod]; split
    · exact hf _
    · exact hf _
  | modexp => simp only [exec, execModexp]; split <;> exact ⟨_, rfl⟩
  | zero | fromu32 | copy | shr | cmp | iszero | isone | bitlen | getbit => exact ⟨_, rfl⟩
  | _ => exact hf _

end Sys2Proof.Machine
end

