-- ==== Sys2Proof/Laws/PerInstr.lean ====
section
/-! SUPPORT. The families of statements about every command as syntax, one lemma per constructor.

`OpcodeFound`: the encoder's opcode of a command is in the opcode map, and the row that is found there builds the command
back from the fields of its word (30_encoding.md R74, R75, R76). -/

namespace Sys2Proof.Laws.OpcodeFound

set_option Elab.async false

/-- The row of the encoded word's opcode, and the command it builds from that word's fields. -/
def Statement (i : Instr) : Prop :=
  ∃ row, findRow (opField (encode i)) = some row
    ∧ row.build (rdField (encode i)) (raField (encode i)) (rbField (encode i)) (rcField (encode i)) = i

theorem zero (a : Reg) : Statement (.zero a) := ⟨_, by simp only [encode, opField_commandWord]; rfl, by simp [encode]⟩

theorem fromu32 (a : Reg) : Statement (.fromu32 a) := ⟨_, by simp only [encode, opField_commandWord]; rfl, by simp [encode]⟩

theorem copy (a b : Reg) : Statement (.copy a b) := ⟨_, by simp only [encode, opField_commandWord]; rfl, by simp [encode]⟩

theorem cmp (a b : Reg) : Statement (.cmp a b) := ⟨_, by simp only [encode, opField_commandWord]; rfl, by simp [encode]⟩

theorem iszero (a : Reg) : Statement (.iszero a) := ⟨_, by simp only [encode, opField_commandWord]; rfl, by simp [encode]⟩

theorem isone (a : Reg) : Statement (.isone a) := ⟨_, by simp only [encode, opField_commandWord]; rfl, by simp [encode]⟩

theorem bitlen (a : Reg) : Statement (.bitlen a) := ⟨_, by simp only [encode, opField_commandWord]; rfl, by simp [encode]⟩

theorem getbit (a : Reg) : Statement (.getbit a) := ⟨_, by simp only [encode, opField_commandWord]; rfl, by simp [encode]⟩

theorem shl (a b : Reg) : Statement (.shl a b) := ⟨_, by simp only [encode, opField_commandWord]; rfl, by simp [encode]⟩

theorem shr (a b : Reg) : Statement (.shr a b) := ⟨_, by simp only [encode, opField_commandWord]; rfl, by simp [encode]⟩

theorem add (a b c : Reg) : Statement (.add a b c) := ⟨_, by simp only [encode, opField_commandWord]; rfl, by simp [encode]⟩

theorem sub (a b c : Reg) : Statement (.sub a b c) := ⟨_, by simp only [encode, opField_commandWord]; rfl, by simp [encode]⟩

theorem mul (a b c : Reg) : Statement (.mul a b c) := ⟨_, by simp only [encode, opField_commandWord]; rfl, by simp [encode]⟩

theorem divmod (a b c d : Reg) : Statement (.divmod a b c d) := ⟨_, by simp only [encode, opField_commandWord]; rfl, by simp [encode]⟩

theorem mod (a b c : Reg) : Statement (.mod a b c) := ⟨_, by simp only [encode, opField_commandWord]; rfl, by simp [encode]⟩

theorem muladdw (a b : Reg) : Statement (.muladdw a b) := ⟨_, by simp only [encode, opField_commandWord]; rfl, by simp [encode]⟩

theorem addw (a b : Reg) : Statement (.addw a b) := ⟨_, by simp only [encode, opField_commandWord]; rfl, by simp [encode]⟩

theorem smodexp (a b c d : Reg) : Statement (.smodexp a b c d) := ⟨_, by simp only [encode, opField_commandWord]; rfl, by simp [encode]⟩

theorem mbuild (a : Reg) : Statement (.mbuild a) := ⟨_, by simp only [encode, opField_commandWord]; rfl, by simp [encode]⟩

theorem mdestroy : Statement .mdestroy := ⟨_, by simp only [encode, opField_commandWord]; rfl, rfl⟩

theorem redc (a b : Reg) : Statement (.redc a b) := ⟨_, by simp only [encode, opField_commandWord]; rfl, by simp [encode]⟩

theorem mtoform (a b : Reg) : Statement (.mtoform a b) := ⟨_, by simp only [encode, opField_commandWord]; rfl, by simp [encode]⟩

theorem mfromform (a b : Reg) : Statement (.mfromform a b) := ⟨_, by simp only [encode, opField_commandWord]; rfl, by simp [encode]⟩

theorem mmul (a b c : Reg) : Statement (.mmul a b c) := ⟨_, by simp only [encode, opField_commandWord]; rfl, by simp [encode]⟩

theorem mexp (a b c : Reg) : Statement (.mexp a b c) := ⟨_, by simp only [encode, opField_commandWord]; rfl, by simp [encode]⟩

theorem mgetn (a : Reg) : Statement (.mgetn a) := ⟨_, by simp only [encode, opField_commandWord]; rfl, by simp [encode]⟩

theorem mgetrr (a : Reg) : Statement (.mgetrr a) := ⟨_, by simp only [encode, opField_commandWord]; rfl, by simp [encode]⟩

theorem invmod (a b c : Reg) : Statement (.invmod a b c) := ⟨_, by simp only [encode, opField_commandWord]; rfl, by simp [encode]⟩

theorem modexp (a b c d : Reg) : Statement (.modexp a b c d) := ⟨_, by simp only [encode, opField_commandWord]; rfl, by simp [encode]⟩

end Sys2Proof.Laws.OpcodeFound
end

