-- ==== Sys2Proof/Laws/Port.lean ====
section
/-! SUPPORT. The address map read back, and everything one access and one step can do. -/

namespace Sys2Proof.Machine

/-! ## The address map (20_memory.md R52, R53) -/

theorem limbAddr_lt {cap i : Nat} (r : Reg) (h : i < cap) : limbAddr cap r i < portSize cap := by
  have hr := r.isLt
  simp only [limbAddr, portSize, Config.nreg]
  have : r.val * (4 * cap) ≤ 15 * (4 * cap) := Nat.mul_le_mul_right _ (by omega)
  omega

/-- The limb window read back (20_memory.md R53). -/
theorem locate_limbAddr {cap i : Nat} (r : Reg) (h : i < cap) : locate cap (limbAddr cap r i) = some (.limb r i) := by
  have hlt := limbAddr_lt r h
  have hr := r.isLt
  have e : limbAddr cap r i - 0x10000 = 4 * i + (4 * cap) * r.val := by simp only [limbAddr]; rw [Nat.mul_comm]; omega
  have hmod : limbAddr cap r i % 4 = 0 := by
    simp only [limbAddr]
    rw [show 0x10000 + r.val * (4 * cap) + 4 * i = 4 * (0x4000 + r.val * cap + i) by ring]; simp
  have h1 : ¬ limbAddr cap r i < 0x10000 := by simp only [limbAddr]; omega
  have q : (4 * i + (4 * cap) * r.val) / (4 * cap) = r.val := by
    rw [Nat.add_mul_div_left _ _ (by omega), Nat.div_eq_of_lt (by omega), Nat.zero_add]
  have m : (4 * i + (4 * cap) * r.val) % (4 * cap) = 4 * i := by
    rw [Nat.add_mul_mod_self_left, Nat.mod_eq_of_lt (by omega)]
  unfold locate
  rw [if_neg (by omega), if_neg (by omega), if_neg (by omega), if_neg (by omega), if_neg (by omega), if_neg h1, e, q, m]
  simp only [Option.some.injEq, Loc.limb.injEq]
  refine ⟨Fin.ext ?_, by omega⟩
  simp

/-- The `USED` window read back (10_state.md R33). -/
theorem locate_usedAddr {cap : Nat} (r : Reg) : locate cap (usedAddr r) = some (.used r) := by
  have hr := r.isLt
  have ha : usedAddr r = 0x40 + 4 * r.val := rfl
  have hp : usedAddr r < portSize cap := by simp only [usedAddr, portSize]; omega
  unfold locate
  rw [if_neg (by omega), if_neg (by omega), if_neg (by omega), if_neg (by omega), if_pos (by omega)]
  simp only [Option.some.injEq, Loc.used.injEq]
  apply Fin.ext
  simp; omega

/-- A location exists exactly below `PORT_SIZE` (20_memory.md R51). -/
theorem locate_isSome (cap addr : Nat) : (locate cap addr).isSome = true ↔ addr < portSize cap := by
  unfold locate
  by_cases h : addr ≥ portSize cap
  · simp [h]
  · simp only [h, if_false]
    constructor
    · intro _; omega
    · intro _; split_ifs <;> rfl

/-! ## One access -/

/-- A read changes nothing but the reply and the count of free words (20_memory.md R58). -/
theorem readLoc_sameBlock (s : State) (l : Loc) : SameBlock s (s.readLoc l) := by
  unfold State.readLoc
  split <;> exact ⟨rfl, rfl, rfl, rfl, rfl, rfl, rfl, rfl, rfl, rfl, rfl, rfl⟩

/-- A write while the controller is not IDLE is dropped (20_memory.md R59; 60_exceptions.md R238). -/
theorem writeLoc_dropped {s : State} (h : s.fsm ≠ .idle) (l : Loc) (v : Word) : s.writeLoc l v = s := by
  simp [State.writeLoc, h]

/-- Everything an access can do. -/
theorem performAccess_cases {a : Access} {s t : State} (h : performAccess a s = .next t) :
    (∃ addr l, a = .read addr ∧ locate s.cap addr = some l ∧ t = s.readLoc l)
      ∨ (∃ addr v l, a = .write addr v ∧ locate s.cap addr = some l ∧ t = s.writeLoc l v)
      ∨ (a = .reset ∧ t = s.applyReset) := by
  cases a with
  | read addr =>
    simp only [performAccess] at h
    split at h
    · cases h
    · next l e => exact .inl ⟨addr, l, rfl, e, by injection h with h; exact h.symm⟩
  | write addr v =>
    simp only [performAccess] at h
    split at h
    · cases h
    · next l e => exact .inr (.inl ⟨addr, v, l, rfl, e, by injection h with h; exact h.symm⟩)
  | reset => exact .inr (.inr ⟨rfl, by simp only [performAccess] at h; injection h with h; exact h.symm⟩)

/-- Everything a write can do. -/
theorem writeLoc_cases (s : State) (l : Loc) (v : Word) :
    s.writeLoc l v = s
      ∨ (s.fsm = .idle ∧ ((l = .cmd ∧ s.writeLoc l v = s.accept v)
        ∨ (l = .arg0 ∧ s.writeLoc l v = { s with arg0 := v })
        ∨ (l = .arg1 ∧ s.writeLoc l v = { s with arg1 := v })
        ∨ (∃ r i, l = .limb r i ∧ s.writeLoc l v = s.writeLimb r i v))) := by
  by_cases h : s.fsm = .idle
  · cases l with
    | cmd => exact .inr ⟨h, .inl ⟨rfl, by simp [State.writeLoc, h]⟩⟩
    | arg0 => exact .inr ⟨h, .inr (.inl ⟨rfl, by simp [State.writeLoc, h]⟩)⟩
    | arg1 => exact .inr ⟨h, .inr (.inr (.inl ⟨rfl, by simp [State.writeLoc, h]⟩))⟩
    | limb r i => exact .inr ⟨h, .inr (.inr (.inr ⟨r, i, rfl, by simp [State.writeLoc, h]⟩))⟩
    | _ => exact .inl (by simp [State.writeLoc])
  · exact .inl (writeLoc_dropped h l v)

/-! ## One step -/

/-- Everything a step can do: nothing, one completion of a command, or one access. -/
theorem step_cases {s t : State} (h : step s = .next t) :
    (s.controllerNext ∧ s.fsm ≠ .busy ∧ t = s.afterTurn)
      ∨ (s.controllerNext ∧ s.fsm = .busy ∧ completeCommand s.afterTurn = .next t)
      ∨ (∃ a rest, s.turns = .host a :: rest ∧ performAccess a s.afterTurn = .next t) := by
  unfold step nextMove controllerMove at h
  match ht : s.turns with
  | [] =>
    have e : s.afterTurn = s := by cases s; simp_all [State.afterTurn]
    rw [ht] at h
    by_cases hb : s.fsm = .busy
    · simp only [hb, if_true] at h
      exact .inr (.inl ⟨.inl ht, hb, by rw [e]; exact h⟩)
    · simp only [hb, if_false] at h
      exact .inl ⟨.inl ht, hb, by rw [e]; injection h with h; exact h.symm⟩
  | .controller :: rest =>
    have e : s.afterTurn = { s with turns := rest } := by simp [State.afterTurn, ht]
    rw [ht] at h
    by_cases hb : s.fsm = .busy
    · simp only [hb, if_true] at h
      exact .inr (.inl ⟨.inr ⟨rest, ht⟩, hb, by rw [e, hb]; exact h⟩)
    · simp only [hb, if_false] at h
      exact .inl ⟨.inr ⟨rest, ht⟩, hb, by rw [e]; injection h with h; exact h.symm⟩
  | .host a :: rest =>
    have e : s.afterTurn = { s with turns := rest } := by simp [State.afterTurn, ht]
    rw [ht] at h
    exact .inr (.inr ⟨a, rest, rfl, by rw [e]; exact h⟩)

/-- Everything a completion can do: a command's own end, or `IllegalCommand`. -/
theorem completeCommand_cases {s t : State} (h : completeCommand s = .next t) :
    (∃ i, decode s.cmd = .ok i ∧ exec i s = .next t)
      ∨ (∃ e, decode s.cmd = .error e ∧ t = s.failWith .illegalCommand) := by
  unfold completeCommand at h
  split at h
  · next i e => exact .inl ⟨i, e, h⟩
  · next e he => exact .inr ⟨e, he, by rw [finish_error] at h; injection h with h; exact h.symm⟩

end Sys2Proof.Machine
end

