-- ==== Sys2Proof/Tests/Slice0.lean ====
section
/-! SUPPORT. Tests of the model, and a witness for the hypotheses of every statement.

Every expected value is a vector of 95_test_vectors.md (its id is named) or is computed by hand from the rule named; none
is the model's own answer. -/

namespace Sys2Proof.Tests

open Sys2Proof.Machine

set_option Elab.async false

/-! ## Helpers -/

/-- The reset state with these registers and scalars set. -/
def small (rs : List (Reg × Nat)) (arg0 arg1 : Word := 0#32) : State :=
  { rs.foldl (fun s p => s.setReg p.1 p.2) State.reset with arg0 := arg0, arg1 := arg1 }

/-- The context of the modulus 35 (V-M1). -/
def ctx35 : Ctx := { state := .active, n := 35, k := 1, nPrime := 0x75075075#32, rSquared := 16 }

/-- The context of the modulus `2^511 + 1` (program P6). -/
def ctxBig : Ctx := { state := .active, n := 2 ^ 511 + 1, k := 16, nPrime := 0xFFFFFFFF#32, rSquared := 4 }

/-- The context of the modulus `2^511 − 1`, one bit short of the threshold (V-X5); by hand, `R = 2^512 = 2` modulo it. -/
def ctxShort : Ctx := { state := .active, n := 2 ^ 511 - 1, k := 16, nPrime := 1#32, rSquared := 4 }

/-- A small state with an Active context. -/
def active (c : Ctx) (rs : List (Reg × Nat)) : State := { small rs with ctx := c }

/-- A state with these turns to come. -/
def withTurns (s : State) (turns : List Turn) : State := { s with turns := turns }

/-- A state BUSY with a command word. -/
def busyWith (s : State) (w : Word) (turns : List Turn := []) : State := { s.accept w with turns := turns }

/-- The FATAL state of 60_exceptions.md R238. -/
def fatal (turns : List Turn) : State := withTurns (State.reset.failWith .internalInvariantBroken) turns

/-- A register of sixteen thousand ones, the largest value (`CAP = 512`). -/
def allOnes : Nat := 2 ^ 16384 - 1

/-- The command word, run in one step, answers a next state with a property. -/
def runs (w : Nat) (s : State) (p : State → Bool) : Bool :=
  match step (s.withFetchWord 32 w) with
  | .next t => p t
  | _ => false

/-- One step answers a next state with a property. -/
def stepsTo (s : State) (p : State → Bool) : Bool :=
  match step s with
  | .next t => p t
  | _ => false

/-- A command answers a next state with a property. -/
def execs (i : Instr) (s : State) (p : State → Bool) : Bool :=
  match exec i s with
  | .next t => p t
  | _ => false

/-- A host program, polling twice in each wait, ends with a property of the state and of its answer or failure. -/
def ends {α : Type} (p : HostProgram α) (s : State) (q : State → Except HostFailure α → Bool) : Bool :=
  match p.run 2 s with
  | .next (t, r) => q t r
  | _ => false

/-- A program's answer. -/
def answers {α : Type} [DecidableEq α] (a : α) : Except HostFailure α → Bool
  | .ok b => decide (b = a)
  | .error _ => false

/-- A program's failure: its kind and the length it reports as needed, none but for `BufferTooSmall`. -/
def failsWith {α : Type} (kind : ErrKind) (needed : Option Nat) : Except HostFailure α → Bool
  | .ok _ => false
  | .error failure => decide (failure = { kind := kind, needed := needed })

/-! ## Well-formedness and decoding: words written out from 30_encoding.md R70 to R75 -/

theorem test_divmod_one_destination_ill_formed :
    (Instr.divmod 1 2 3 1).wellFormed = false ∧ (Instr.divmod 1 2 3 4).wellFormed = true := by decide

/-- The words are written field by field: op, rd, ra, rb, rc, z. -/
theorem test_decode_basic :
    decode (0b00010000#8 ++ 0b1111#4 ++ 0b0000#4 ++ 0b0000#4 ++ 0b0000#4 ++ 0#8) = .ok (.zero 15)
    ∧ decode (0b00010001#8 ++ 0b0001#4 ++ 0b0000#4 ++ 0b0000#4 ++ 0b0000#4 ++ 0#8) = .ok (.fromu32 1)
    ∧ decode (0b00010010#8 ++ 0b0010#4 ++ 0b0001#4 ++ 0b0000#4 ++ 0b0000#4 ++ 0#8) = .ok (.copy 2 1)
    ∧ decode (0b00010011#8 ++ 0b0000#4 ++ 0b1100#4 ++ 0b1010#4 ++ 0b0000#4 ++ 0#8) = .ok (.cmp 12 10)
    ∧ decode (0b00010100#8 ++ 0b0000#4 ++ 0b1000#4 ++ 0b0000#4 ++ 0b0000#4 ++ 0#8) = .ok (.iszero 8)
    ∧ decode (0b00010101#8 ++ 0b0000#4 ++ 0b0100#4 ++ 0b0000#4 ++ 0b0000#4 ++ 0#8) = .ok (.isone 4)
    ∧ decode (0b00010110#8 ++ 0b0000#4 ++ 0b0010#4 ++ 0b0000#4 ++ 0b0000#4 ++ 0#8) = .ok (.bitlen 2)
    ∧ decode (0b00010111#8 ++ 0b0000#4 ++ 0b0001#4 ++ 0b0000#4 ++ 0b0000#4 ++ 0#8) = .ok (.getbit 1) := by
  decide +kernel

theorem test_decode_arith :
    decode (0b00100000#8 ++ 0b0111#4 ++ 0b1001#4 ++ 0b0000#4 ++ 0b0000#4 ++ 0#8) = .ok (.shl 7 9)
    ∧ decode (0b00100001#8 ++ 0b0010#4 ++ 0b0001#4 ++ 0b0000#4 ++ 0b0000#4 ++ 0#8) = .ok (.shr 2 1)
    ∧ decode (0b00100010#8 ++ 0b1010#4 ++ 0b1011#4 ++ 0b1100#4 ++ 0b0000#4 ++ 0#8) = .ok (.add 10 11 12)
    ∧ decode (0b00100011#8 ++ 0b0011#4 ++ 0b0001#4 ++ 0b0010#4 ++ 0b0000#4 ++ 0#8) = .ok (.sub 3 1 2)
    ∧ decode (0b00100100#8 ++ 0b0011#4 ++ 0b0001#4 ++ 0b0010#4 ++ 0b0000#4 ++ 0#8) = .ok (.mul 3 1 2)
    ∧ decode (0b00100101#8 ++ 0b0001#4 ++ 0b0001#4 ++ 0b0010#4 ++ 0b0011#4 ++ 0#8) = .ok (.divmod 1 1 2 3)
    ∧ decode (0b00100110#8 ++ 0b0011#4 ++ 0b0001#4 ++ 0b0010#4 ++ 0b0000#4 ++ 0#8) = .ok (.mod 3 1 2)
    ∧ decode (0b00100111#8 ++ 0b0001#4 ++ 0b1110#4 ++ 0b0000#4 ++ 0b0000#4 ++ 0#8) = .ok (.muladdw 1 14)
    ∧ decode (0b00101000#8 ++ 0b0010#4 ++ 0b0001#4 ++ 0b0000#4 ++ 0b0000#4 ++ 0#8) = .ok (.addw 2 1) := by
  decide +kernel

theorem test_decode_montgomery :
    decode (0b01000000#8 ++ 0b0000#4 ++ 0b0001#4 ++ 0b0000#4 ++ 0b0000#4 ++ 0#8) = .ok (.mbuild 1)
    ∧ decode (0b01000001#8 ++ 0b0000#4 ++ 0b0000#4 ++ 0b0000#4 ++ 0b0000#4 ++ 0#8) = .ok .mdestroy
    ∧ decode (0b01000010#8 ++ 0b0010#4 ++ 0b0001#4 ++ 0b0000#4 ++ 0b0000#4 ++ 0#8) = .ok (.redc 2 1)
    ∧ decode (0b01000011#8 ++ 0b0010#4 ++ 0b0001#4 ++ 0b0000#4 ++ 0b0000#4 ++ 0#8) = .ok (.mtoform 2 1)
    ∧ decode (0b01000100#8 ++ 0b0010#4 ++ 0b0001#4 ++ 0b0000#4 ++ 0b0000#4 ++ 0#8) = .ok (.mfromform 2 1)
    ∧ decode (0b01000101#8 ++ 0b0011#4 ++ 0b0001#4 ++ 0b0010#4 ++ 0b0000#4 ++ 0#8) = .ok (.mmul 3 1 2)
    ∧ decode (0b01000110#8 ++ 0b0011#4 ++ 0b0001#4 ++ 0b0010#4 ++ 0b0000#4 ++ 0#8) = .ok (.mexp 3 1 2)
    ∧ decode (0b01000111#8 ++ 0b0111#4 ++ 0b0000#4 ++ 0b0000#4 ++ 0b0000#4 ++ 0#8) = .ok (.mgetn 7)
    ∧ decode (0b01001000#8 ++ 0b0111#4 ++ 0b0000#4 ++ 0b0000#4 ++ 0b0000#4 ++ 0#8) = .ok (.mgetrr 7) := by
  decide +kernel

theorem test_decode_exponent :
    decode (0b00110000#8 ++ 0b0101#4 ++ 0b0110#4 ++ 0b0111#4 ++ 0b1000#4 ++ 0#8) = .ok (.smodexp 5 6 7 8)
    ∧ decode (0b01010000#8 ++ 0b1001#4 ++ 0b1000#4 ++ 0b0111#4 ++ 0b0000#4 ++ 0#8) = .ok (.invmod 9 8 7)
    ∧ decode (0b01100000#8 ++ 0b1011#4 ++ 0b1010#4 ++ 0b1000#4 ++ 0b0011#4 ++ 0#8) = .ok (.modexp 11 10 8 3) := by
  decide +kernel

/-- V-E2, V-E3, V-E5, V-E7, V-E9, V-E10, V-E12. -/
theorem test_illegal_words :
    decode 0x22312001#32 = .error .reservedFieldNonzero ∧ decode 0x22312100#32 = .error .reservedFieldNonzero
    ∧ decode 0x10510000#32 = .error .reservedFieldNonzero ∧ decode 0x25412400#32 = .error .divmodOneDestination
    ∧ decode 0x41100000#32 = .error .reservedFieldNonzero ∧ decode 0x00000000#32 = .error .unassignedOpcode
    ∧ decode 0xFFFFFFFF#32 = .error .unassignedOpcode ∧ decode 0x29000000#32 = .error .unassignedOpcode
    ∧ decode 0x18000000#32 = .error .unassignedOpcode ∧ decode 0x61000000#32 = .error .unassignedOpcode
    ∧ decode 0x13ACA000#32 = .error .reservedFieldNonzero := by
  decide +kernel

/-! ## Queries and moves -/

/-- V-B1 -/
theorem test_zero : runs 0x10500000 (small [(5, 12345)]) (fun t => t.reg 5 == 0 && t.used 5 == 0) = true := by
  decide +kernel

/-- V-B3 -/
theorem test_fromu32_top : runs 0x11100000 (small [] 0xFFFFFFFF#32)
    (fun t => t.limb 1 0 == 0xFFFFFFFF#32 && t.used 1 == 1) = true := by decide +kernel

/-- V-B4 -/
theorem test_copy_three_limbs : runs 0x12210000 (small [(1, ofLimbs [1, 2, 3])])
    (fun t => t.reg 2 == ofLimbs [1, 2, 3] && t.used 2 == 3) = true := by decide +kernel

/-- V-B6 -/
theorem test_cmp_less : runs 0x13021000 (small [(1, ofLimbs [0, 1]), (2, 0xFFFFFFFF)])
    (fun t => t.res0 == 0xFFFFFFFF#32) = true := by decide +kernel

/-- V-B8 -/
theorem test_cmp_low_limb : runs 0x13012000 (small [(1, ofLimbs [5, 7]), (2, ofLimbs [6, 7])])
    (fun t => t.res0 == 0xFFFFFFFF#32) = true := by decide +kernel

/-- V-B9 -/
theorem test_iszero : runs 0x14000000 State.reset (fun t => t.res0 == 1#32) = true := by decide +kernel

/-- V-B10 -/
theorem test_isone_second_limb : runs 0x15010000 (small [(1, ofLimbs [1, 1])]) (fun t => t.res0 == 0#32) = true := by
  decide +kernel

/-- V-B11 -/
theorem test_bitlen_top : runs 0x16010000 (small [(1, 2 ^ 16383)]) (fun t => t.res0 == 16384#32) = true := by
  decide +kernel

/-- V-B12 -/
theorem test_getbit_63_64 :
    runs 0x17010000 (small [(1, ofLimbs [0, 0x80000000])] 63#32) (fun t => t.res0 == 1#32) = true
    ∧ runs 0x17010000 (small [(1, ofLimbs [0, 0x80000000])] 0xFFFFFFFF#32) (fun t => t.res0 == 0#32) = true := by
  decide +kernel

/-! ## Arithmetic -/

/-- V-A1 -/
theorem test_shl_across_limbs : runs 0x20210000 (small [(1, 0x80000001)] 31#32)
    (fun t => t.reg 2 == ofLimbs [0x80000000, 0x40000000]) = true := by decide +kernel

/-- V-A3 -/
theorem test_shl_overflow : runs 0x20210000 (small [(1, 1), (2, 9)] 16384#32)
    (fun t => t.statusWord == 0x00000302#32 && t.reg 2 == 9) = true := by decide +kernel

/-- V-A5 -/
theorem test_shr : runs 0x21210000 (small [(1, ofLimbs [0x80000000, 0x40000000])] 31#32)
    (fun t => t.reg 2 == 0x80000001) = true := by decide +kernel

/-- V-A6 -/
theorem test_add_carry : runs 0x22312000 (small [(1, 0xFFFFFFFF), (2, 1)])
    (fun t => t.reg 3 == ofLimbs [0, 1] && t.statusWord == 0x00000002#32) = true := by decide +kernel

/-- V-A7 -/
theorem test_add_overflow : runs 0x22211000 (small [(1, 2 ^ 16383)])
    (fun t => t.statusWord == 0x00000302#32 && t.reg 2 == 0) = true := by decide +kernel

/-- V-A9 -/
theorem test_sub_borrow : runs 0x23312000 (small [(1, ofLimbs [0, 1]), (2, 1)])
    (fun t => t.reg 3 == 0xFFFFFFFF && t.used 3 == 1) = true := by decide +kernel

/-- V-A8 -/
theorem test_sub_underflow : runs 0x23312000 (small [(1, 5), (2, 7), (3, 99)])
    (fun t => t.statusWord == 0x00000402#32 && t.reg 3 == 99) = true := by decide +kernel

/-- V-A13 -/
theorem test_mul : runs 0x24312000 (small [(1, 0xFFFFFFFF), (2, 0xFFFFFFFF)])
    (fun t => t.reg 3 == ofLimbs [0x00000001, 0xFFFFFFFE]) = true := by decide +kernel

/-- V-A11 -/
theorem test_mul_limb_count_overflow : runs 0x24312000 (small [(1, 2 ^ 8160), (2, 2 ^ 8192)])
    (fun t => t.statusWord == 0x00000302#32 && t.reg 3 == 0) = true := by decide +kernel

/-- V-A16 -/
theorem test_divmod : runs 0x25412500
    (small [(1, ofLimbs [0x76543215, 0xFEDCBA98, 0x89ABCDEF, 0x01234567]), (2, ofLimbs [1, 1])])
    (fun t => t.reg 4 == ofLimbs [0x76543210, 0x88888888, 0x01234567] && t.reg 5 == 5) = true := by decide +kernel

/-- V-A18 -/
theorem test_divmod_in_place : runs 0x25112200 (small [(1, 5), (2, 7)])
    (fun t => t.reg 1 == 0 && t.reg 2 == 5) = true := by decide +kernel

/-- V-A19 -/
theorem test_mod : runs 0x26312000 (small [(1, 1000), (2, 7)]) (fun t => t.reg 3 == 6) = true := by decide +kernel

/-- V-A20 -/
theorem test_muladdw : runs 0x27210000 (small [(1, 0xFFFFFFFF)] 0xFFFFFFFF#32 0xFFFFFFFF#32)
    (fun t => t.reg 2 == ofLimbs [0, 0xFFFFFFFF]) = true := by decide +kernel

/-- V-A22 -/
theorem test_addw_carry : runs 0x28210000 (small [(1, ofLimbs [0xFFFFFFFF, 0xFFFFFFFF])] 1#32)
    (fun t => t.reg 2 == ofLimbs [0, 0, 1]) = true := by decide +kernel

/-- V-A23 -/
theorem test_addw_overflow : runs 0x28310000 (small [(1, allOnes)] 1#32)
    (fun t => t.statusWord == 0x00000302#32 && t.reg 3 == 0) = true := by decide +kernel

/-! ## Schoolbook exponentiation -/

/-- V-S10 -/
theorem test_smodexp_binary : runs 0x30412300 (small [(1, 65), (2, 17), (3, 3233)]) (fun t => t.reg 4 == 2790) = true := by
  decide +kernel

/-- V-S15: the window algorithm, with a leading window two bits wide. -/
theorem test_smodexp_window : runs 0x30412300 (small [(1, 3), (2, 3 * 2 ^ 640), (3, 143)])
    (fun t => t.reg 4 == 27) = true := by decide +kernel

/-! ## Montgomery unit -/

/-- V-M1 -/
theorem test_mbuild_35 : runs 0x40010000 (small [(1, 35)])
    (fun t => decide (t.ctx = ctx35) && t.ctxstatWord == 0x00010001#32) = true := by decide +kernel

/-- V-M5 -/
theorem test_mbuild_too_large : runs 0x40010000 (small [(1, 2 ^ 8192 - 1)])
    (fun t => t.statusWord == 0x00000302#32 && decide (t.ctx = Ctx.reset)) = true := by decide +kernel

/-- V-M24 -/
theorem test_mdestroy : runs 0x41000000 (active ctx35 [])
    (fun t => t.ctxstatWord == 0x00000002#32 && t.ctx.nPrime == 0#32) = true := by decide +kernel

/-- V-M11, with the buffer after the one step. -/
theorem test_redc_484 : redcBuffer ctx35 484 1 = [0, 9, 0]
    ∧ runs 0x42210000 (active ctx35 [(1, 484)]) (fun t => t.reg 2 == 9) = true := by decide +kernel

/-- The largest legal input of the context of V-M9: the carry reaches the guard limb, and `n` is subtracted. -/
theorem test_redc_guard_limb : runs 0x42210000
    (active { state := .active, n := 2 ^ 64 - 59, k := 2, nPrime := 0xA08AD8F3#32, rSquared := 0xD99 }
      [(1, ofLimbs [0xFFFFFFFF, 0xFFFFFFFF, 0xFFFFFFC4, 0xFFFFFFFF])])
    (fun t => t.reg 2 == ofLimbs [0x5F752701, 0x34115B1E]) = true := by decide +kernel

/-- V-M15, `37 ≥ n` reduced first. -/
theorem test_mtoform_reduces_first : runs 0x43210000 (active ctx35 [(1, 37)]) (fun t => t.reg 2 == 22) = true := by
  decide +kernel

/-- V-M16, `57 mod 35 = 22`. -/
theorem test_mfromform_reduces_first : runs 0x44210000 (active ctx35 [(1, 57)]) (fun t => t.reg 2 == 2) = true := by
  decide +kernel

/-- V-M17 -/
theorem test_mmul_forms : runs 0x45312000 (active ctx35 [(1, 22), (2, 22)]) (fun t => t.reg 3 == 9) = true := by
  decide +kernel

/-- V-M19 -/
theorem test_mmul_domain : runs 0x45312000 (active ctx35 [(1, 35), (2, 1)])
    (fun t => t.statusWord == 0x00000A02#32 && t.reg 3 == 0) = true := by decide +kernel

/-- V-M20 -/
theorem test_mexp : runs 0x46312000 (active ctx35 [(1, 2), (2, 5)]) (fun t => t.reg 3 == 32) = true := by
  decide +kernel

/-- V-M21 -/
theorem test_mexp_zero_zero : runs 0x46312000 (active ctx35 []) (fun t => t.reg 3 == 1) = true := by decide +kernel

/-- V-M23 -/
theorem test_mgetn : runs 0x47700000 (active ctx35 []) (fun t => t.reg 7 == 35) = true := by decide +kernel

/-- V-M23 -/
theorem test_mgetrr : runs 0x48800000 (active ctx35 []) (fun t => t.reg 8 == 16) = true := by decide +kernel

/-! ## Inverse and selector -/

/-- V-I4: the coefficient ends negative. -/
theorem test_invmod : runs 0x50312000 (small [(1, 17), (2, 3120)]) (fun t => t.reg 3 == 2753) = true := by
  decide +kernel

/-- V-I9 -/
theorem test_invmod_none : runs 0x50312000 (small [(1, 5), (2, 35)])
    (fun t => t.statusWord == 0x00000702#32 && t.reg 3 == 0) = true := by decide +kernel

/-- V-X3, the Montgomery engine; V-X6, the final reduction; V-X5, one bit below the threshold. -/
theorem test_modexp :
    runs 0x60412300 (active ctxBig [(1, 2), (2, 512), (3, 2 ^ 511 + 1)])
      (fun t => t.reg 4 == 2 ^ 511 - 1 && t.statusWord == 0x00020002#32) = true
    ∧ runs 0x60412300 (small [(1, 5), (3, 1)])
      (fun t => t.reg 4 == 0 && t.statusWord == 0x00010002#32) = true
    ∧ runs 0x60412300 (active ctxShort [(1, 2), (2, 512), (3, 2 ^ 511 - 1)])
      (fun t => t.reg 4 == 2 && t.statusWord == 0x00010002#32) = true := by decide +kernel

/-! ## Status: the illegal word, the fallback and the fatal stop -/

/-- 30_encoding.md section 3.2 of the vectors: the status of an illegal word. -/
theorem test_illegal_word_status : runs 0x00000000 (small [(3, 99)])
    (fun t => t.statusWord == 0x00000C02#32 && t.reg 3 == 99) = true := by decide +kernel

/-- A context no build makes: its `r_squared` is too wide, so that the Montgomery engine overflows. -/
def brokenCtx (n k : Nat) : Ctx := { state := .active, n := n, k := k, nPrime := 0#32, rSquared := 2 ^ 16352 }

/-- V-T6: the status of a success after a fallback. -/
theorem test_fallback_status : runs 0x60412300 (active (brokenCtx (2 ^ 511 + 1) 16) [(1, 2), (2, 512), (3, 2 ^ 511 + 1)])
    (fun t => t.reg 4 == 2 ^ 511 - 1 && t.statusWord == 0x00050002#32) = true := by decide +kernel

/-- V-T5: the status of the fatal stop, from a context no build makes. -/
theorem test_fatal_status : runs 0x43210000 (active { ctx35 with rSquared := 2 ^ 64 } [(1, 1), (2, 7)])
    (fun t => t.statusWord == 0x00000B06#32 && t.reg 2 == 7) = true := by decide +kernel

/-! ## The host port -/

/-- V-P13 -/
theorem test_limb_addresses :
    limbAddr 512 1 0 = 0x10800 ∧ limbAddr 512 3 15 = 0x1183C ∧ limbAddr 512 15 511 = 0x17FFC := by decide

/-- V-P4: one write to limb 3 of B0. -/
theorem test_limb_write_used : stepsTo (withTurns State.reset [.host (.write 0x1000C 5#32)])
    (fun t => t.used 0 == 4 && t.reg 0 == 5 * 2 ^ 96) = true := by decide +kernel

/-- V-P5: clearing the top limb renormalises. -/
theorem test_limb_write_renormalises : stepsTo (withTurns (small [(0, 5 * 2 ^ 96)]) [.host (.write 0x1000C 0#32)])
    (fun t => t.used 0 == 0) = true := by decide +kernel

/-- V-P7, V-P8, V-P9: a misaligned write and a write to STATUS are dropped; a misaligned read gives 0. -/
theorem test_port_dropped :
    stepsTo (withTurns (small [(0, 7)]) [.host (.write 0x10002 9#32)]) (fun t => t.reg 0 == 7) = true
    ∧ stepsTo (withTurns State.reset [.host (.write 0x004 0xFFFFFFFF#32)]) (fun t => t.statusWord == 0#32) = true
    ∧ stepsTo (withTurns (small [(0, 7)]) [.host (.read 0x10002)]) (fun t => t.replies == [0#32]) = true := by
  decide +kernel

/-- V-T2: STATUS between accept and completion keeps the last kind. -/
theorem test_accept_keeps_status : stepsTo (withTurns (State.reset.failWith .overflow) [.host (.write 0x000 0x22312000#32)])
    (fun t => t.statusWord == 0x00000301#32) = true := by decide +kernel

/-- 20_memory.md R59: a limb read while BUSY is the free value, drawn afresh. -/
theorem test_busy_read_is_free :
    step (withTurns (State.reset.accept 0#32) [.host (.read 0x10000)])
      = .next { State.reset.accept 0#32 with replies := [Config.busyRead 0], draws := 1 } := rfl

/-- 93_implementation_defined.md U27: the port has no such offset. -/
theorem test_no_such_offset :
    step (withTurns State.reset [.host (.read 0x18000)]) = .fault (.noSuchOffset 0x18000) := rfl

/-! ## Host software -/

/-- 42_codec.md R141, R142, R143: canonical output, case-insensitive hex input, the first byte most significant. -/
theorem test_codec :
    readDecimal 512 ['3', '2', '3', '3'] = .ok 3233 ∧ writeDecimal 0 = ['0']
    ∧ readHex 512 ['C', 'a', '1'] = .ok 3233 ∧ readHex 512 ['0', 'x', '1'] = .error .badFormat
    ∧ readBytes 512 [0x0C, 0xA1] = .ok 3233 ∧ readDecimal 512 [] = .ok 0 := by decide +kernel

/-- 42_codec.md R146: leading zeros stripped, hex lower-cased, "0" kept. -/
theorem test_canonical :
    canonicalDecimal ['0', '0', '7', '0'] = ['7', '0'] ∧ canonicalHex ['0', 'C', 'a'] = ['c', 'a']
    ∧ canonicalDecimal ['0', '0'] = ['0'] ∧ canonicalBytes [0, 0, 5, 0] = [5, 0] := by decide +kernel

/-- 30_encoding.md R80: the examples as text. -/
theorem test_line_text :
    AsmLine.text { instr := .add 3 1 2 } = "ADD B3, B1, B2"
    ∧ AsmLine.text { instr := .shl 2 1, arg0 := 5#32 } = "SHL B2, B1, #5"
    ∧ AsmLine.text { instr := .divmod 4 1 2 5 } = "DIVMOD B4, B5, B1, B2"
    ∧ AsmLine.text { instr := .mdestroy } = "MDESTROY" := by decide +kernel

/-- 30_encoding.md R80: a line begun while BUSY waits first; nothing of it is dropped. -/
theorem test_line_begun_while_busy :
    ends (AsmLine.program { instr := .addw 4 3, arg0 := 30#32 }) (busyWith (small [(1, 5), (2, 7)]) 0x22312000#32)
      (fun t r => t.reg 3 == 12 && t.reg 4 == 42 && answers 0x00000002#32 r) = true := by decide +kernel

/-- Program P5: "3233" read on the block, and written back. -/
theorem test_codec_on_the_block :
    ends (readDecimalProgram 1 ['3', '2', '3', '3']) State.reset (fun t r => t.reg 1 == 3233 && answers () r) = true
    ∧ ends (writeDigitsProgram 512 10#32 1 3 2) (small [(1, 3233)])
      (fun t r => t.reg 1 == 0 && t.reg 2 == 10 && t.reg 3 == 3 && t.res0 == 1#32
        && answers ['3', '2', '3', '3'] r) = true
    ∧ ends (readDecimalProgram 1 ['3', 'x']) State.reset (fun t r => t.reg 1 == 3 && failsWith .badFormat none r) = true := by
  decide +kernel

/-- The same for bytes, through the limb window (42_codec.md R143). -/
theorem test_bytes_on_the_block :
    ends ((readBytesProgram 512 1 [0x0C, 0xA1]).andThen fun _ => writeBytesProgram 512 1 2) State.reset
      (fun t r => t.reg 1 == 3233 && answers [0x0C#8, 0xA1#8] r) = true
    ∧ ends (readBytesProgram 512 1 (1#8 :: List.replicate 2048 0#8)) (small [(1, 9)])
      (fun t r => t.reg 1 == 9 && failsWith .overflow none r) = true := by decide +kernel

/-- 3233 has two bytes; a buffer of one byte is told so (42_codec.md R143). -/
theorem test_codec_needed_length :
    ends (writeBytesProgram 512 1 1) (small [(1, 3233)])
      (fun t r => t.reg 1 == 3233 && failsWith .bufferTooSmall (some 2) r) = true := by decide +kernel

/-- 47_rsaop_collaborator.md R221, R222; scenarios S2 and S5. -/
theorem test_rsa_values :
    rsaApply 512 ⟨35, 5, false, some ctx35⟩ 3 = .ok 33 ∧ rsaApply 512 ⟨35, 5, false, none⟩ 35 = .error .domainError
    ∧ rsaApply 512 ⟨35, 5, false, none⟩ 0 = .ok 0 := by decide +kernel

/-- 47_rsaop_collaborator.md R221: `DomainError` comes from the word read in RES0, and then no MODEXP is issued. -/
theorem test_rsa_program :
    ends rsaProgram (small [(1, 3), (2, 5), (3, 35)]) (fun t r => t.reg 4 == 33 && answers () r) = true
    ∧ ends rsaProgram (small [(1, 35), (2, 5), (3, 35)])
      (fun t r => t.reg 4 == 0 && t.res0 == 0#32 && failsWith .domainError none r) = true
    ∧ ends (rsaShortProgram 512) (small [(2, 5), (3, 35)]) (fun t r => t.reg 4 == 0 && answers [] r) = true := by
  decide +kernel

/-- 47_rsaop_collaborator.md R220: the invariants, and one slot for all keys. -/
theorem test_rsa_key :
    rsaKey (active ctx35 []) 35 5 false = some ⟨35, 5, false, some ctx35⟩
    ∧ rsaKey (active ctx35 []) 143 7 false = some ⟨143, 7, false, none⟩
    ∧ rsaKey State.reset 0 5 false = none ∧ rsaKey State.reset 35 0 true = none := by decide +kernel

/-- 47_rsaop_collaborator.md R220, 10_state.md R21: a key's `n` and `exp` are below `2^(32·CAP)`. -/
theorem test_rsa_key_bound :
    (rsaKey State.reset allOnes allOnes false).isSome = true ∧ rsaKey State.reset (2 ^ 16384 + 35) 5 false = none
    ∧ rsaKey State.reset 35 (2 ^ 16384) false = none
    ∧ ends (loadKeyProgram 512 (2 ^ 16384 + 35) 5) (small [(3, 9)])
      (fun t r => t.reg 3 == 9 && decide (t.ctx.state = .uninitialized) && failsWith .overflow none r) = true := by
  decide +kernel

/-- 70_reset_and_hazards.md R264: a key change rebuilds the slot; an even modulus leaves the key without a context. -/
theorem test_key_change :
    ends (loadKeyProgram 512 143 7) (active ctx35 [])
      (fun t r => t.ctx.n == 143 && t.reg 2 == 7 && t.reg 3 == 143 && answers true r) = true
    ∧ ends (loadKeyProgram 512 34 7) (active ctx35 [])
      (fun t r => decide (t.ctx.state = .destroyed) && answers false r) = true := by decide +kernel

/-- 70_reset_and_hazards.md R264, R266: a key discarded while `ZERO B5` still runs; the program waits for it. -/
theorem test_key_discarded_while_busy :
    ends discardKeyProgram (busyWith (active ctx35 [(2, 5), (3, 35), (5, 9)]) 0x10500000#32)
      (fun t r => decide (t.ctx.state = .destroyed) && t.reg 2 == 0 && t.reg 3 == 0 && t.reg 5 == 0 && answers () r)
      = true := by decide +kernel

/-! ## Witnesses: for each statement with hypotheses, a concrete state and operands that meet them

Where a statement has several clauses, each has its own, at a boundary of its range. -/

/-- A state of the invariant: the largest value in a register, an Active context, BUSY with `MMUL B3, B1, B2`. -/
def sInv : State := busyWith (active ctx35 [(1, 22), (2, 34), (5, allOnes)]) 0x45312000#32

theorem sInv_inv : sInv.Inv := by decide +kernel

/-! ### Encoding and the step -/

theorem witness_DecodeOfEncode :
    (Instr.divmod 4 1 2 5).wellFormed = true ∧ (Instr.modexp 15 15 15 15).wellFormed = true := by decide

theorem witness_EncodeOfDecode : decode 0x60FFFF00#32 = .ok (.modexp 15 15 15 15) := by decide +kernel

theorem witness_WordSelectsAtMostOneRow :
    (∃ row ∈ opcodeTable, row.accepts 0x24312000#32 = true)
    ∧ (∃ row ∈ opcodeTable, row.accepts 0x25412500#32 = true ∧ row.op = 0x25#8) := by decide +kernel

theorem witness_StepRunsLatchedCommand :
    (sInv.fsm = .busy ∧ sInv.controllerNext ∧ decode sInv.cmd = .ok (.mmul 3 1 2))
    ∧ (withTurns sInv [.controller, .host .reset]).controllerNext :=
  ⟨⟨rfl, .inl rfl, by decide +kernel⟩, .inr ⟨[.host .reset], rfl⟩⟩

theorem witness_FetchWordRunsItsCommand : (Instr.mexp 3 1 2).wellFormed = true := rfl

/-- BUSY with a word that is no command. -/
def sIllegal : State := busyWith (small [(3, 99)]) 0x25412400#32

theorem witness_IllegalWordChangesOnlyStatus :
    sIllegal.fsm = .busy ∧ sIllegal.controllerNext ∧ decode sIllegal.cmd = .error .divmodOneDestination :=
  ⟨rfl, .inl rfl, by decide +kernel⟩

/-- BUSY, while the host polls at the last offsets of the port. -/
def sPolled : State := busyWith (small [(1, 5)]) 0x22312000#32 [.host (.read 0x17FFF), .host (.write 0x17FFC 1#32)]

theorem witness_EveryAcceptedCommandCompletes :
    sPolled.fsm = .busy ∧ (∀ addr, Turn.host (.read addr) ∈ sPolled.turns → addr < portSize sPolled.cap)
    ∧ (∀ addr v, Turn.host (.write addr v) ∈ sPolled.turns → addr < portSize sPolled.cap)
    ∧ Turn.host .reset ∉ sPolled.turns := by
  refine ⟨rfl, fun addr h => ?_, fun addr v h => ?_, by decide⟩
  · simp [sPolled, busyWith] at h; subst h; decide
  · simp [sPolled, busyWith] at h; obtain ⟨rfl, -⟩ := h; decide

/-! ### Invariant and whole-machine rules -/

theorem witness_ResetReadsZero : (Loc.limb 15 511) ≠ .config := by decide

theorem witness_StepKeepsInvariant : sInv.Inv ∧ stepsTo sInv (fun t => t.reg 3 == 33) = true :=
  ⟨sInv_inv, by decide +kernel⟩

theorem witness_FatalIsNeverEntered :
    sInv.Inv ∧ sInv.fsm ≠ .fatal ∧ sInv.errKind ≠ some .internalInvariantBroken ∧ stepsTo sInv (fun _ => true) = true :=
  ⟨sInv_inv, by decide, by decide, by decide +kernel⟩

theorem witness_ResetInputClearsEverything :
    (fatal [.host .reset, .controller]).turns = .host .reset :: [.controller]
    ∧ (busyWith sInv 0x10100000#32 [.host .reset]).turns = .host .reset :: [] := ⟨rfl, rfl⟩

theorem witness_RegistersAreNormalised : sInv.RegsFit ∧ 0 < sInv.used 5 ∧ sInv.used 5 ≤ 512 ∧ sInv.reg 0 = 0 := by
  decide +kernel

/-- By a command, by a limb write, by reset. -/
theorem witness_RegisterChangesOnlyAsDestination :
    stepsTo sInv (fun t => t.reg 3 != sInv.reg 3) = true
    ∧ stepsTo (withTurns State.reset [.host (.write 0x17FFC 1#32)]) (fun t => t.reg 15 != 0) = true
    ∧ stepsTo (withTurns (small [(5, 1)]) [.host .reset]) (fun t => t.reg 5 != 1) = true := by decide +kernel

/-- By MBUILD, by MDESTROY, by reset. -/
theorem witness_ContextChangesOnlyByBuildAndDestroy :
    stepsTo (busyWith (small [(1, 35)]) 0x40010000#32) (fun t => t.ctx != Ctx.reset) = true
    ∧ stepsTo (busyWith (active ctx35 []) 0x41000000#32) (fun t => t.ctx != ctx35) = true
    ∧ stepsTo (withTurns (active ctx35 []) [.host .reset]) (fun t => t.ctx != ctx35) = true := by decide +kernel

/-- By a scalar command, by reset. -/
theorem witness_Res0ChangesOnlyByScalarCommands :
    stepsTo (busyWith State.reset 0x14000000#32) (fun t => t.res0 != 0#32) = true
    ∧ stepsTo { State.reset with res0 := 5#32, turns := [.host .reset] } (fun t => t.res0 != 5#32) = true := by
  decide +kernel

/-- An ordinary failure, a failure after a fallback, a fatal one; the last two from contexts no build makes. -/
theorem witness_FailureChangesOnlyStatus :
    execs (.sub 3 1 2) (small [(2, 1)]) (fun t => t.errKind == some .underflow) = true
    ∧ execs (.modexp 4 1 2 3) (active (brokenCtx (2 ^ 8192 + 1) 257) [(1, 2 ^ 8192), (2, 2), (3, 2 ^ 8192 + 1)])
        (fun t => t.errKind == some .overflow && t.fallback) = true
    ∧ execs (.mtoform 2 1) (active { ctx35 with rSquared := 2 ^ 64 } [(1, 1)])
        (fun t => t.errKind == some .internalInvariantBroken) = true := by decide +kernel

theorem witness_PortFrameOfEveryCommand :
    (∃ t, exec (.divmod 4 1 2 5) (small [(1, 1000), (2, 7)]) = .next t)
    ∧ Loc.writtenBy (.divmod 4 1 2 5) (.limb 3 0) = false ∧ Loc.writtenBy (.divmod 4 1 2 5) .res0 = false :=
  ⟨exec_answers _ _, by decide, by decide⟩

/-! ### The host port -/

/-- The clauses of the map at their boundaries: the last limb, the last `USED`, and the first and last offsets of each
hole. -/
theorem witness_AddressMap :
    511 < 512 ∧ locate 512 0x17FFC = some (.limb 15 511) ∧ locate 512 0x7C = some (.used 15)
    ∧ locate 512 0x1C = some .config ∧ locate 512 0x20 = some .unmapped ∧ locate 512 0x3C = some .unmapped
    ∧ locate 512 0x80 = some .unmapped ∧ locate 512 0xFFFC = some .unmapped ∧ locate 512 0x17FFF = some .unmapped
    ∧ locate 512 0x18000 = none := by decide

theorem witness_LimbWriteRenormalises :
    (withTurns (small [(5, allOnes)]) [.host (.write (limbAddr 512 5 511) 0#32)]).fsm = .idle
    ∧ (withTurns (small [(5, allOnes)]) [.host (.write (limbAddr 512 5 511) 0#32)]).RegsFit ∧ 511 < 512 := by
  decide +kernel

/-- While BUSY at STATUS and CONFIG; while FATAL at each kind of location, the last `USED` and the last limb among them. -/
theorem witness_ReadsHaveNoSideEffect :
    (∀ addr ∈ [0x004, 0x01C],
      (withTurns sInv [.host (.read addr)]).turns = .host (.read addr) :: [] ∧ addr < portSize sInv.cap)
    ∧ (∀ addr ∈ [0x008, 0x00C, 0x010, 0x014, 0x018, 0x040 + 4 * 15, 0x10000 + 15 * (4 * 512) + 4 * 511],
      (fatal [.host (.read addr)]).turns = .host (.read addr) :: [] ∧ addr < portSize (fatal []).cap)
    ∧ (fatal []).fsm ≠ .busy ∧ 511 < (fatal []).cap := by decide

/-- While BUSY and while FATAL. -/
theorem witness_WritesDroppedUnlessIdle :
    (withTurns sInv [.host (.write 0x008 1#32)]).fsm ≠ .idle ∧ (fatal [.host (.write 0x000 1#32)]).fsm ≠ .idle
    ∧ (fatal [.host (.write 0x000 1#32)]).turns = .host (.write 0x000 1#32) :: []
    ∧ 0x000 < portSize (fatal []).cap := by decide

/-- A write to each of CMD, ARG0 and ARG1. -/
theorem witness_AcceptLatchesTheWord :
    State.reset.fsm = .idle
    ∧ ∀ addr ∈ [0x000, 0x008, 0x00C],
      (withTurns State.reset [.host (.write addr 0x22312000#32)]).fsm = .idle
      ∧ (withTurns State.reset [.host (.write addr 0x22312000#32)]).turns = .host (.write addr 0x22312000#32) :: [] := by
  decide

/-- A misaligned offset, the edges of both holes and CMD for reads; STATUS, RES0, CONFIG and the USED words for writes. -/
theorem witness_UnmappedAndReadOnlyAccesses :
    (∀ addr ∈ [0x10002, 0x20, 0x3F, 0x80, 0xFFFF, 0x000],
      (withTurns (small [(0, 7)]) [.host (.read addr)]).fsm ≠ .busy ∧ addr < portSize 512
      ∧ (addr % 4 ≠ 0 ∨ (0x20 ≤ addr ∧ addr < 0x40) ∨ (0x80 ≤ addr ∧ addr < 0x10000) ∨ addr = 0x000)
      ∧ (withTurns (small [(0, 7)]) [.host (.read addr)]).turns = .host (.read addr) :: [])
    ∧ (∀ addr ∈ [0x17FFD, 0x20, 0xFFFC, 0x004, 0x010, 0x1C, 0x40, 0x7C],
      addr < portSize 512
      ∧ (addr % 4 ≠ 0 ∨ (0x20 ≤ addr ∧ addr < 0x40) ∨ (0x80 ≤ addr ∧ addr < 0x10000) ∨ addr = 0x004
        ∨ (0x010 ≤ addr ∧ addr < 0x20) ∨ (0x40 ≤ addr ∧ addr < 0x80))
      ∧ (withTurns (fatal []) [.host (.write addr 1#32)]).turns = .host (.write addr 1#32) :: []) := by
  decide

theorem witness_StoppedBlockChangesNothing :
    (State.reset.fsm ≠ .busy ∧ State.reset.controllerNext)
    ∧ ((fatal [.host (.write 0x000 1#32)]).fsm = .fatal
      ∧ stepsTo (fatal [.host (.write 0x000 1#32)]) (fun _ => true) = true
      ∧ ∀ rest, (fatal [.host (.write 0x000 1#32)]).turns ≠ .host .reset :: rest) :=
  ⟨⟨by decide, .inl rfl⟩, rfl, by decide +kernel, fun rest h => by simp [fatal, withTurns] at h⟩

theorem witness_StoreThenLoadReturnsValue :
    let s := withTurns (small [(4, 99)]) (storeTurns 512 3 allOnes ++ loadTurns 512 3 (len32 allOnes))
    s.fsm = .idle ∧ s.RegsFit ∧ allOnes < 2 ^ (32 * s.cap) := by decide +kernel

/-! ### Status words, queries, arithmetic -/

/-- The last kind and the last engine of the lists. -/
theorem witness_StatusWordFields :
    (State.reset.failWith .contextState).errKind = some .contextState
    ∧ (State.reset.succeed .montgomery).engine = .montgomery := ⟨rfl, rfl⟩

/-- A state of the invariant for each context state. -/
theorem witness_ContextConfigAndUsedWords :
    (sInv.Inv ∧ sInv.cap = 512 ∧ sInv.ctx.state = .active)
    ∧ ((small [(5, allOnes)]).Inv ∧ (small []).ctx.state = .uninitialized)
    ∧ ((active Ctx.torn []).Inv ∧ (active Ctx.torn []).ctx.state = .destroyed) :=
  ⟨⟨sInv_inv, rfl, rfl⟩, ⟨by decide +kernel, rfl⟩, by decide +kernel, rfl⟩

/-- Values at the edges of the range and of a limb. -/
def sEdge : State := small [(1, allOnes), (2, 1), (3, allOnes - 1), (4, 2 ^ 32 - 1), (6, 2 ^ 32)] 1#32

/-- Less, equal and (the operands exchanged) greater, by one. -/
theorem witness_CompareScansFromTheTop :
    sEdge.RegsFit ∧ sEdge.reg 4 < sEdge.reg 6 ∧ sEdge.reg 1 = sEdge.reg 1 ∧ sEdge.reg 3 < sEdge.reg 1 := by decide +kernel

theorem witness_BitLengthFromTopLimb : sInv.Inv ∧ sInv.reg 5 ≠ 0 ∧ sInv.used 5 = 512 ∧ sInv.reg 0 = 0 := by
  decide +kernel

/-- The largest shift of 1 that fits, and the first that does not. -/
theorem witness_ShiftLeftByLimbs :
    ((small [(1, 1)] 16384#32).reg 1 ≠ 0
      ∧ bitlen ((small [(1, 1)] 16384#32).reg 1) + (small [(1, 1)] 16384#32).arg0.toNat > 32 * 512)
    ∧ ¬ ((small [(1, 1)] 16383#32).reg 1 ≠ 0
      ∧ bitlen ((small [(1, 1)] 16383#32).reg 1) + (small [(1, 1)] 16383#32).arg0.toNat > 32 * 512) := by
  decide +kernel

theorem witness_ShiftRightIsFloorAndUndoes :
    execs (.shl 2 1) (small [(1, 1)] 16383#32) (fun t => t.errKind == none) = true := by decide +kernel

/-- The largest sum that fits, and the first that does not. -/
theorem witness_AddFollowsTheAdder :
    sEdge.RegsFit ∧ sEdge.reg 3 + sEdge.reg 2 < 2 ^ (32 * sEdge.cap)
    ∧ 2 ^ (32 * sEdge.cap) ≤ sEdge.reg 1 + sEdge.reg 2 := by decide +kernel

/-- Equal operands, operands one apart, and a sum to be undone. -/
theorem witness_SubFollowsTheSubtractor :
    sEdge.RegsFit ∧ sEdge.reg 1 ≤ sEdge.reg 1 ∧ sEdge.reg 3 < sEdge.reg 1
    ∧ execs (.add 5 3 2) sEdge (fun t => t.errKind == none) = true ∧ (5 : Reg) ≠ 2 := by decide +kernel

/-- Limb counts that add up to `CAP`, and to one more. -/
theorem witness_MulFollowsTheMultiplier :
    (small [(1, 2 ^ 8160)]).used 1 + (small [(1, 2 ^ 8160)]).used 1 ≤ 512
    ∧ 512 < (small [(1, 2 ^ 8160), (2, 2 ^ 8192)]).used 1 + (small [(1, 2 ^ 8160), (2, 2 ^ 8192)]).used 2 := by
  decide +kernel

/-- A divisor of one limb, the zero divisor, one destination. -/
theorem witness_DivisionByAnyDivider :
    ((4 : Reg) ≠ 5 ∧ (small [(1, 1000), (2, 7)]).reg 2 ≠ 0 ∧ (small [(1, 1000), (2, 7)]).used 2 = 1)
    ∧ ((4 : Reg) ≠ 5 ∧ (small [(1, 1000)]).reg 2 = 0) ∧ (4 : Reg) = 4 := by decide +kernel

theorem witness_ModReducesOnce :
    ((small [(1, 1000), (2, 7)]).reg 2 ≠ 0 ∧ (3 : Reg) ≠ 2
      ∧ ∃ t, exec (.mod 3 1 2) (small [(1, 1000), (2, 7)]) = .next t)
    ∧ (small [(1, 1000)]).reg 2 = 0 := ⟨⟨by decide +kernel, by decide, exec_answers _ _⟩, by decide +kernel⟩

/-- Both sides of the bound, for both commands. -/
theorem witness_WordCommandsFollowTheScan :
    sEdge.RegsFit ∧ sEdge.reg 3 * sEdge.arg0.toNat + sEdge.arg1.toNat < 2 ^ (32 * sEdge.cap)
    ∧ sEdge.reg 3 + sEdge.arg0.toNat < 2 ^ (32 * sEdge.cap) ∧ 2 ^ (32 * sEdge.cap) ≤ sEdge.reg 1 + sEdge.arg0.toNat
    ∧ (small [(1, 2 ^ 16383)] 2#32).RegsFit
    ∧ 2 ^ (32 * 512) ≤ (small [(1, 2 ^ 16383)] 2#32).reg 1 * (small [(1, 2 ^ 16383)] 2#32).arg0.toNat := by decide +kernel

/-! ### Exponentiation -/

/-- The smallest modulus of the statement, the widest for which no multiplication overflows, and the edges of the limb count
of the exponent. Each algorithm has an exponent for which all fits and one for which something does not (V-S18, V-S19). -/
theorem witness_SchoolbookPower :
    2 ≤ (small [(1, 3), (2, 5), (3, 2)]).reg 3
    ∧ (2 ≤ (small [(3, 2 ^ 8192 - 1)]).reg 3 ∧ 2 * (small [(3, 2 ^ 8192 - 1)]).used 3 ≤ 512)
    ∧ (small [(2, 2 ^ 640 - 1)]).used 2 ≤ 20 ∧ 20 < (small [(2, 2 ^ 640)]).used 2
    ∧ (BinaryFits 512 (2 ^ 8192) 1 (2 ^ 8192 + 1) ∧ ¬ BinaryFits 512 (2 ^ 8192) 2 (2 ^ 8192 + 1)) := by decide +kernel

theorem witness_SchoolbookPower_window :
    WindowFits 512 1 (2 ^ 640) 143 ∧ ¬ WindowFits 512 (2 ^ 8192) (2 ^ 640) (2 ^ 8192 + 1) := by
  refine ⟨⟨fun i _ _ => by rw [Nat.one_pow]; decide, fun j _ => ⟨fun t _ => by rw [Nat.one_pow]; decide, fun _ => ?_⟩⟩, ?_⟩
  · rw [Nat.one_pow, Nat.one_pow]; decide
  · exact fun h => absurd (h.1 2 (by decide) (by decide)) (by decide +kernel)

/-- A zero modulus, then `0^0`, `0^1`, a modulus of 1, and a multiple of the modulus (V-S8). -/
theorem witness_SchoolbookEdgeCasesInOrder :
    (small []).reg 3 = 0
    ∧ ((small [(3, 1)]).reg 3 ≠ 0 ∧ (small [(3, 1)]).reg 2 = 0)
    ∧ ((small [(2, 1), (3, 1)]).reg 3 ≠ 0 ∧ (small [(2, 1), (3, 1)]).reg 2 ≠ 0 ∧ (small [(2, 1), (3, 1)]).reg 1 = 0)
    ∧ ((small [(1, 7), (2, 3), (3, 1)]).reg 3 = 1 ∧ (small [(1, 7), (2, 3), (3, 1)]).reg 2 ≠ 0
      ∧ (small [(1, 7), (2, 3), (3, 1)]).reg 1 ≠ 0)
    ∧ ((small [(1, 70), (2, 3), (3, 35)]).config.Allowed ∧ 2 ≤ (small [(1, 70), (2, 3), (3, 35)]).reg 3
      ∧ (small [(1, 70), (2, 3), (3, 35)]).reg 2 ≠ 0 ∧ (small [(1, 70), (2, 3), (3, 35)]).reg 1 ≠ 0
      ∧ (small [(1, 70), (2, 3), (3, 35)]).reg 1 % (small [(1, 70), (2, 3), (3, 35)]).reg 3 = 0) := by decide +kernel

theorem witness_HenselLiftingFindsTheInverse :
    (0xFFFFFFFF#32).toNat % 2 = 1 ∧ 0xFFFFFFFF#32 * 1#32 = 0xFFFFFFFF#32 := by decide

/-- The widest modulus that builds (V-M4), from Uninitialized and from Destroyed. -/
theorem witness_BuildMakesTheContext :
    (small [(1, 2 ^ 8160 - 1)]).ctx.state ≠ .active ∧ (active Ctx.torn [(1, 2 ^ 8160 - 1)]).ctx.state ≠ .active
    ∧ (small [(1, 2 ^ 8160 - 1)]).reg 1 % 2 = 1 ∧ 2 * (small [(1, 2 ^ 8160 - 1)]).used 1 + 1 ≤ 512 := by decide +kernel

/-- Active; zero; even; one limb too many (V-M5, V-M6). -/
theorem witness_BuildFailuresInOrder :
    (active ctx35 []).ctx.state = .active
    ∧ ((small []).ctx.state ≠ .active ∧ (small []).reg 1 = 0)
    ∧ ((small [(1, 34)]).ctx.state ≠ .active ∧ (small [(1, 34)]).reg 1 ≠ 0 ∧ (small [(1, 34)]).reg 1 % 2 = 0)
    ∧ ((small [(1, 2 ^ 8192 - 1)]).ctx.state ≠ .active ∧ (small [(1, 2 ^ 8192 - 1)]).reg 1 % 2 = 1
      ∧ 512 < 2 * (small [(1, 2 ^ 8192 - 1)]).used 1 + 1) := by decide +kernel

theorem witness_TeardownAndContextReads : (active ctx35 []).ctx.state = .active := rfl

theorem witness_MontgomeryNeedsActiveContext :
    State.reset.ctx.state ≠ .active ∧ (active Ctx.torn []).ctx.state ≠ .active := by decide

/-- The largest legal input and the first refused one. -/
theorem witness_RedcDividesByR :
    ((active ctx35 [(1, 35 * 2 ^ 32 - 1)]).Inv ∧ (active ctx35 [(1, 35 * 2 ^ 32 - 1)]).ctx.state = .active
      ∧ (active ctx35 [(1, 35 * 2 ^ 32 - 1)]).reg 1 < ctx35.n * 2 ^ (32 * ctx35.k))
    ∧ ((active ctx35 [(1, 35 * 2 ^ 32)]).Inv
      ∧ ctx35.n * 2 ^ (32 * ctx35.k) ≤ (active ctx35 [(1, 35 * 2 ^ 32)]).reg 1) :=
  ⟨⟨by decide +kernel, rfl, by decide +kernel⟩, by decide +kernel, by decide +kernel⟩

theorem witness_ToFormMultipliesByR : sInv.Inv ∧ sInv.ctx.state = .active := ⟨sInv_inv, rfl⟩

theorem witness_FromFormDividesByRAndRestores :
    sInv.Inv ∧ sInv.ctx.state = .active ∧ sInv.reg 2 < sInv.ctx.n ∧ ∃ t, exec (.mtoform 3 2) sInv = .next t :=
  ⟨sInv_inv, rfl, by decide +kernel, exec_answers _ _⟩

/-- The forms of 2 and 1 (V-M18), and each operand at the bound. -/
theorem witness_MontgomeryProduct :
    ((active ctx35 [(1, 22), (2, 11)]).Inv ∧ (active ctx35 [(1, 22), (2, 11)]).reg 1 < 35
      ∧ (active ctx35 [(1, 22), (2, 11)]).reg 2 < 35
      ∧ (active ctx35 [(1, 22), (2, 11)]).reg 1 = 2 * 2 ^ (32 * 1) % 35
      ∧ (active ctx35 [(1, 22), (2, 11)]).reg 2 = 1 * 2 ^ (32 * 1) % 35)
    ∧ ((active ctx35 [(1, 35)]).Inv ∧ 35 ≤ (active ctx35 [(1, 35)]).reg 1)
    ∧ ((active ctx35 [(2, 35)]).Inv ∧ 35 ≤ (active ctx35 [(2, 35)]).reg 2) :=
  ⟨⟨by decide +kernel, by decide +kernel⟩, ⟨by decide +kernel, by decide +kernel⟩, by decide +kernel, by decide +kernel⟩

/-- A zero and a nonzero exponent. -/
theorem witness_MontgomeryPower :
    sInv.Inv ∧ sInv.ctx.state = .active ∧ sInv.reg 0 = 0 ∧ sInv.reg 1 ≠ 0 := by decide +kernel

/-- A zero operand; a common factor; the modulus 1; the smallest modulus with an inverse. -/
theorem witness_InverseIsTheUniqueInverse :
    (small [(1, 5)]).reg 2 = 0
    ∧ ((small [(1, 5), (2, 35)]).reg 1 ≠ 0 ∧ (small [(1, 5), (2, 35)]).reg 2 ≠ 0 ∧ Nat.gcd 5 35 ≠ 1)
    ∧ ((small [(1, 5), (2, 1)]).reg 1 ≠ 0 ∧ (small [(1, 5), (2, 1)]).reg 2 = 1)
    ∧ ((small [(1, 3), (2, 2)]).reg 1 ≠ 0 ∧ 2 ≤ (small [(1, 3), (2, 2)]).reg 2 ∧ Nat.gcd 3 2 = 1) := by decide +kernel

/-- A zero modulus; the smallest modulus for Montgomery under its context (V-X3); one bit less under its own context (V-X5);
and an overflow of the schoolbook engine (V-X10). -/
theorem witness_SelectorGivesThePower :
    ((active ctxBig [(3, 2 ^ 511 + 1)]).Inv ∧ (active ctxBig [(3, 2 ^ 511 + 1)]).reg 4 = 0)
    ∧ (ctxBig.state = .active ∧ ctxBig.n = (active ctxBig [(3, 2 ^ 511 + 1)]).reg 3
      ∧ (active ctxBig [(3, 2 ^ 511 + 1)]).reg 3 % 2 = 1 ∧ 2 ^ 511 ≤ (active ctxBig [(3, 2 ^ 511 + 1)]).reg 3)
    ∧ ((active ctxShort [(3, 2 ^ 511 - 1)]).Inv ∧ ctxShort.n = (active ctxShort [(3, 2 ^ 511 - 1)]).reg 3
      ∧ ¬ 2 ^ 511 ≤ (active ctxShort [(3, 2 ^ 511 - 1)]).reg 3
      ∧ 2 * (active ctxShort [(3, 2 ^ 511 - 1)]).used 3 ≤ 512)
    ∧ execs (.smodexp 4 1 2 3) (small [(1, 2 ^ 8192), (2, 2), (3, 2 ^ 8192 + 1)])
      (fun t => t.errKind == some .overflow) = true :=
  ⟨⟨by decide +kernel, by decide +kernel⟩, by decide +kernel, ⟨by decide +kernel, by decide +kernel⟩, by decide +kernel⟩

/-- Scenario S4. -/
def sRsa : State := small [(1, 42), (2, 7), (3, 143), (5, 103)]

theorem witness_RsaRoundTrip :
    sRsa.Inv ∧ ValidKeypair (sRsa.reg 3) (sRsa.reg 2) (sRsa.reg 5)
    ∧ sRsa.reg 1 < sRsa.reg 3 ∧ 2 * sRsa.used 3 ≤ sRsa.cap
    ∧ (4 : Reg) ≠ 5 ∧ (4 : Reg) ≠ 3 ∧ ∃ t, exec (.modexp 4 1 2 3) sRsa = .next t :=
  ⟨by decide +kernel, validKeypair_of_primes (p := 11) (q := 13) (by norm_num) (by norm_num) (by decide) (by decide)
    (by decide), by decide +kernel, by decide +kernel, by decide, by decide, exec_answers _ _⟩

theorem witness_CodecRoundTrip :
    (allOnes < 2 ^ (32 * 512) ∧ 0 < 2 ^ (32 * 0)) ∧ readDecimal 1 ['0', '7'] = .ok 7 ∧ readHex 1 ['0', 'A'] = .ok 10
    ∧ readBytes 1 [0, 5] = .ok 5 ∧ readBytes 0 [] = .ok 0 := by decide +kernel

theorem witness_BigUintProperties :
    sInv.Inv ∧ (7 : Nat) ≠ 0 ∧ execs (.mmul 3 1 2) sInv (fun _ => true) = true :=
  ⟨sInv_inv, by decide, by decide +kernel⟩

/-- The largest operands below the modulus, and a keypair of `35 = 5 · 7`: `5 · 5 = 25 = 24 + 1`, and `lcm(4, 6) = 12`. -/
theorem witness_MontgomeryProperties :
    sInv.Inv ∧ sInv.ctx.state = .active ∧ 34 < sInv.ctx.n
    ∧ ValidKeypair sInv.ctx.n 5 5 :=
  ⟨sInv_inv, rfl, by decide, validKeypair_of_primes (p := 5) (q := 7) (by norm_num) (by norm_num) (by decide) (by decide)
    (by decide)⟩

end Sys2Proof.Tests
end

section
/-! PROOFS. Every step keeps the invariant (00_scope.md R8; 10_state.md R22, R30, R31, R35; 60_exceptions.md R230, R238).

Each value-level helper has one lemma that says what it can answer: a bound on its value, and that its kind is none of the
host codec's. The commands and the step are then assembled from these by the inversion lemmas of Laws/Ops.lean and
Laws/Port.lean. -/

namespace Sys2Proof.Machine

variable {α β ε : Type}

/-! ## What a computation that may raise can answer -/

/-- The value meets `P`, or the error meets `E`. -/
inductive Meets (P : α → Prop) (E : ε → Prop) : Except ε α → Prop
  | ok {v : α} (h : P v) : Meets P E (.ok v)
  | error {e : ε} (h : E e) : Meets P E (.error e)

theorem Meets.imp {P Q : α → Prop} {E : ε → Prop} {r : Except ε α} (h : Meets P E r) (hpq : ∀ v, P v → Q v) :
    Meets Q E r := by
  cases h with
  | ok hv => exact .ok (hpq _ hv)
  | error he => exact .error he

theorem Meets.bind {P : α → Prop} {Q : β → Prop} {E : ε → Prop} {r : Except ε α} {f : α → Except ε β}
    (h : Meets P E r) (hf : ∀ v, P v → Meets Q E (f v)) : Meets Q E (r >>= f) := by
  cases h with
  | ok hv => exact hf _ hv
  | error he => exact .error he

theorem Meets.map {P : α → Prop} {Q : β → Prop} {E : ε → Prop} {r : Except ε α} {f : α → β}
    (h : Meets P E r) (hf : ∀ v, P v → Q (f v)) : Meets Q E (r.map f) := by
  cases h with
  | ok hv => exact .ok (hf _ hv)
  | error he => exact .error he

theorem Meets.ite {P : α → Prop} {E : ε → Prop} {c : Prop} [Decidable c] {r r' : Except ε α}
    (h : c → Meets P E r) (h' : ¬ c → Meets P E r') : Meets P E (if c then r else r') := by
  split
  · exact h ‹c›
  · exact h' ‹¬ c›

/-- A test that raises when it holds. -/
theorem Meets.guard {P : α → Prop} {E : ε → Prop} {c : Prop} [Decidable c] {e : ε} {r : Except ε α}
    (he : E e) (h : ¬ c → Meets P E r) : Meets P E (if c then .error e else r) := .ite (fun _ => .error he) h

/-- A kind that a command can end with: none of the two of the host codec (60_exceptions.md R230). -/
abbrev BlockKind (kind : ErrKind) : Prop := kind ≠ .badFormat ∧ kind ≠ .bufferTooSmall

/-! ## The BigUint unit -/

theorem meets_within (cap v : Nat) : Meets (· < 2 ^ (32 * cap)) BlockKind (within cap v) := by
  rcases within_cases cap v with ⟨h, e⟩ | ⟨_, e⟩
  · rw [e]; exact .ok h
  · rw [e]; exact .error (by decide)

/-- A left shift lengthens a value by the shift count. -/
theorem shiftLeft_lt {a bits L : Nat} (h : bitlen a + bits ≤ L) : a <<< bits < 2 ^ L := by
  rw [Nat.shiftLeft_eq]
  calc a * 2 ^ bits < 2 ^ bitlen a * 2 ^ bits := by have := lt_two_pow_bitlen a; gcongr
    _ = 2 ^ (bitlen a + bits) := (Nat.pow_add ..).symm
    _ ≤ 2 ^ L := Nat.pow_le_pow_right (by decide) h

theorem meets_bigShl (cap a bits : Nat) : Meets (· < 2 ^ (32 * cap)) BlockKind (bigShl cap a bits) := by
  refine .guard (by decide) fun h => .ite (fun _ => .ok (Nat.two_pow_pos _)) fun ha => ?_
  exact .ok (shiftLeft_lt (by omega))

theorem bigShr_le (a bits : Nat) : bigShr a bits ≤ a := by
  unfold bigShr
  split
  · exact Nat.zero_le a
  · exact Nat.shiftRight_le a bits

theorem meets_bigSub (a b : Nat) : Meets (· ≤ a) BlockKind (bigSub a b) :=
  .guard (by decide) fun _ => .ok (Nat.sub_le a b)

/-- The limb counts of the factors bound the product (41_biguint_arith.md R117). -/
theorem mul_lt_of_len32 {cap a b : Nat} (h : len32 a + len32 b ≤ cap) : a * b < 2 ^ (32 * cap) := by
  calc a * b < 2 ^ (32 * len32 a) * 2 ^ (32 * len32 b) := Nat.mul_lt_mul'' (lt_two_pow_len32 a) (lt_two_pow_len32 b)
    _ = 2 ^ (32 * (len32 a + len32 b)) := by rw [← Nat.pow_add, Nat.mul_add]
    _ ≤ 2 ^ (32 * cap) := Nat.pow_le_pow_right (by decide) (by omega)

theorem meets_bigMul (cap a b : Nat) : Meets (· < 2 ^ (32 * cap)) BlockKind (bigMul cap a b) := by
  rcases bigMul_cases cap a b with ⟨h, e⟩ | ⟨_, e⟩
  · rw [e]; exact .ok (mul_lt_of_len32 h)
  · rw [e]; exact .error (by decide)

theorem meets_bigDivMod (a b : Nat) : Meets (fun qr => qr.1 ≤ a ∧ qr.2 < b) BlockKind (bigDivMod a b) :=
  .guard (by decide) fun h => .ok ⟨Nat.div_le_self a b, Nat.mod_lt a (Nat.pos_of_ne_zero h)⟩

theorem meets_bigMod (a m : Nat) : Meets (· < m) BlockKind (bigMod a m) :=
  .guard (by decide) fun h => .ok (Nat.mod_lt a (Nat.pos_of_ne_zero h))

theorem meets_mulThenMod (cap x y m : Nat) : Meets (· < m) BlockKind (mulThenMod cap x y m) :=
  (meets_bigMul cap x y).bind fun p _ => meets_bigMod p m

/-! ## The modular inverse (45_modinverse.md R202) -/

theorem subMul_mag_le (t0 t1 : SignedMag) (q : Nat) : (t0.subMul t1 q).mag ≤ t0.mag + q * t1.mag := by
  unfold SignedMag.subMul
  split_ifs <;> simp <;> omega

/-- The coefficients of extended Euclid never exceed the modulus: `|t0|·r1 + |t1|·r0` does not grow. -/
theorem euclidLoop_mag_le {m : Nat} (fuel r0 r1 : Nat) (t0 t1 : SignedMag) (hr : 0 < r0) (h0 : t0.mag ≤ m)
    (h : t0.mag * r1 + t1.mag * r0 ≤ m) : (euclidLoop fuel r0 r1 t0 t1).2.mag ≤ m := by
  induction fuel generalizing r0 r1 t0 t1 with
  | zero => exact h0
  | succ fuel ih =>
    unfold euclidLoop
    split
    · exact h0
    · next hr1 =>
      refine ih r1 (r0 % r1) t1 _ (Nat.pos_of_ne_zero hr1) ?_ ?_
      · calc t1.mag ≤ t1.mag * r0 := Nat.le_mul_of_pos_right _ hr
          _ ≤ m := by omega
      · calc t1.mag * (r0 % r1) + (t0.subMul t1 (r0 / r1)).mag * r1
            ≤ t1.mag * (r0 % r1) + (t0.mag + r0 / r1 * t1.mag) * r1 := by gcongr; exact subMul_mag_le ..
          _ = t0.mag * r1 + t1.mag * (r0 % r1 + r1 * (r0 / r1)) := by ring
          _ ≤ m := by rw [Nat.mod_add_div]; exact h

theorem meets_euclidInverse {a m : Nat} (hm : 0 < m) : Meets (· ≤ m) BlockKind (euclidInverse a m) := by
  have hmag := euclidLoop_mag_le m m (a % m) ⟨false, 0⟩ ⟨false, 1⟩ hm (Nat.zero_le m) (by simp)
  exact .guard (by decide) fun _ => .ite (fun _ => .ok (Nat.sub_le ..)) fun _ => .ok hmag

theorem meets_invMod (a m : Nat) : Meets (· ≤ m) BlockKind (invMod a m) :=
  .guard (by decide) fun h => .guard (by decide) fun _ => meets_euclidInverse (by omega)

/-! ## Schoolbook exponentiation (43_schoolbook_modexp.md R150 to R154) -/

theorem meets_binaryLoop (cap m : Nat) (fuel result b e : Nat) (h : result < m) :
    Meets (· < m) BlockKind (binaryLoop cap m fuel result b e) := by
  induction fuel generalizing result b e with
  | zero => exact .ok h
  | succ fuel ih =>
    have rest (result' : Nat) (h' : result' < m) : Meets (· < m) BlockKind (if e >>> 1 = 0 then .ok result'
        else mulThenMod cap b b m >>= fun b' => binaryLoop cap m fuel result' b' (e >>> 1)) :=
      .ite (fun _ => .ok h') fun _ => (meets_mulThenMod cap b b m).bind fun b' _ => ih result' b' _ h'
    exact .ite (fun _ => (meets_mulThenMod ..).bind rest) fun _ => rest result h

theorem meets_modexpBinary {cap base exp m : Nat} (hm : 1 < m) :
    Meets (· < m) BlockKind (modexpBinary cap base exp m) :=
  (meets_bigMod base m).bind fun b _ => meets_binaryLoop cap m _ 1 b exp hm

theorem meets_tableFrom (cap m t1 count prev : Nat) :
    Meets (fun l => ∀ x ∈ l, x < m) BlockKind (tableFrom cap m t1 count prev) := by
  induction count generalizing prev with
  | zero => exact .ok (by simp)
  | succ count ih =>
    exact (meets_mulThenMod cap prev t1 m).bind fun next hn => (ih next).bind fun rest hrest =>
      .ok (List.forall_mem_cons.2 ⟨hn, hrest⟩)

theorem meets_windowTable {cap base m : Nat} (hm : 1 < m) :
    Meets (fun l => ∀ x ∈ l, x < m) BlockKind (windowTable cap base m) :=
  (meets_bigMod base m).bind fun t1 h1 => (meets_tableFrom cap m t1 14 t1).bind fun _ hrest =>
    .ok (List.forall_mem_cons.2 ⟨hm, List.forall_mem_cons.2 ⟨h1, hrest⟩⟩)

theorem meets_squareTimes (cap m count x : Nat) (h : x < m) : Meets (· < m) BlockKind (squareTimes cap m count x) := by
  induction count generalizing x with
  | zero => exact .ok h
  | succ count ih => exact (meets_mulThenMod cap x x m).bind fun y hy => ih y hy

theorem getD_lt {l : List Nat} {m : Nat} (hm : 0 < m) (h : ∀ x ∈ l, x < m) (i : Nat) : l.getD i 0 < m := by
  rw [List.getD_eq_getElem?_getD]
  cases hi : l[i]? with
  | none => exact hm
  | some x => exact h x (List.mem_of_getElem? hi)

theorem meets_windowScan {cap exp m : Nat} {table : List Nat} (hm : 0 < m) (ht : ∀ x ∈ table, x < m) (j : Nat)
    (result : Option Nat) (h : ∀ v ∈ result, v < m) :
    Meets (fun out => ∀ v ∈ out, v < m) BlockKind (windowScan cap exp m table j result) := by
  have entry (w : Nat) : ∀ v ∈ some (table.getD w 0), v < m := by simpa using getD_lt hm ht w
  induction j generalizing result with
  | zero => cases result <;> exact .ok h
  | succ j ih =>
    cases result with
    | none => exact .ite (fun _ => ih none (by simp)) fun _ => ih _ (entry _)
    | some x =>
      refine (meets_squareTimes cap m _ x (h x rfl)).bind fun squared hs => ?_
      have rest (y : Nat) (hy : y < m) := ih (some y) (by simpa using hy)
      exact .ite (fun _ => (meets_mulThenMod ..).bind rest) fun _ => rest squared hs

theorem meets_modexpWindow {cap base exp m : Nat} (hm : 1 < m) :
    Meets (· < m) BlockKind (modexpWindow cap base exp m) := by
  refine (meets_windowTable hm).bind fun table ht => ?_
  refine (meets_windowScan (by omega) ht _ none (by simp)).bind fun out h => ?_
  cases out with
  | none => exact .ok hm
  | some v => exact .ok (h v rfl)

/-- The value is the modulus itself only for `m = 1` and the exponent 0 (43_schoolbook_modexp.md R151). -/
theorem meets_smodexp (cap base exp m : Nat) : Meets (· ≤ m) BlockKind (smodexp cap base exp m) := by
  refine .guard (by decide) fun hm => .ite (fun _ => .ok (Nat.pos_of_ne_zero hm)) fun _ => ?_
  refine .ite (fun _ => .ok (Nat.zero_le m)) fun _ => .ite (fun _ => .ok (Nat.zero_le m)) fun hm1 => ?_
  have h1 : 1 < m := by omega
  exact .ite (fun _ => (meets_modexpBinary h1).imp fun _ => le_of_lt) fun _ =>
    (meets_modexpWindow h1).imp fun _ => le_of_lt

/-! ## The Montgomery unit (44_montgomery.md R166 to R182) -/

theorem meets_whenActive {P : α → Prop} {c : Ctx} {r : Except ErrKind α}
    (h : c.state = .active → Meets P BlockKind r) : Meets P BlockKind (whenActive c r) :=
  .guard (by decide) fun ha => h (not_not.1 ha)

/-- The check at the end of `redc` bounds what it answers, whatever the context (44_montgomery.md R177). -/
theorem meets_redc (c : Ctx) (t : Nat) : Meets (· < c.n) BlockKind (redc c t) :=
  .ite (fun h => .ok h) fun _ => .error (by decide)

theorem meets_reduceFirst (c : Ctx) (a : Nat) : Meets (fun _ => True) BlockKind (reduceFirst c a) :=
  .ite (fun _ => (meets_bigMod a c.n).imp fun _ _ => trivial) fun _ => .ok trivial

theorem meets_toForm (cap : Nat) (c : Ctx) (a : Nat) : Meets (· < c.n) BlockKind (toForm cap c a) :=
  (meets_reduceFirst c a).bind fun a' _ => (meets_bigMul cap a' c.rSquared).bind fun p _ => meets_redc c p

theorem meets_fromForm (c : Ctx) (a : Nat) : Meets (· < c.n) BlockKind (fromForm c a) :=
  (meets_reduceFirst c a).bind fun a' _ => meets_redc c a'

theorem meets_mulmod (cap : Nat) (c : Ctx) (a b : Nat) : Meets (· < c.n) BlockKind (mulmod cap c a b) :=
  .guard (by decide) fun _ => (meets_bigMul cap a b).bind fun p _ => meets_redc c p

theorem meets_mexpScan (cap : Nat) (c : Ctx) (bt exp i rt : Nat) (h : rt < c.n) :
    Meets (· < c.n) BlockKind (mexpScan cap c bt exp i rt) := by
  induction i generalizing rt with
  | zero => exact .ok h
  | succ i ih =>
    have rest (squared : Nat) (hs : squared < c.n) : Meets (· < c.n) BlockKind (if bitOf exp i = 1
        then mulmod cap c squared bt >>= mexpScan cap c bt exp i else mexpScan cap c bt exp i squared) :=
      .ite (fun _ => (meets_mulmod ..).bind ih) fun _ => ih squared hs
    exact .ite (fun _ => (meets_mulmod ..).bind rest) fun _ => rest rt h

theorem meets_mexp {cap : Nat} {c : Ctx} (hn : 0 < c.n) (base exp : Nat) :
    Meets (· ≤ c.n) BlockKind (mexp cap c base exp) := by
  refine .ite (fun _ => .ok hn) fun _ => .ite (fun _ => .ok (Nat.zero_le _)) fun _ => ?_
  refine (meets_bigMod base c.n).bind fun b _ => (meets_toForm cap c b).bind fun bt _ => ?_
  refine (meets_toForm cap c 1).bind fun rt hrt => (meets_mexpScan cap c bt exp _ rt hrt).bind fun rt' _ => ?_
  exact (meets_fromForm c rt').imp fun _ => le_of_lt

/-- What the second verification of the word inverse leaves, whatever the lifting found (44_montgomery.md R172). -/
theorem meets_nprime (n0 : Word) : Meets (fun np => n0 * np = 0xFFFFFFFF#32) BlockKind (nprime n0) := by
  unfold nprime
  generalize henselInverse n0 = x
  exact .guard (by decide) fun _ => .guard (by decide) fun h => .ok (not_not.1 h)

/-- `R mod n` squared and reduced is `R² mod n` (44_montgomery.md R173). -/
theorem meets_rSquaredOf {cap k n : Nat} (hn : n ≠ 0) :
    Meets (· = (2 ^ (32 * k)) ^ 2 % n) BlockKind (rSquaredOf cap k n) := by
  have hr : bigMod (montRadix k) n = .ok (2 ^ (32 * k) % n) := by simp [bigMod, hn, montRadix, Nat.shiftLeft_eq]
  unfold rSquaredOf
  rw [hr]
  change Meets _ _ (mulThenMod cap _ _ n)
  rcases mulThenMod_cases (cap := cap) (x := 2 ^ (32 * k) % n) (y := 2 ^ (32 * k) % n) hn with ⟨_, e⟩ | ⟨_, e⟩
  · rw [e, ← Nat.mul_mod, ← pow_two]; exact .ok rfl
  · rw [e]; exact .error (by decide)

theorem meets_buildCtx (cap : Nat) (old : Ctx) (n : Nat) : Meets (Ctx.Sound cap) BlockKind (buildCtx cap old n) := by
  refine .guard (by decide) fun _ => .guard (by decide) fun hn => .guard (by decide) fun hodd => ?_
  refine .guard (by decide) fun hk => (meets_nprime _).bind fun np hnp => ?_
  refine (meets_rSquaredOf hn).bind fun rr hrr => ?_
  exact .ok ⟨fun _ => ⟨Nat.mod_two_ne_zero.1 hodd, rfl, not_lt.1 hk, hnp, hrr⟩, fun h => absurd rfl h⟩

/-! ## The selector (46_expselector.md R210 to R214) -/

/-- A selector's end whose value is at most `n` and whose kind is the block's. -/
abbrev SelectorEnds (n : Nat) : ModexpEnd → Prop := Meets (·.1 ≤ n) fun e => BlockKind e.1

theorem meets_runSchoolbook (cap base exp n : Nat) : SelectorEnds n (runSchoolbook cap base exp n) := by
  have h := meets_smodexp cap base exp n
  unfold runSchoolbook
  generalize smodexp cap base exp n = r at h
  cases h with
  | ok hv => exact .ok hv
  | error he => exact .error he

theorem meets_runMontgomery {cap : Nat} {c : Ctx} (hn : 0 < c.n) (base exp : Nat) :
    SelectorEnds c.n (runMontgomery cap c base exp c.n) := by
  have hm := meets_mexp (cap := cap) hn base exp
  have hs := meets_smodexp cap base exp c.n
  unfold runMontgomery
  generalize mexp cap c base exp = rm at hm
  generalize smodexp cap base exp c.n = rs at hs
  cases hm with
  | ok hv => exact .ok hv
  | error he =>
    refine .ite (fun _ => ?_) fun _ => .error he
    cases hs with
    | ok hv => exact .ok hv
    | error => exact .error he

theorem selectEngine_montgomery {c : Ctx} {n : Nat} (h : selectEngine c n = .montgomery) :
    c.state = .active ∧ c.n = n := by
  unfold selectEngine at h
  split at h
  · next hc => exact ⟨hc.1, hc.2.1⟩
  · cases h

theorem finalReduce_le {n result : Nat} (h : result ≤ n) : finalReduce n result ≤ n := by
  unfold finalReduce
  split
  · exact (Nat.mod_le ..).trans h
  · exact h

theorem meets_modexp (cap : Nat) (c : Ctx) (base exp n : Nat) : SelectorEnds n (modexp cap c base exp n) := by
  refine .guard (by decide) fun hn => ?_
  refine Meets.map (P := fun out => out.1 ≤ n) ?_ fun out h => finalReduce_le h
  split
  · next h =>
    obtain ⟨-, rfl⟩ := selectEngine_montgomery h
    exact meets_runMontgomery (Nat.pos_of_ne_zero hn) base exp
  · exact meets_runSchoolbook cap base exp n

end Sys2Proof.Machine
end

section
/-! PROOFS. What each state update does to the invariant, then each command, access and step; it settles O10 and O11. -/

namespace Sys2Proof.Machine

/-! ## The shared updates -/

variable {s t : State}

theorem allowed_standard : Config.standard.Allowed := by decide

theorem sound_reset (cap : Nat) : Ctx.reset.Sound cap := by simp [Ctx.Sound, Ctx.reset]

theorem sound_torn (cap : Nat) : Ctx.torn.Sound cap := by simp [Ctx.Sound, Ctx.torn]

/-- Reset clears everything but the capacity. -/
theorem inv_applyReset (hc : s.config.Allowed) : s.applyReset.Inv :=
  ⟨hc, fun r => (reg_reset r).symm ▸ Nat.two_pow_pos _, sound_reset s.cap, by simp [State.StatusSound, State.reset]⟩

theorem inv_setReg (hs : s.Inv) (r : Reg) {v : Nat} (hv : v < 2 ^ (32 * s.cap)) : (s.setReg r v).Inv := by
  obtain ⟨hconfig, hregs, hctx, hstatus⟩ := hs
  refine ⟨hconfig, fun q => ?_, hctx, hstatus⟩
  rw [reg_setReg]
  split
  · exact hv
  · exact hregs q

theorem inv_setCtx (hs : s.Inv) {c : Ctx} (hc : c.Sound s.cap) : ({ s with ctx := c } : State).Inv := by
  obtain ⟨hconfig, hregs, -, hstatus⟩ := hs
  exact ⟨hconfig, hregs, hc, hstatus⟩

theorem inv_accept (hs : s.Inv) (w : Word) : (s.accept w).Inv := by
  obtain ⟨hconfig, hregs, hctx, -, -, hformat, hbuffer, hengine⟩ := hs
  exact ⟨hconfig, hregs, hctx, fun _ => rfl, by simp, hformat, hbuffer, hengine⟩

theorem inv_succeed (hs : s.Inv) (e : Engine) (fb : Bool) : (s.succeed e fb).Inv := by
  obtain ⟨hconfig, hregs, hctx, -⟩ := hs
  exact ⟨hconfig, hregs, hctx, by simp [State.StatusSound]⟩

/-- FATAL is entered with its own kind only (60_exceptions.md R238). -/
theorem fsmAfter_eq_fatal {kind : ErrKind} : fsmAfter kind = .fatal ↔ kind = .internalInvariantBroken := by
  cases kind <;> simp [fsmAfter]

theorem fsmAfter_ne_busy (kind : ErrKind) : fsmAfter kind ≠ .busy := by cases kind <;> decide

theorem inv_failWith (hs : s.Inv) {kind : ErrKind} (hk : BlockKind kind) (fb : Bool) : (s.failWith kind fb).Inv := by
  obtain ⟨hconfig, hregs, hctx, -⟩ := hs
  exact ⟨hconfig, hregs, hctx, by simpa [State.StatusSound, fsmAfter_ne_busy, fsmAfter_eq_fatal] using hk⟩

/-! ## Completion -/

theorem inv_of_finish (hs : s.Inv) {r : Except ErrKind State} (hr : Meets State.Inv BlockKind r)
    (h : finish s r = .next t) : t.Inv := by
  cases hr with
  | ok hu => cases h; exact inv_succeed hu ..
  | error hk => cases h; exact inv_failWith hs hk _

theorem inv_of_finishReg (hs : s.Inv) {rd : Reg} {r : Except ErrKind Nat}
    (hr : Meets (· < 2 ^ (32 * s.cap)) BlockKind r) (h : finishReg s rd r = .next t) : t.Inv :=
  inv_of_finish hs (hr.map fun _ hv => inv_setReg hs rd hv) h

theorem inv_of_finishRes (hs : s.Inv) {w : Word} (h : finishRes s w = .next t) : t.Inv :=
  inv_of_finish hs (.ok (show ({ s with res0 := w } : State).Inv from hs)) h

theorem inv_of_execDivmod (hs : s.Inv) {rd ra rb rc : Reg} (h : execDivmod rd ra rb rc s = .next t) : t.Inv := by
  obtain ⟨-, hregs, -, -⟩ := id hs
  unfold execDivmod at h
  split at h
  · exact inv_of_finish hs (.error (by decide)) h
  · refine inv_of_finish hs ((meets_bigDivMod (s.reg ra) (s.reg rb)).map fun qr ⟨hq, hr⟩ => ?_) h
    exact inv_setReg (inv_setReg hs rd (hq.trans_lt (hregs ra))) rc (hr.trans (hregs rb))

theorem inv_of_execModexp (hs : s.Inv) {rd ra rb rc : Reg} (h : execModexp rd ra rb rc s = .next t) : t.Inv := by
  obtain ⟨-, hregs, -, -⟩ := id hs
  have hm := meets_modexp s.cap s.ctx (s.reg ra) (s.reg rb) (s.reg rc)
  unfold execModexp at h
  generalize modexp s.cap s.ctx (s.reg ra) (s.reg rb) (s.reg rc) = r at hm h
  cases hm with
  | ok hv => cases h; exact inv_succeed (inv_setReg hs rd (hv.trans_lt (hregs rc))) ..
  | error hk => cases h; exact inv_failWith hs hk _

/-- The modulus of a sound Active context is a register's value and not 0 (10_state.md R30). -/
theorem Ctx.Sound.modulus_bounds {cap : Nat} {c : Ctx} (hc : c.Sound cap) (ha : c.state = .active) :
    0 < c.n ∧ c.n < 2 ^ (32 * cap) := by
  obtain ⟨hodd, hk, hcap, -⟩ := hc.1 ha
  exact ⟨by omega, (len32_le_iff ..).1 (by omega)⟩

theorem Ctx.Sound.rSquared_lt {cap : Nat} {c : Ctx} (hc : c.Sound cap) (ha : c.state = .active) :
    c.rSquared < c.n := by
  obtain ⟨-, -, -, -, hrr⟩ := hc.1 ha
  rw [hrr]
  exact Nat.mod_lt _ (hc.modulus_bounds ha).1

/-- A command that needs the context, and answers at most its modulus. -/
theorem inv_of_finishReg_whenActive (hs : s.Inv) {rd : Reg} {r : Except ErrKind Nat}
    (hr : s.ctx.state = .active → 0 < s.ctx.n → Meets (· ≤ s.ctx.n) BlockKind r)
    (h : finishReg s rd (whenActive s.ctx r) = .next t) : t.Inv := by
  obtain ⟨-, -, hctx, -⟩ := id hs
  refine inv_of_finishReg hs (meets_whenActive fun ha => ?_) h
  obtain ⟨hpos, hlt⟩ := hctx.modulus_bounds ha
  exact (hr ha hpos).imp fun _ hv => hv.trans_lt hlt

/-- A scalar operand is a register's value, at any allowed capacity. -/
theorem word_lt {c : Config} (hc : c.Allowed) (w : Word) : w.toNat < 2 ^ (32 * c.cap) := by
  obtain ⟨hlow, -⟩ := hc
  exact w.isLt.trans_le (Nat.pow_le_pow_right (by decide) (by omega))

/-- Every command keeps the invariant. -/
theorem inv_of_exec (hs : s.Inv) {i : Instr} (h : exec i s = .next t) : t.Inv := by
  obtain ⟨hconfig, hregs, hctx, -⟩ := id hs
  cases i with
  | cmp | iszero | isone | bitlen | getbit => exact inv_of_finishRes hs h
  | zero rd => exact inv_of_finishReg hs (.ok (Nat.two_pow_pos _)) h
  | fromu32 rd => exact inv_of_finishReg hs (.ok (word_lt hconfig s.arg0)) h
  | copy rd ra => exact inv_of_finishReg hs (.ok (hregs ra)) h
  | shl rd ra => exact inv_of_finishReg hs (meets_bigShl ..) h
  | shr rd ra => exact inv_of_finishReg hs (.ok ((bigShr_le ..).trans_lt (hregs ra))) h
  | add rd ra rb => exact inv_of_finishReg hs (meets_within ..) h
  | sub rd ra rb => exact inv_of_finishReg hs ((meets_bigSub ..).imp fun _ hv => hv.trans_lt (hregs ra)) h
  | mul rd ra rb => exact inv_of_finishReg hs (meets_bigMul ..) h
  | divmod rd ra rb rc => exact inv_of_execDivmod hs h
  | mod rd ra rb => exact inv_of_finishReg hs ((meets_bigMod ..).imp fun _ hv => hv.trans (hregs rb)) h
  | muladdw rd ra => exact inv_of_finishReg hs (meets_within ..) h
  | addw rd ra => exact inv_of_finishReg hs (meets_within ..) h
  | smodexp rd ra rb rc =>
    exact inv_of_finishReg hs ((meets_smodexp ..).imp fun _ hv => hv.trans_lt (hregs rc)) h
  | mbuild ra =>
    exact inv_of_finish hs ((meets_buildCtx s.cap s.ctx (s.reg ra)).map fun _ hc => inv_setCtx hs hc) h
  | mdestroy => exact inv_of_finish hs (meets_whenActive fun _ => .ok (inv_setCtx hs (sound_torn _))) h
  | redc rd ra =>
    exact inv_of_finishReg_whenActive hs
      (fun _ _ => .guard (by decide) fun _ => (meets_redc ..).imp fun _ => le_of_lt) h
  | mtoform rd ra =>
    exact inv_of_finishReg_whenActive hs (fun _ _ => (meets_toForm ..).imp fun _ => le_of_lt) h
  | mfromform rd ra =>
    exact inv_of_finishReg_whenActive hs (fun _ _ => (meets_fromForm ..).imp fun _ => le_of_lt) h
  | mmul rd ra rb =>
    exact inv_of_finishReg_whenActive hs (fun _ _ => (meets_mulmod ..).imp fun _ => le_of_lt) h
  | mexp rd ra rb => exact inv_of_finishReg_whenActive hs (fun _ hn => meets_mexp hn ..) h
  | mgetn rd => exact inv_of_finishReg_whenActive hs (fun _ _ => .ok le_rfl) h
  | mgetrr rd => exact inv_of_finishReg_whenActive hs (fun ha _ => .ok (hctx.rSquared_lt ha).le) h
  | invmod rd ra rb => exact inv_of_finishReg hs ((meets_invMod ..).imp fun _ hv => hv.trans_lt (hregs rb)) h
  | modexp rd ra rb rc => exact inv_of_execModexp hs h

theorem inv_of_completeCommand (hs : s.Inv) (h : completeCommand s = .next t) : t.Inv := by
  rcases completeCommand_cases h with ⟨i, -, h⟩ | ⟨_, -, rfl⟩
  · exact inv_of_exec hs h
  · exact inv_failWith hs (by decide) _

/-! ## Accesses -/

/-- A limb of the port is one of the register's `CAP` limbs (20_memory.md R53). -/
theorem lt_cap_of_locate_limb {cap addr i : Nat} {r : Reg} (h : locate cap addr = some (.limb r i)) : i < cap := by
  have hcontrol (n : Nat) : controlLoc n ≠ .limb r i := by unfold controlLoc; split <;> simp
  unfold locate at h
  split_ifs at h with hsize <;> simp [hcontrol] at h
  have hcap : 0 < cap := by simp only [portSize, Config.nreg] at hsize; omega
  have hoffset := Nat.mod_lt (addr - 0x10000) (show 0 < 4 * cap by omega)
  omega

/-- A limb write below the capacity stays below it (10_state.md R25). -/
theorem replaceLimb_lt {cap v i : Nat} (hv : v < 2 ^ (32 * cap)) (hi : i < cap) (w : Word) :
    replaceLimb v i w < 2 ^ (32 * cap) := by
  have hcap : 2 ^ (32 * cap) = 2 ^ (32 * (i + 1)) * 2 ^ (32 * (cap - (i + 1))) := by
    rw [← Nat.pow_add]; congr 1; omega
  have hhigh : v / 2 ^ (32 * (i + 1)) < 2 ^ (32 * (cap - (i + 1))) := Nat.div_lt_of_lt_mul (hcap ▸ hv)
  have hlow : v % 2 ^ (32 * i) < 2 ^ (32 * i) := Nat.mod_lt _ (Nat.two_pow_pos _)
  have hw : w.toNat < 2 ^ 32 := w.isLt
  rw [replaceLimb_eq, hcap]
  generalize v / 2 ^ (32 * (i + 1)) = high at hhigh ⊢
  generalize 2 ^ (32 * (cap - (i + 1))) = bound at hhigh ⊢
  calc v % 2 ^ (32 * i) + 2 ^ (32 * i) * (w.toNat + 2 ^ 32 * high)
      < 2 ^ (32 * i) * (w.toNat + 2 ^ 32 * high + 1) := by rw [Nat.mul_succ]; omega
    _ ≤ 2 ^ (32 * i) * (2 ^ 32 * bound) := Nat.mul_le_mul_left _ (by omega)
    _ = 2 ^ (32 * (i + 1)) * bound := by rw [Nat.mul_succ, Nat.pow_add, Nat.mul_assoc]

theorem inv_readLoc (hs : s.Inv) (l : Loc) : (s.readLoc l).Inv := by
  unfold State.readLoc
  split <;> exact hs

theorem inv_writeLoc (hs : s.Inv) {addr : Nat} {l : Loc} (hl : locate s.cap addr = some l) (v : Word) :
    (s.writeLoc l v).Inv := by
  obtain ⟨-, hregs, -, -⟩ := id hs
  rcases writeLoc_cases s l v with e | ⟨-, ⟨-, e⟩ | ⟨-, e⟩ | ⟨-, e⟩ | ⟨r, i, rfl, e⟩⟩ <;> rw [e]
  · exact hs
  · exact inv_accept hs v
  · exact hs
  · exact hs
  · exact inv_setReg hs r (replaceLimb_lt (hregs r) (lt_cap_of_locate_limb hl) v)

theorem inv_of_performAccess (hs : s.Inv) {a : Access} (h : performAccess a s = .next t) : t.Inv := by
  rcases performAccess_cases h with ⟨_, l, -, -, rfl⟩ | ⟨_, v, l, -, hl, rfl⟩ | ⟨-, rfl⟩
  · exact inv_readLoc hs l
  · exact inv_writeLoc hs hl v
  · exact inv_applyReset hs.1

/-! ## The step -/

theorem inv_afterTurn (hs : s.Inv) : s.afterTurn.Inv := hs

theorem inv_of_step (hs : s.Inv) (h : step s = .next t) : t.Inv := by
  rcases step_cases h with ⟨-, -, rfl⟩ | ⟨-, -, h⟩ | ⟨_, _, -, h⟩
  · exact inv_afterTurn hs
  · exact inv_of_completeCommand (inv_afterTurn hs) h
  · exact inv_of_performAccess (inv_afterTurn hs) h

/-- Settles O10: the reset state is what the reset input leaves at the default capacity. -/
theorem resetMeetsInvariant : Obligations.ResetMeetsInvariant := by
  have h : State.reset.applyReset = State.reset := rfl
  unfold Obligations.ResetMeetsInvariant
  rw [← h]
  exact inv_applyReset allowed_standard

/-- Settles O11, by the three things a step can do. -/
theorem stepKeepsInvariant : Obligations.StepKeepsInvariant :=
  fun _ _ hs h => inv_of_step hs h

end Sys2Proof.Machine
end

section
/-! PROOFS. The decoder undoes the encoder, and what a step is while BUSY and on a host's turn; it settles O5 and O6. -/

namespace Sys2Proof

/-! ## The decoder on the encoder's words (30_encoding.md R72, R74, R76) -/

/-- The register fields a format does not use hold 0 (30_encoding.md R71). -/
def Format.UnusedZero (rd ra rb rc : Reg) : Format → Prop
  | .F0    => rd = 0 ∧ ra = 0 ∧ rb = 0 ∧ rc = 0
  | .FD    => ra = 0 ∧ rb = 0 ∧ rc = 0
  | .FA    => rd = 0 ∧ rb = 0 ∧ rc = 0
  | .FAB   => rd = 0 ∧ rc = 0
  | .FDA   => rb = 0 ∧ rc = 0
  | .FDAB  => rc = 0
  | .FDABC => True

/-- A mask of whole fields acts on each field of a word by itself. -/
theorem and_fieldwise (op mop : BitVec 8) (d a b c md ma mb mc : BitVec 4) (z mz : BitVec 8) :
    (op ++ d ++ a ++ b ++ c ++ z) &&& (mop ++ md ++ ma ++ mb ++ mc ++ mz)
      = (op &&& mop) ++ (d &&& md) ++ (a &&& ma) ++ (b &&& mb) ++ (c &&& mc) ++ (z &&& mz) := by
  simp only [BitVec.and_append]

theorem commandWord_zero (op : BitVec 8) : commandWord op 0 0 0 0 = op ++ 0#24 := by
  have happend : (op ++ 0#24).toNat = op.toNat * 2 ^ 24 := by
    rw [BitVec.toNat_append, BitVec.toNat_zero, Nat.or_zero, Nat.shiftLeft_eq]
  apply BitVec.eq_of_toNat_eq
  rw [commandWord_toNat]
  simpa using happend.symm

/-- Under a mask of the opcode and of whole register fields, a word is its opcode alone when the register fields
kept are 0. -/
theorem commandWord_and_mask (op : BitVec 8) {rd ra rb rc : Reg} {md ma mb mc : BitVec 4}
    (hd : BitVec.ofNat 4 rd.val &&& md = 0#4) (ha : BitVec.ofNat 4 ra.val &&& ma = 0#4)
    (hb : BitVec.ofNat 4 rb.val &&& mb = 0#4) (hc : BitVec.ofNat 4 rc.val &&& mc = 0#4) :
    commandWord op rd ra rb rc &&& (0xFF#8 ++ md ++ ma ++ mb ++ mc ++ 0xFF#8) = op ++ 0#24 := by
  have hop : op &&& 0xFF#8 = op := BitVec.and_allOnes
  refine (and_fieldwise op 0xFF#8 _ _ _ _ md ma mb mc 0#8 0xFF#8).trans ?_
  rw [hop, hd, ha, hb, hc]
  exact commandWord_zero op

/-- A format's mask leaves the opcode alone of a word whose unused fields are 0. -/
theorem commandWord_and_formatMask (op : BitVec 8) {rd ra rb rc : Reg} {f : Format} (h : f.UnusedZero rd ra rb rc) :
    commandWord op rd ra rb rc &&& f.mask = op ++ 0#24 := by
  have dropped (r : Reg) : BitVec.ofNat 4 r.val &&& 0#4 = 0#4 := BitVec.and_zero
  have kept : BitVec.ofNat 4 (0 : Reg).val &&& 0xF#4 = 0#4 := rfl
  cases f with
  | F0 =>
    obtain ⟨rfl, rfl, rfl, rfl⟩ := h
    exact commandWord_and_mask op kept kept kept kept
  | FD =>
    obtain ⟨rfl, rfl, rfl⟩ := h
    exact commandWord_and_mask op (dropped rd) kept kept kept
  | FA =>
    obtain ⟨rfl, rfl, rfl⟩ := h
    exact commandWord_and_mask op kept (dropped ra) kept kept
  | FAB =>
    obtain ⟨rfl, rfl⟩ := h
    exact commandWord_and_mask op kept (dropped ra) (dropped rb) kept
  | FDA =>
    obtain ⟨rfl, rfl⟩ := h
    exact commandWord_and_mask op (dropped rd) (dropped ra) kept kept
  | FDAB =>
    obtain rfl := h
    exact commandWord_and_mask op (dropped rd) (dropped ra) (dropped rb) kept
  | FDABC => exact commandWord_and_mask op (dropped rd) (dropped ra) (dropped rb) (dropped rc)

theorem accepts_commandWord {row : OpRow} {rd ra rb rc : Reg} (h : row.format.UnusedZero rd ra rb rc) :
    row.accepts (commandWord row.op rd ra rb rc) = true := by
  simp [OpRow.accepts, OpRow.matchWord, commandWord_and_formatMask row.op h]

/-- The row of the encoder's opcode accepts the encoder's word: its unused fields are 0 (30_encoding.md R71). -/
theorem row_accepts_encode (i : Instr) :
    ∃ row, findRow (opField (encode i)) = some row ∧ row.accepts (encode i) = true := by
  have found {op : BitVec 8} {rd ra rb rc : Reg} {row : OpRow} (hrow : findRow op = some row) (hop : row.op = op)
      (h : row.format.UnusedZero rd ra rb rc) :
      ∃ row, findRow (opField (commandWord op rd ra rb rc)) = some row
        ∧ row.accepts (commandWord op rd ra rb rc) = true := by
    subst hop
    exact ⟨row, by rw [opField_commandWord, hrow], accepts_commandWord h⟩
  cases i with
  | mdestroy => exact found rfl rfl ⟨rfl, rfl, rfl, rfl⟩
  | zero | fromu32 | mgetn | mgetrr => exact found rfl rfl ⟨rfl, rfl, rfl⟩
  | iszero | isone | bitlen | getbit | mbuild => exact found rfl rfl ⟨rfl, rfl, rfl⟩
  | cmp => exact found rfl rfl ⟨rfl, rfl⟩
  | copy | shl | shr | muladdw | addw | redc | mtoform | mfromform => exact found rfl rfl ⟨rfl, rfl⟩
  | add | sub | mul | mod | mmul | mexp | invmod => exact found rfl rfl rfl
  | divmod | smodexp | modexp => exact found rfl rfl trivial

/-- The row of the encoder's opcode builds the command back. -/
theorem opcode_found : ∀ i : Instr, Laws.OpcodeFound.Statement i
  | .zero d => Laws.OpcodeFound.zero d
  | .fromu32 d => Laws.OpcodeFound.fromu32 d
  | .copy d a => Laws.OpcodeFound.copy d a
  | .cmp a b => Laws.OpcodeFound.cmp a b
  | .iszero a => Laws.OpcodeFound.iszero a
  | .isone a => Laws.OpcodeFound.isone a
  | .bitlen a => Laws.OpcodeFound.bitlen a
  | .getbit a => Laws.OpcodeFound.getbit a
  | .shl d a => Laws.OpcodeFound.shl d a
  | .shr d a => Laws.OpcodeFound.shr d a
  | .add d a b => Laws.OpcodeFound.add d a b
  | .sub d a b => Laws.OpcodeFound.sub d a b
  | .mul d a b => Laws.OpcodeFound.mul d a b
  | .divmod d a b c => Laws.OpcodeFound.divmod d a b c
  | .mod d a b => Laws.OpcodeFound.mod d a b
  | .muladdw d a => Laws.OpcodeFound.muladdw d a
  | .addw d a => Laws.OpcodeFound.addw d a
  | .smodexp d a b c => Laws.OpcodeFound.smodexp d a b c
  | .mbuild a => Laws.OpcodeFound.mbuild a
  | .mdestroy => Laws.OpcodeFound.mdestroy
  | .redc d a => Laws.OpcodeFound.redc d a
  | .mtoform d a => Laws.OpcodeFound.mtoform d a
  | .mfromform d a => Laws.OpcodeFound.mfromform d a
  | .mmul d a b => Laws.OpcodeFound.mmul d a b
  | .mexp d a b => Laws.OpcodeFound.mexp d a b
  | .mgetn d => Laws.OpcodeFound.mgetn d
  | .mgetrr d => Laws.OpcodeFound.mgetrr d
  | .invmod d a b => Laws.OpcodeFound.invmod d a b
  | .modexp d a b c => Laws.OpcodeFound.modexp d a b c

theorem decode_encode {i : Instr} (h : i.wellFormed = true) : decode (encode i) = .ok i := by
  obtain ⟨row, hrow, hbuild⟩ := opcode_found i
  obtain ⟨row', hrow', haccepts⟩ := row_accepts_encode i
  obtain rfl : row = row' := Option.some.inj (hrow.symm.trans hrow')
  simp [decode, hrow, haccepts, hbuild, h]

@[simp] theorem tableWord_toNat (w : Word) : tableWord 32 w.toNat = w := by
  rw [tableWord, Nat.mod_eq_of_lt w.isLt, BitVec.ofNat_toNat, BitVec.setWidth_eq]

end Sys2Proof

namespace Sys2Proof.Machine

/-! ## A step, by whose turn it is (10_state.md R28; log entry 3) -/

variable {s : State}

theorem step_of_busy (hbusy : s.fsm = .busy) (hnext : s.controllerNext) : step s = completeCommand s.afterTurn := by
  rcases hnext with hturns | ⟨rest, hturns⟩
  · have hafter : s.afterTurn = s := by cases s; simp_all [State.afterTurn]
    simp [step, nextMove, controllerMove, hturns, hbusy, hafter]
  · simp [step, nextMove, controllerMove, State.afterTurn, hturns, hbusy]

theorem step_of_host {a : Access} {rest : List Turn} (h : s.turns = .host a :: rest) :
    step s = performAccess a s.afterTurn := by
  simp [step, nextMove, State.afterTurn, h]

theorem performAccess_write {addr : Nat} {l : Loc} (hl : locate s.cap addr = some l) (v : Word) :
    performAccess (.write addr v) s = .next (s.writeLoc l v) := by
  simp [performAccess, hl]

theorem step_of_host_write {addr : Nat} {v : Word} {rest : List Turn} {l : Loc}
    (h : s.turns = .host (.write addr v) :: rest) (hl : locate s.cap addr = some l) :
    step s = .next (s.afterTurn.writeLoc l v) := by
  rw [step_of_host h]
  exact performAccess_write (s := s.afterTurn) hl v

theorem completeCommand_of_decode {i : Instr} (h : decode s.cmd = .ok i) : completeCommand s = exec i s := by
  simp [completeCommand, h]

/-- Settles O5: the controller completes the latched command. -/
theorem stepRunsLatchedCommand : Obligations.StepRunsLatchedCommand := by
  intro s i hbusy hnext hdecode
  rw [step_of_busy hbusy hnext]
  exact completeCommand_of_decode (s := s.afterTurn) hdecode

/-- Settles O6: the word that is latched decodes to its command, and using up the controller's turn leaves the state that
accepted the word. -/
theorem fetchWordRunsItsCommand : Obligations.FetchWordRunsItsCommand := by
  intro s i hi
  have hlatch : s.withFetchWord 32 (encode i).toNat = s.latchNext (encode i) := by
    rw [State.withFetchWord, tableWord_toNat]
  rw [hlatch]
  exact stepRunsLatchedCommand (s.latchNext (encode i)) i rfl (.inr ⟨s.turns, rfl⟩) (decode_encode hi)

end Sys2Proof.Machine
end

section
/-! PROOFS. What a step can do to the stored data, said once; it settles O15, O16, O17 and O19. -/

namespace Sys2Proof.Machine

variable {s t : State} {i : Instr}

/-! ## What a step can do to the registers, the context and RES0 -/

/-- The registers, the context and RES0 are those of `s`. -/
structure SameData (s t : State) : Prop where
  regs : t.regs = s.regs
  ctx : t.ctx = s.ctx
  res0 : t.res0 = s.res0

theorem SameData.reg (h : SameData s t) (r : Reg) : t.reg r = s.reg r := by rw [State.reg, State.reg, h.regs]

theorem SameBlock.sameData (h : SameBlock s t) : SameData s t := ⟨h.regs, h.ctx, h.res0⟩

theorem sameData_of_completeCommand (h : completeCommand s = .next t) :
    SameData s t ∨ ∃ i, decode s.cmd = .ok i ∧ exec i s = .next t ∧ t.errKind = none := by
  rcases completeCommand_cases h with ⟨i, hdecode, hexec⟩ | ⟨_, _, rfl⟩
  · rcases exec_ends hexec with ⟨hkind, _⟩ | ⟨kind, fb, rfl⟩
    · exact .inr ⟨i, hdecode, hexec, hkind⟩
    · exact .inl ⟨rfl, rfl, rfl⟩
  · exact .inl ⟨rfl, rfl, rfl⟩

theorem sameData_of_performAccess {a : Access} (h : performAccess a s = .next t) :
    SameData s t
      ∨ (s.fsm = .idle ∧ ∃ addr v r j, a = .write addr v ∧ locate s.cap addr = some (.limb r j) ∧ t = s.writeLimb r j v)
      ∨ a = .reset := by
  rcases performAccess_cases h with ⟨_, l, _, _, rfl⟩ | ⟨addr, v, l, ha, hl, rfl⟩ | ⟨ha, _⟩
  · exact .inl (readLoc_sameBlock s l).sameData
  · rcases writeLoc_cases s l v with e | ⟨hidle, ⟨_, e⟩ | ⟨_, e⟩ | ⟨_, e⟩ | ⟨r, j, rfl, e⟩⟩ <;> rw [e]
    · exact .inl ⟨rfl, rfl, rfl⟩
    · exact .inl ⟨rfl, rfl, rfl⟩
    · exact .inl ⟨rfl, rfl, rfl⟩
    · exact .inl ⟨rfl, rfl, rfl⟩
    · exact .inr (.inl ⟨hidle, addr, v, r, j, ha, hl, rfl⟩)
  · exact .inr (.inr ha)

/-- The step ended the latched command, with success. -/
structure CompletesOk (i : Instr) (s t : State) : Prop where
  busy : s.fsm = .busy
  next : s.controllerNext
  decode : decode s.cmd = .ok i
  exec : exec i s.afterTurn = .next t
  errKind : t.errKind = none

/-- The step was the host's write of a limb while IDLE (10_state.md R25). -/
def WritesLimb (r : Reg) (s t : State) : Prop :=
  s.fsm = .idle ∧ ∃ addr v j rest, s.turns = .host (.write addr v) :: rest ∧ locate s.cap addr = some (.limb r j)
    ∧ t = s.afterTurn.writeLimb r j v

/-- A step keeps the data but in three cases: a command that succeeds, a limb write, reset. -/
theorem step_data_cases (h : step s = .next t) :
    SameData s t ∨ (∃ i, CompletesOk i s t) ∨ (∃ r, WritesLimb r s t) ∨ ∃ rest, s.turns = .host .reset :: rest := by
  rcases step_cases h with ⟨_, _, rfl⟩ | ⟨hnext, hbusy, hcomplete⟩ | ⟨a, rest, hturns, haccess⟩
  · exact .inl ⟨rfl, rfl, rfl⟩
  · rcases sameData_of_completeCommand hcomplete with hsame | ⟨i, hdecode, hexec, hkind⟩
    · exact .inl ⟨hsame.regs, hsame.ctx, hsame.res0⟩
    · exact .inr (.inl ⟨i, hbusy, hnext, hdecode, hexec, hkind⟩)
  · rcases sameData_of_performAccess haccess with hsame | ⟨hidle, addr, v, r, j, rfl, hl, rfl⟩ | rfl
    · exact .inl ⟨hsame.regs, hsame.ctx, hsame.res0⟩
    · exact .inr (.inr (.inl ⟨r, hidle, addr, v, j, rest, hturns, hl, rfl⟩))
    · exact .inr (.inr (.inr ⟨rest, hturns⟩))

/-! ## Frames of a command (30_encoding.md R73, R76) -/

theorem exec_reg_of_not_mem_dests (h : exec i s = .next t) {r : Reg} (hr : r ∉ i.dests) : t.reg r = s.reg r := by
  rcases exec_ends h with ⟨-, -, -, hsame, -⟩ | ⟨kind, fb, rfl⟩
  · exact hsame.regs r hr
  · exact reg_failWith s kind fb r

theorem exec_res0_of_not_writesRes0 (h : exec i s = .next t) (hi : i.writesRes0 = false) : t.res0 = s.res0 := by
  rcases exec_ends h with ⟨-, -, -, -, hres0, -⟩ | ⟨kind, fb, rfl⟩
  · exact hres0 hi
  · exact failWith_res0 s kind fb

theorem exec_ctx_of_not_writesCtx (h : exec i s = .next t) (hi : i.writesCtx = false) : t.ctx = s.ctx := by
  rcases exec_ends h with ⟨-, -, -, -, -, hctx⟩ | ⟨kind, fb, rfl⟩
  · exact hctx hi
  · exact failWith_ctx s kind fb

/-- No command changes the capacity or the scalar operands. -/
theorem exec_keeps_constants (h : exec i s = .next t) : t.config = s.config ∧ t.arg0 = s.arg0 ∧ t.arg1 = s.arg1 := by
  rcases exec_ends h with ⟨-, -, -, hsame, -⟩ | ⟨kind, fb, rfl⟩
  · exact ⟨hsame.config, hsame.arg0, hsame.arg1⟩
  · exact ⟨rfl, rfl, rfl⟩

theorem writesCtx_iff : i.writesCtx = true ↔ (∃ ra, i = .mbuild ra) ∨ i = .mdestroy := by
  cases i <;> simp [Instr.writesCtx]

/-! ## What the two context commands do when they succeed (44_montgomery.md R170, R183) -/

theorem buildCtx_states {cap n : Nat} {old c : Ctx} (h : buildCtx cap old n = .ok c) :
    old.state ≠ .active ∧ c.state = .active := by
  unfold buildCtx at h
  split_ifs at h with hactive
  refine ⟨hactive, ?_⟩
  cases hnp : nprime (limb n 0) with
  | error kind => simp [hnp, bind, Except.bind] at h
  | ok np =>
    cases hrr : rSquaredOf cap (len32 n) n with
    | error kind => simp [hnp, hrr, bind, Except.bind] at h
    | ok rr =>
      simp only [hnp, hrr, bind, Except.bind, Except.ok.injEq] at h
      rw [← h]

theorem exec_mbuild_states {ra : Reg} (h : exec (.mbuild ra) s = .next t) (hkind : t.errKind = none) :
    s.ctx.state ≠ .active ∧ t.ctx.state = .active := by
  rcases finish_cases h with ⟨u, hu, rfl⟩ | ⟨kind, _, rfl⟩
  · cases hbuild : buildCtx s.cap s.ctx (s.reg ra) with
    | ok c =>
      rw [hbuild] at hu
      cases hu
      exact buildCtx_states hbuild
    | error kind => rw [hbuild] at hu; cases hu
  · cases hkind

theorem exec_mdestroy_states (h : exec .mdestroy s = .next t) (hkind : t.errKind = none) :
    s.ctx.state = .active ∧ t.ctx.state = .destroyed := by
  rcases finish_cases h with ⟨u, hu, rfl⟩ | ⟨kind, _, rfl⟩
  · by_cases hactive : s.ctx.state = .active
    · simp only [whenActive, hactive, ne_eq, not_true_eq_false, if_false] at hu
      cases hu
      exact ⟨hactive, rfl⟩
    · simp [whenActive, hactive] at hu
  · cases hkind

/-! ## The obligations -/

/-- Settles O15: of the steps that do not keep the data, a command changes its destinations only, and a limb write its
register only. -/
theorem registerChangesOnlyAsDestination : Obligations.RegisterChangesOnlyAsDestination := by
  intro s t r hstep hne
  rcases step_data_cases hstep with hsame | ⟨i, hi⟩ | ⟨q, hidle, addr, v, j, rest, hturns, hl, rfl⟩ | hreset
  · exact absurd (hsame.reg r) hne
  · refine .inl ⟨i, hi.busy, hi.next, hi.decode, ?_, hi.errKind⟩
    by_contra hr
    exact hne (exec_reg_of_not_mem_dests hi.exec hr)
  · refine .inr (.inl ⟨hidle, addr, v, j, rest, hturns, ?_⟩)
    obtain rfl : r = q := by
      by_contra hr
      exact hne (reg_setReg_other _ hr _)
    exact hl
  · exact .inr (.inr hreset)

/-- Settles O16: of the steps that do not keep the data, only MBUILD, MDESTROY and reset write the context. -/
theorem contextChangesOnlyByBuildAndDestroy : Obligations.ContextChangesOnlyByBuildAndDestroy := by
  intro s t hstep hne
  rcases step_data_cases hstep with hsame | ⟨i, hi⟩ | ⟨_, _, _, _, _, _, _, _, rfl⟩ | hreset
  · exact absurd hsame.ctx hne
  · have hwrites : i.writesCtx = true := by
      by_contra hi'
      exact hne (exec_ctx_of_not_writesCtx (s := s.afterTurn) hi.exec (eq_false_of_ne_true hi'))
    rcases writesCtx_iff.1 hwrites with ⟨ra, rfl⟩ | rfl
    · exact .inl ⟨ra, hi.busy, hi.decode, exec_mbuild_states (s := s.afterTurn) hi.exec hi.errKind⟩
    · exact .inr (.inl ⟨hi.busy, hi.decode, exec_mdestroy_states (s := s.afterTurn) hi.exec hi.errKind⟩)
  · exact absurd rfl hne
  · exact .inr (.inr hreset)

/-- Settles O17: of the steps that do not keep the data, only a scalar command and reset write RES0. -/
theorem res0ChangesOnlyByScalarCommands : Obligations.Res0ChangesOnlyByScalarCommands := by
  intro s t hstep hne
  rcases step_data_cases hstep with hsame | ⟨i, hi⟩ | ⟨_, _, _, _, _, _, _, _, rfl⟩ | hreset
  · exact absurd hsame.res0 hne
  · refine .inl ⟨i, hi.busy, hi.decode, ?_, hi.errKind⟩
    by_contra hi'
    exact hne (exec_res0_of_not_writesRes0 (s := s.afterTurn) hi.exec (eq_false_of_ne_true hi'))
  · exact absurd rfl hne
  · exact .inr hreset

/-- Settles O19: each location shows a field that the command's frame keeps. -/
theorem portFrameOfEveryCommand : Obligations.PortFrameOfEveryCommand := by
  intro i s t l h hl
  obtain ⟨hconfig, harg0, harg1⟩ := exec_keeps_constants h
  have hreg (r : Reg) (hr : i.dests.contains r = false) : t.reg r = s.reg r :=
    exec_reg_of_not_mem_dests h (by simpa using hr)
  cases l with
  | status => cases hl
  | cmd | unmapped => rfl
  | arg0 => exact harg0
  | arg1 => exact harg1
  | res0 => exact exec_res0_of_not_writesRes0 h hl
  | ctxstat => simp only [State.peek, State.ctxstatWord, exec_ctx_of_not_writesCtx h hl]
  | ctxnprime => simp only [State.peek, exec_ctx_of_not_writesCtx h hl]
  | config => simp only [State.peek, State.configWord, State.cap, hconfig]
  | used r => simp only [State.peek, State.used, hreg r hl]
  | limb r j => simp only [State.peek, State.limb, hreg r hl]

end Sys2Proof.Machine
end

section
/-! PROOFS. Registers in their limbs: they are normalised, and a limb write keeps them so; it settles O14 and O21. -/

namespace Sys2Proof.Machine

/-! ## The limb count and the top limb (10_state.md R22) -/

/-- `used = 0 ∨ limbs[used − 1] ≠ 0` (10_state.md R22(a)). -/
theorem limb_top_ne_zero {v : Nat} (h : v ≠ 0) : limb v (len32 v - 1) ≠ 0#32 := by
  have hpos : 0 < len32 v := Nat.pos_of_ne_zero fun e => h ((len32_eq_zero v).1 e)
  have hlow : 2 ^ (32 * (len32 v - 1)) ≤ v := (lt_len32_iff v _).1 (by omega)
  have hhigh : v < 2 ^ (32 * (len32 v - 1)) * 2 ^ 32 := by
    rw [← Nat.pow_add, show 32 * (len32 v - 1) + 32 = 32 * len32 v by omega]
    exact lt_two_pow_len32 v
  have hquot : 0 < v / 2 ^ (32 * (len32 v - 1)) := Nat.div_pos hlow (Nat.two_pow_pos _)
  intro hlimb
  have hzero := congrArg BitVec.toNat hlimb
  rw [limb_toNat, Nat.mod_eq_of_lt (Nat.div_lt_of_lt_mul hhigh), BitVec.toNat_zero] at hzero
  omega

/-- Without its lowest limb a value has one limb fewer. -/
theorem len32_div_limbBase (v : Nat) : len32 (v / 2 ^ 32) = len32 v - 1 := by
  refine eq_of_forall_ge_iff fun u => ?_
  calc len32 (v / 2 ^ 32) ≤ u ↔ v < 2 ^ (32 * u) * 2 ^ 32 := by
        rw [len32_le_iff, Nat.div_lt_iff_lt_mul (by decide)]
    _ ↔ len32 v ≤ u + 1 := by rw [len32_le_iff, Nat.mul_succ, Nat.pow_add]
    _ ↔ len32 v - 1 ≤ u := by omega

/-- The count of significant limbs of a register's limb array is `used` (10_state.md R25). -/
theorem significant_toLimbs {cap v : Nat} (h : v < 2 ^ (32 * cap)) : significant (toLimbs cap v) = len32 v := by
  induction cap generalizing v with
  | zero =>
    obtain rfl : v = 0 := by simpa using h
    rfl
  | succ cap ih =>
    have hdiv : v / 2 ^ 32 < 2 ^ (32 * cap) :=
      Nat.div_lt_of_lt_mul (by rwa [← Nat.pow_add, show 32 + 32 * cap = 32 * (cap + 1) by ring])
    rw [toLimbs_succ, significant, ih hdiv, len32_div_limbBase]
    rcases Nat.lt_trichotomy (len32 v) 1 with hnone | hone | hmany
    · obtain rfl : v = 0 := (len32_eq_zero v).1 (by omega)
      rfl
    · have hv : v ≠ 0 := by rintro rfl; simp at hone
      have hlow : limb v 0 ≠ 0#32 := by simpa [hone] using limb_top_ne_zero hv
      simp [hone, hlow]
    · rw [if_pos (by omega)]; omega

/-- Settles O14, by the limbs of the register's value. -/
theorem registersAreNormalised : Obligations.RegistersAreNormalised := by
  intro s r hfit
  refine ⟨len32_eq_zero _, fun hused => limb_top_ne_zero ?_, fun i hi => limb_eq_zero_of_len32_le hi,
    (len32_le_iff ..).2 (hfit r), ofLimbs_toLimbs_of_lt (hfit r), significant_toLimbs (hfit r)⟩
  intro hzero
  simp [State.used, hzero] at hused

/-! ## One limb replaced (10_state.md R25) -/

/-- Limb `j` is one of the low limbs. -/
theorem limb_mod_of_lt {i j : Nat} (h : j < i) (v : Nat) : limb (v % 2 ^ (32 * i)) j = limb v j := by
  apply BitVec.eq_of_toNat_eq
  have hsplit : 2 ^ (32 * i) = 2 ^ (32 * j) * 2 ^ (32 * (i - j)) := by
    rw [← Nat.pow_add, ← Nat.mul_add, Nat.add_sub_of_le h.le]
  have hdvd : 2 ^ 32 ∣ 2 ^ (32 * (i - j)) := Nat.pow_dvd_pow 2 (by omega)
  rw [limb_toNat, limb_toNat, hsplit, Nat.mod_mul_right_div_self, Nat.mod_mod_of_dvd _ hdvd]

/-- Limb `i + j` is limb `j` of the high part. -/
theorem limb_div (v i j : Nat) : limb (v / 2 ^ (32 * i)) j = limb v (i + j) := by
  apply BitVec.eq_of_toNat_eq
  rw [limb_toNat, limb_toNat, Nat.div_div_eq_div_mul, ← Nat.pow_add, ← Nat.mul_add]

theorem replaceLimb_mod (v i : Nat) (w : Word) : replaceLimb v i w % 2 ^ (32 * i) = v % 2 ^ (32 * i) := by
  rw [replaceLimb_eq, Nat.add_mul_mod_self_left, Nat.mod_mod]

theorem replaceLimb_div (v i : Nat) (w : Word) :
    replaceLimb v i w / 2 ^ (32 * i) = w.toNat + 2 ^ 32 * (v / 2 ^ (32 * (i + 1))) := by
  rw [replaceLimb_eq, Nat.add_mul_div_left _ _ (Nat.two_pow_pos _), Nat.div_eq_of_lt (Nat.mod_lt _ (Nat.two_pow_pos _)),
    Nat.zero_add]

theorem replaceLimb_div_succ (v i : Nat) (w : Word) :
    replaceLimb v i w / 2 ^ (32 * (i + 1)) = v / 2 ^ (32 * (i + 1)) := by
  have hw : w.toNat < 2 ^ 32 := w.isLt
  rw [show 32 * (i + 1) = 32 * i + 32 by ring, Nat.pow_add, ← Nat.div_div_eq_div_mul, replaceLimb_div,
    Nat.add_mul_div_left _ _ (by decide), Nat.div_eq_of_lt hw, Nat.zero_add, Nat.mul_succ, Nat.pow_add]

theorem limb_replaceLimb_same (v i : Nat) (w : Word) : limb (replaceLimb v i w) i = w := by
  apply BitVec.eq_of_toNat_eq
  rw [limb_toNat, replaceLimb_div, Nat.add_mul_mod_self_left, Nat.mod_eq_of_lt w.isLt]

theorem limb_replaceLimb_other {i j : Nat} (h : j ≠ i) (v : Nat) (w : Word) :
    limb (replaceLimb v i w) j = limb v j := by
  rcases Nat.lt_or_gt_of_ne h with hlow | hhigh
  · rw [← limb_mod_of_lt hlow, replaceLimb_mod, limb_mod_of_lt hlow]
  · obtain ⟨d, rfl⟩ : ∃ d, j = i + 1 + d := ⟨j - (i + 1), by omega⟩
    rw [← limb_div, replaceLimb_div_succ, limb_div]

/-- A write below the capacity keeps every register within its range. -/
theorem regsFit_writeLimb {s : State} (hfit : s.RegsFit) {i : Nat} (hi : i < s.cap) (r : Reg) (w : Word) :
    (s.writeLimb r i w).RegsFit := by
  intro q
  rw [State.writeLimb, reg_setReg]
  split
  · exact replaceLimb_lt (hfit r) hi w
  · exact hfit q

theorem step_of_limb_write {s : State} {r : Reg} {i : Nat} {v : Word} {rest : List Turn} (hidle : s.fsm = .idle)
    (hi : i < s.cap) (hturns : s.turns = .host (.write (limbAddr s.cap r i) v) :: rest) :
    step s = .next (s.afterTurn.writeLimb r i v) := by
  rw [step_of_host_write hturns (locate_limbAddr r hi)]
  simp [State.writeLoc, hidle]

/-- Settles O21: the step replaces the limb in the register's value. -/
theorem limbWriteRenormalises : Obligations.LimbWriteRenormalises := by
  intro s r i v rest hidle hfit hi hturns
  have hreg : (s.afterTurn.writeLimb r i v).reg r = replaceLimb (s.reg r) i v := reg_setReg_same ..
  have hfit' : (s.afterTurn.writeLimb r i v).RegsFit := regsFit_writeLimb (s := s.afterTurn) hfit hi r v
  refine ⟨_, step_of_limb_write hidle hi hturns, ?_, fun j hj => ?_, ?_, fun q hq => reg_setReg_other _ hq _,
    (significant_toLimbs (hfit' r)).symm, hfit', rfl⟩
  · rw [State.limb, hreg, limb_replaceLimb_same]
  · rw [State.limb, hreg, limb_replaceLimb_other hj, State.limb]
  · rw [hreg, replaceLimb, Nat.shiftLeft_eq, Nat.shiftLeft_eq, State.limb]

end Sys2Proof.Machine
end

section
/-! PROOFS. The status words as integers and their fields, the port after reset, and what an accept does to STATUS; it
settles O9, O24, O28 and O29. -/

namespace Sys2Proof.Machine

variable {s : State}

/-! ## Fields of a word (10_state.md R33) -/

theorem extract_toNat (w : Word) (lo n : Nat) : (w.extractLsb' lo n).toNat = w.toNat / 2 ^ lo % 2 ^ n := by
  rw [BitVec.extractLsb'_toNat, Nat.shiftRight_eq_div_pow]

theorem extract_eq_of_toNat {w : Word} {lo n : Nat} {x : BitVec n} (h : w.toNat / 2 ^ lo % 2 ^ n = x.toNat) :
    w.extractLsb' lo n = x :=
  BitVec.eq_of_toNat_eq ((extract_toNat w lo n).trans h)

theorem getLsbD_eq_of_toNat {w : Word} {i : Nat} {b : Bool} (h : w.toNat / 2 ^ i % 2 = b.toNat) : w.getLsbD i = b := by
  rw [← BitVec.testBit_toNat, Nat.testBit_eq_decide_div_mod_eq, h]
  cases b <;> rfl

/-! ## STATUS (10_state.md R35) -/

theorem errCode_le (e : Option ErrKind) : errCode e ≤ 13 := by
  rcases e with _ | kind
  · decide
  · cases kind <;> decide

theorem Engine.code_le (e : Engine) : e.code ≤ 2 := by cases e <;> decide

/-- The low byte of STATUS: BUSY, DONE and FATAL. -/
def State.statusLow (s : State) : Nat :=
  (decide (s.fsm = .busy)).toNat + 2 * s.done.toNat + 4 * (decide (s.fsm = .fatal)).toNat

theorem statusLow_lt (s : State) : s.statusLow < 8 := by
  have hbusy := Bool.toNat_le (decide (s.fsm = .busy))
  have hdone := Bool.toNat_le s.done
  have hfatal := Bool.toNat_le (decide (s.fsm = .fatal))
  unfold State.statusLow
  omega

theorem flag_eq_mul (p : Prop) [Decidable p] (n : Nat) : (if p then n else 0) = n * (decide p).toNat := by
  by_cases h : p <;> simp [h]

/-- STATUS as the sum of its fields, each at its place. -/
theorem statusWord_toNat (s : State) :
    s.statusWord.toNat
      = s.statusLow + 256 * errCode s.errKind + 65536 * s.engine.code + 262144 * s.fallback.toNat := by
  have hlow := statusLow_lt s
  have hkind := errCode_le s.errKind
  have hengine := s.engine.code_le
  have hfallback := Bool.toNat_le s.fallback
  have hsum : s.statusWord
      = BitVec.ofNat 32 (s.statusLow + 256 * errCode s.errKind + 65536 * s.engine.code + 262144 * s.fallback.toNat) := by
    simp only [State.statusWord, State.statusLow, flag_eq_mul, Bool.decide_eq_true]
    congr 1
    omega
  rw [hsum, BitVec.toNat_ofNat]
  exact Nat.mod_eq_of_lt (by omega)

/-- The fields of STATUS above the flags, as numbers. -/
theorem statusWord_fields (s : State) :
    s.statusWord.toNat / 2 ^ 3 % 2 ^ 5 = 0 ∧ s.statusWord.toNat / 2 ^ 8 % 2 ^ 8 = errCode s.errKind
      ∧ s.statusWord.toNat / 2 ^ 16 % 2 ^ 2 = s.engine.code ∧ s.statusWord.toNat / 2 ^ 18 % 2 = s.fallback.toNat
      ∧ s.statusWord.toNat / 2 ^ 19 % 2 ^ 13 = 0 := by
  have hlow := statusLow_lt s
  have hkind := errCode_le s.errKind
  have hengine := s.engine.code_le
  have hfallback := Bool.toNat_le s.fallback
  rw [statusWord_toNat]
  omega

/-- The flags in the low bits of STATUS, as numbers. -/
theorem statusWord_flags (s : State) :
    s.statusWord.toNat / 2 ^ 0 % 2 = (decide (s.fsm = .busy)).toNat
      ∧ s.statusWord.toNat / 2 ^ 1 % 2 = s.done.toNat
      ∧ s.statusWord.toNat / 2 ^ 2 % 2 = (decide (s.fsm = .fatal)).toNat := by
  have hbusy := Bool.toNat_le (decide (s.fsm = .busy))
  have hdone := Bool.toNat_le s.done
  have hfatal := Bool.toNat_le (decide (s.fsm = .fatal))
  rw [statusWord_toNat, State.statusLow]
  omega

/-- ERRKIND reads as a table of codes says, when the table agrees with `errCode`. -/
theorem statusWord_errKind {table : List (Option ErrKind × BitVec 8)} (htable : ∀ p ∈ table, errCode p.1 = p.2.toNat) :
    ∀ k c, (k, c) ∈ table → s.errKind = k → s.statusWord.extractLsb' 8 8 = c := by
  rintro _ c hmem rfl
  obtain ⟨-, hkind, -⟩ := statusWord_fields s
  exact extract_eq_of_toNat (hkind.trans (htable _ hmem))

/-- ENGINE reads as a table of codes says, when the table agrees with `Engine.code`. -/
theorem statusWord_engine {table : List (Engine × BitVec 2)} (htable : ∀ p ∈ table, p.1.code = p.2.toNat) :
    ∀ e c, (e, c) ∈ table → s.engine = e → s.statusWord.extractLsb' 16 2 = c := by
  rintro _ c hmem rfl
  obtain ⟨-, -, hengine, -⟩ := statusWord_fields s
  exact extract_eq_of_toNat (hengine.trans (htable _ hmem))

/-- An accept sets BUSY and clears DONE, and keeps the other fields of STATUS (10_state.md R28(b)). -/
theorem statusWord_accept (s : State) (w : Word) :
    (s.accept w).statusWord.extractLsb' 0 8 = 1#8
      ∧ (s.accept w).statusWord.extractLsb' 8 24 = s.statusWord.extractLsb' 8 24 := by
  have hlow := statusLow_lt s
  have hlow' : (s.accept w).statusLow = 1 := rfl
  have hword' := statusWord_toNat (s.accept w)
  rw [hlow', accept_errKind, accept_engine, accept_fallback] at hword'
  constructor <;> refine extract_eq_of_toNat ?_
  · rw [hword', BitVec.toNat_ofNat]
    omega
  · rw [extract_toNat, hword', statusWord_toNat]
    omega

/-! ## CTXSTAT and CONFIG (10_state.md R38, R40) -/

theorem CtxState.code_le (c : CtxState) : c.code ≤ 2 := by cases c <;> decide

theorem ctxstatWord_toNat (hk : s.ctx.k < 65536) :
    s.ctxstatWord.toNat = s.ctx.state.code + 65536 * s.ctx.k := by
  have hstate := s.ctx.state.code_le
  rw [State.ctxstatWord, BitVec.toNat_ofNat]
  exact Nat.mod_eq_of_lt (by omega)

theorem configWord_toNat (hcap : s.cap < 65536) : s.configWord.toNat = s.cap + 65536 * 16 + 16777216 * 32 := by
  rw [State.configWord, BitVec.toNat_ofNat]
  exact Nat.mod_eq_of_lt (by simp only [Config.nreg, Config.limbBits]; omega)

/-- The state field of CTXSTAT. -/
theorem ctxstatWord_state (hk : s.ctx.k < 65536) {c : CtxState} (h : s.ctx.state = c) :
    s.ctxstatWord.extractLsb' 0 2 = BitVec.ofNat 2 c.code := by
  have hcode := c.code_le
  refine extract_eq_of_toNat ?_
  rw [ctxstatWord_toNat hk, BitVec.toNat_ofNat, h]
  omega

/-- `CTX.k` is at most half the capacity, and 0 unless Active (10_state.md R30, R31). -/
theorem Ctx.Sound.k_lt {cap : Nat} {c : Ctx} (hc : c.Sound cap) (hcap : cap ≤ 65535) : c.k < 65536 := by
  by_cases hactive : c.state = .active
  · obtain ⟨-, -, hk, -⟩ := hc.1 hactive
    omega
  · obtain ⟨-, hk, -⟩ := hc.2 hactive
    omega

theorem usedWord_toNat (hs : s.Inv) (r : Reg) : (s.peek (.used r)).toNat = s.used r ∧ s.used r ≤ s.cap := by
  obtain ⟨⟨-, hcap⟩, hfit, -⟩ := hs
  change s.cap ≤ 65535 at hcap
  have hused : s.used r ≤ s.cap := (len32_le_iff ..).2 (hfit r)
  refine ⟨?_, hused⟩
  rw [State.peek, BitVec.toNat_ofNat]
  exact Nat.mod_eq_of_lt (by omega)

/-! ## Writes of the control registers while IDLE (10_state.md R28(b), R36) -/

theorem locate_control {n : Nat} (h : n < 8) (cap : Nat) : locate cap (4 * n) = some (controlLoc n) := by
  unfold locate portSize
  rw [if_neg (by omega), if_neg (by omega), if_pos (by omega), Nat.mul_div_cancel_left n (by decide)]

theorem afterTurn_of_turns {turn : Turn} {rest : List Turn} (h : s.turns = turn :: rest) :
    s.afterTurn = { s with turns := rest } := by
  rw [State.afterTurn, h, List.tail_cons]

/-- The host's write of control register `n` while IDLE. -/
theorem step_of_control_write {n : Nat} (hn : n < 8) {w : Word} {rest : List Turn}
    (h : s.turns = .host (.write (4 * n) w) :: rest) :
    step s = .next (({ s with turns := rest } : State).writeLoc (controlLoc n) w) := by
  rw [step_of_host_write h (locate_control hn s.cap), afterTurn_of_turns h]

/-! ## The obligations -/

/-- Settles O28: each field is read off STATUS as a sum. -/
theorem statusWordFields : Obligations.StatusWordFields := by
  intro s
  obtain ⟨hbusy, hdone, hfatal⟩ := statusWord_flags s
  obtain ⟨hlow, -, -, hfallback, hhigh⟩ := statusWord_fields s
  refine ⟨getLsbD_eq_of_toNat hbusy, getLsbD_eq_of_toNat hdone, getLsbD_eq_of_toNat hfatal, extract_eq_of_toNat hlow,
    statusWord_errKind (by decide), statusWord_engine (by decide), getLsbD_eq_of_toNat hfallback,
    extract_eq_of_toNat hhigh, ?_⟩
  rw [getLsbD_eq_of_toNat hbusy, getLsbD_eq_of_toNat hfatal]
  cases s.fsm <;> decide

/-- Settles O29: each field is read off its word as a sum, which the invariant keeps below `2^32`. -/
theorem contextConfigAndUsedWords : Obligations.ContextConfigAndUsedWords := by
  intro s hs
  obtain ⟨⟨-, hcap⟩, -, hctx, -⟩ := id hs
  change s.cap ≤ 65535 at hcap
  have hk := hctx.k_lt hcap
  have hcode := s.ctx.state.code_le
  have hstat := ctxstatWord_toNat hk
  have hconfig := configWord_toNat (s := s) (by omega)
  refine ⟨ctxstatWord_state hk, ctxstatWord_state hk, ctxstatWord_state hk, extract_eq_of_toNat ?_, ?_,
    fun hstate => (hctx.2 hstate).2.1, ?_, extract_eq_of_toNat ?_, extract_eq_of_toNat ?_, fun hdefault => ?_,
    usedWord_toNat hs⟩
  · rw [hstat, BitVec.toNat_zero]; omega
  · rw [extract_toNat, hstat]; omega
  · rw [extract_toNat, hconfig]; omega
  · rw [hconfig, BitVec.toNat_ofNat]; omega
  · rw [hconfig, BitVec.toNat_ofNat]; omega
  · exact BitVec.eq_of_toNat_eq (hconfig.trans (by rw [hdefault]; rfl))

/-- Settles O9: each location shows a field that reset clears. -/
theorem resetReadsZero : Obligations.ResetReadsZero := by
  refine ⟨fun l hl => ?_, rfl, rfl, rfl, rfl, rfl, reg_reset⟩
  cases l with
  | config => exact absurd rfl hl
  | used r => rw [State.peek, State.used, reg_reset, len32_zero]
  | limb r i =>
    rw [State.peek, State.limb, reg_reset]
    exact limb_eq_zero_of_len32_le (by simp)
  | cmd | status | arg0 | arg1 | res0 | ctxstat | ctxnprime | unmapped => rfl

/-- Settles O24: offsets 0x000, 0x008 and 0x00C are control registers 0, 2 and 3. -/
theorem acceptLatchesTheWord : Obligations.AcceptLatchesTheWord := by
  intro s w rest hidle
  refine ⟨fun h => ⟨_, ?_, rfl, statusWord_accept { s with turns := rest } w⟩, fun h => ?_, fun h => ?_⟩
  · rw [step_of_control_write (n := 0) (by decide) h]
    simp [controlLoc, State.writeLoc, hidle, State.accept]
  · rw [step_of_control_write (n := 2) (by decide) h]
    simp [controlLoc, State.writeLoc, hidle]
  · rw [step_of_control_write (n := 3) (by decide) h]
    simp [controlLoc, State.writeLoc, hidle]

end Sys2Proof.Machine
end

section
/-! PROOFS. What stands at each offset of the port, and what one read, write or turn of the controller does; it settles O20,
O22, O23, O25 and O26. -/

namespace Sys2Proof.Machine

variable {s t : State} {cap addr : Nat}

/-! ## The address map (20_memory.md R51 to R53, R57) -/

theorem locate_eq_none_iff : locate cap addr = none ↔ portSize cap ≤ addr := by
  rw [← Option.not_isSome_iff_eq_none, locate_isSome, not_lt]

theorem exists_locate (h : addr < portSize cap) : ∃ l, locate cap addr = some l :=
  Option.isSome_iff_exists.1 ((locate_isSome cap addr).2 h)

/-- The misaligned offsets and the two holes of the map (20_memory.md R57). -/
def UnmappedOffset (addr : Nat) : Prop :=
  addr % 4 ≠ 0 ∨ (0x20 ≤ addr ∧ addr < 0x40) ∨ (0x80 ≤ addr ∧ addr < 0x10000)

theorem locate_of_unmappedOffset (h : addr < portSize cap) (hunmapped : UnmappedOffset addr) :
    locate cap addr = some .unmapped := by
  unfold locate
  rw [if_neg (by omega)]
  by_cases hmod : addr % 4 = 0
  · rw [if_neg (by omega)]
    rcases hunmapped with hbad | ⟨hlow, hhigh⟩ | ⟨hlow, hhigh⟩
    · exact absurd hmod hbad
    · rw [if_neg (by omega), if_pos hhigh]
    · rw [if_neg (by omega), if_neg (by omega), if_neg (by omega), if_pos hhigh]
  · rw [if_pos hmod]

/-- Settles O20, window by window. -/
theorem addressMap : Obligations.AddressMap := by
  intro cap
  exact ⟨fun r _ hi => locate_limbAddr r hi, locate_usedAddr,
    locate_control (n := 0) (by decide) cap, locate_control (n := 1) (by decide) cap,
    locate_control (n := 2) (by decide) cap, locate_control (n := 3) (by decide) cap,
    locate_control (n := 4) (by decide) cap, locate_control (n := 5) (by decide) cap,
    locate_control (n := 6) (by decide) cap, locate_control (n := 7) (by decide) cap,
    fun _ => locate_of_unmappedOffset, fun _ => locate_eq_none_iff⟩

/-! ## Reads (20_memory.md R53, R58, R59) -/

@[simp] theorem peek_afterTurn (s : State) (l : Loc) : s.afterTurn.peek l = s.peek l := by cases l <;> rfl

theorem SameBlock.refl (s : State) : SameBlock s s := ⟨rfl, rfl, rfl, rfl, rfl, rfl, rfl, rfl, rfl, rfl, rfl, rfl⟩

/-- Using up a turn changes nothing of the block. -/
theorem SameBlock.of_afterTurn (h : SameBlock s.afterTurn t) : SameBlock s t :=
  ⟨h.config, h.regs, h.ctx, h.arg0, h.arg1, h.res0, h.fsm, h.cmd, h.done, h.errKind, h.engine, h.fallback⟩

theorem readLoc_of_exact {l : Loc} (h : s.fsm ≠ .busy ∨ l.exactWhileBusy = true) :
    s.readLoc l = s.reply (s.peek l) := by
  rw [State.readLoc, if_neg]
  rintro ⟨hbusy, hfree⟩
  rcases h with h | h
  · exact h hbusy
  · simp [hfree] at h

/-- A read gives the host one word, of which nothing is said but at a location that is exact. -/
theorem readLoc_replies (s : State) (l : Loc) :
    ∃ w, (s.readLoc l).replies = w :: s.replies ∧ (s.readLoc l).turns = s.turns
      ∧ (s.fsm ≠ .busy ∨ l.exactWhileBusy = true → w = s.peek l) := by
  by_cases hexact : s.fsm ≠ .busy ∨ l.exactWhileBusy = true
  · rw [readLoc_of_exact hexact]
    exact ⟨_, rfl, rfl, fun _ => rfl⟩
  · have hfree : s.fsm = .busy ∧ l.exactWhileBusy = false := by simpa using hexact
    rw [State.readLoc, if_pos hfree]
    exact ⟨_, rfl, rfl, fun h => absurd h hexact⟩

theorem performAccess_read {l : Loc} (hl : locate s.cap addr = some l) :
    performAccess (.read addr) s = .next (s.readLoc l) := by
  simp [performAccess, hl]

theorem step_of_host_read {rest : List Turn} {l : Loc} (h : s.turns = .host (.read addr) :: rest)
    (hl : locate s.cap addr = some l) : step s = .next (s.afterTurn.readLoc l) := by
  rw [step_of_host h]
  exact performAccess_read (s := s.afterTurn) hl

/-- A read while not BUSY uses up the turn and gives the word the location shows. -/
theorem step_of_exact_read {rest : List Turn} {l : Loc} (h : s.turns = .host (.read addr) :: rest)
    (hl : locate s.cap addr = some l) (hfsm : s.fsm ≠ .busy) : step s = .next (s.afterTurn.reply (s.peek l)) := by
  rw [step_of_host_read h hl, readLoc_of_exact (s := s.afterTurn) (.inl hfsm), peek_afterTurn]

/-- Settles O22: the word is the one the location of the offset shows, where that location is exact. -/
theorem readsHaveNoSideEffect : Obligations.ReadsHaveNoSideEffect := by
  intro s addr rest hturns haddr
  obtain ⟨l, hl⟩ := exists_locate haddr
  obtain ⟨w, hreplies, hrest, hw⟩ := readLoc_replies s.afterTurn l
  rw [peek_afterTurn] at hw
  obtain ⟨-, hused, -, hstatus, harg0, harg1, hres0, hctxstat, hctxnprime, hconfig, -, -⟩ := addressMap s.cap
  have hshown {a : Nat} {l' : Loc} (ha : addr = a) (hl' : locate s.cap a = some l')
      (hexact : s.fsm ≠ .busy ∨ l'.exactWhileBusy = true) : w = s.peek l' := by
    obtain rfl : l = l' := Option.some.inj (hl.symm.trans (ha ▸ hl'))
    exact hw hexact
  refine ⟨_, w, step_of_host_read hturns hl, (readLoc_sameBlock _ l).of_afterTurn, ?_, hreplies,
    fun ha => hshown ha hstatus (.inr rfl), fun ha => hshown (l' := .config) ha hconfig (.inr rfl), fun hfsm => ?_⟩
  · rw [hrest, afterTurn_turns, hturns, List.tail_cons]
  · exact ⟨⟨l, hl, hshown rfl hl (.inl hfsm)⟩, fun ha => hshown ha harg0 (.inl hfsm),
      fun ha => hshown ha harg1 (.inl hfsm), fun ha => hshown ha hres0 (.inl hfsm),
      fun ha => hshown ha hctxstat (.inl hfsm), fun ha => hshown ha hctxnprime (.inl hfsm),
      fun r ha => hshown ha (hused r) (.inl hfsm), fun r _ hi ha => hshown ha (locate_limbAddr r hi) (.inl hfsm)⟩

/-! ## Writes (20_memory.md R57, R59) -/

/-- Settles O23: every offset of the port has a location, and a write to it is dropped. -/
theorem writesDroppedUnlessIdle : Obligations.WritesDroppedUnlessIdle := by
  intro s addr v rest hfsm hturns haddr
  obtain ⟨l, hl⟩ := exists_locate haddr
  rw [step_of_host_write hturns hl, writeLoc_dropped (s := s.afterTurn) hfsm]

/-- The locations that a host write can change (10_state.md R25, R34, R36). -/
def Loc.writable : Loc → Bool
  | .cmd | .arg0 | .arg1 | .limb _ _ => true
  | .status | .res0 | .ctxstat | .ctxnprime | .config | .used _ | .unmapped => false

theorem writeLoc_of_not_writable {l : Loc} (h : l.writable = false) (v : Word) : s.writeLoc l v = s := by
  rcases writeLoc_cases s l v with heq | ⟨-, ⟨rfl, -⟩ | ⟨rfl, -⟩ | ⟨rfl, -⟩ | ⟨r, i, rfl, -⟩⟩
  · exact heq
  all_goals simp [Loc.writable] at h

/-- A control register at or above 0x010 and STATUS are read-only (10_state.md R33, R34). -/
theorem controlLoc_not_writable {n : Nat} (h : n = 1 ∨ 4 ≤ n) : (controlLoc n).writable = false := by
  match n with
  | 1 | 4 | 5 | 6 | 7 | n + 8 => rfl
  | 0 | 2 | 3 => omega

/-- The offsets below the limb window at which a host write changes nothing (20_memory.md R57, 10_state.md R34). -/
theorem exists_locate_not_writable (haddr : addr < portSize cap)
    (h : UnmappedOffset addr ∨ addr = 0x004 ∨ (0x010 ≤ addr ∧ addr < 0x20) ∨ (0x40 ≤ addr ∧ addr < 0x80)) :
    ∃ l, locate cap addr = some l ∧ l.writable = false := by
  by_cases hunmapped : UnmappedOffset addr
  · exact ⟨_, locate_of_unmappedOffset haddr hunmapped, rfl⟩
  · obtain ⟨n, rfl⟩ : ∃ n, addr = 4 * n := ⟨addr / 4, by unfold UnmappedOffset at hunmapped; omega⟩
    rcases h with h | h | h | h
    · exact absurd h hunmapped
    · exact ⟨_, locate_control (by omega) cap, controlLoc_not_writable (by omega)⟩
    · exact ⟨_, locate_control (by omega) cap, controlLoc_not_writable (by omega)⟩
    · obtain ⟨k, rfl⟩ : ∃ k, n = 16 + k := ⟨n - 16, by omega⟩
      have hoffset : 4 * (16 + k) = usedAddr ⟨k, by omega⟩ := Nat.mul_add 4 16 k
      exact ⟨_, hoffset ▸ locate_usedAddr _, rfl⟩

/-- Settles O25: an unmapped offset and CMD show 0, and a write changes a writable location only. -/
theorem unmappedAndReadOnlyAccesses : Obligations.UnmappedAndReadOnlyAccesses := by
  intro s addr v rest hfsm haddr
  refine ⟨fun hoffset hturns => ?_, fun hoffset hturns => ?_⟩
  · by_cases hcmd : addr = 0x000
    · subst hcmd
      exact step_of_exact_read hturns (locate_control (n := 0) (by decide) s.cap) hfsm
    · have hunmapped : UnmappedOffset addr := by unfold UnmappedOffset; omega
      exact step_of_exact_read hturns (locate_of_unmappedOffset haddr hunmapped) hfsm
  · obtain ⟨l, hl, hreadonly⟩ := exists_locate_not_writable haddr (by unfold UnmappedOffset; omega)
    rw [step_of_host_write hturns hl, writeLoc_of_not_writable hreadonly]

/-! ## The controller at rest (20_memory.md R60(d), 60_exceptions.md R238, R239) -/

theorem step_of_not_busy (hfsm : s.fsm ≠ .busy) (hnext : s.controllerNext) : step s = .next s.afterTurn := by
  rcases hnext with hturns | ⟨rest, hturns⟩
  · have hafter : s.afterTurn = s := by cases s; simp_all [State.afterTurn]
    simp [step, nextMove, controllerMove, hturns, hfsm, hafter]
  · simp [step, nextMove, controllerMove, State.afterTurn, hturns, hfsm]

/-- Settles O26: while FATAL a read has no side effect and a write is dropped. -/
theorem stoppedBlockChangesNothing : Obligations.StoppedBlockChangesNothing := by
  refine fun s => ⟨step_of_not_busy, fun t hfatal hstep hnoreset => SameBlock.of_afterTurn ?_⟩
  rcases step_cases hstep with ⟨_, _, rfl⟩ | ⟨_, hbusy, _⟩ | ⟨a, rest, hturns, haccess⟩
  · exact .refl _
  · simp [hfatal] at hbusy
  · rcases performAccess_cases haccess with ⟨_, l, rfl, _, rfl⟩ | ⟨_, v, l, rfl, _, rfl⟩ | ⟨rfl, _⟩
    · exact readLoc_sameBlock _ l
    · rw [writeLoc_dropped (by simp [hfatal])]
      exact .refl _
    · exact absurd hturns (hnoreset rest)

end Sys2Proof.Machine
end

section
/-! PROOFS. Host accesses one after another: the store sequence sets the limbs, the load sequence returns them; it settles
O27. -/

namespace Sys2Proof.Machine

variable {s t : State} {rest : List Turn}

/-! ## Runs of the block -/

theorem run_succ {M : Host.Core} {s t : M.State} (h : M.step s = .next t) (n : Nat) : M.run (n + 1) s = M.run n t := by
  rw [Host.Core.run, h]

/-- One run after another. -/
theorem run_add {M : Host.Core} {s t : M.State} {m : Nat} (h : M.run m s = .next t) (n : Nat) :
    M.run (m + n) s = M.run n t := by
  induction m generalizing s with
  | zero =>
    obtain rfl : s = t := Host.Outcome.next.inj h
    rw [Nat.zero_add]
  | succ m ih =>
    cases hstep : M.step s with
    | next u => rw [Nat.add_right_comm, run_succ hstep, ih (run_succ hstep m ▸ h)]
    | fault r => simp [Host.Core.run, hstep] at h
    | refused r => simp [Host.Core.run, hstep] at h

/-- A run with one more step at its end. -/
theorem run_then_step {n : Nat} {u : State} (h : Sys2Proof.core.run n s = .next t) (hstep : step t = .next u) :
    Sys2Proof.core.run (n + 1) s = .next u :=
  (run_add h 1).trans (run_succ (M := Sys2Proof.core) hstep 0)

/-! ## The store sequence (20_memory.md R63, 10_state.md R25) -/

/-- The first `n` writes of the store sequence (20_memory.md R63). -/
def limbWrites (cap : Nat) (r : Reg) (v n : Nat) : List Turn :=
  (List.range n).map fun i => .host (.write (limbAddr cap r i) (limb v i))

theorem limbWrites_cap (cap : Nat) (r : Reg) (v : Nat) : limbWrites cap r v cap = storeTurns cap r v := rfl

theorem limbWrites_succ (cap : Nat) (r : Reg) (v n : Nat) :
    limbWrites cap r v (n + 1) = limbWrites cap r v n ++ [.host (.write (limbAddr cap r n) (limb v n))] := by
  simp [limbWrites, List.range_succ]

/-- The block after the low `n` limbs of `v` were stored in register `r`, with `rest` of the turns left. -/
structure StoredLimbs (r : Reg) (v n : Nat) (rest : List Turn) (s t : State) : Prop where
  frame : t = { s with regs := t.regs, turns := rest }
  limb : ∀ i < n, t.limb r i = Machine.limb v i
  others : ∀ q, q ≠ r → t.reg q = s.reg q
  fits : t.RegsFit

/-- The first `n` writes of the store sequence, one step each. -/
theorem run_limbWrites {r : Reg} {v n : Nat} (hidle : s.fsm = .idle) (hfit : s.RegsFit) (hn : n ≤ s.cap)
    (hturns : s.turns = limbWrites s.cap r v n ++ rest) :
    ∃ t : State, Sys2Proof.core.run n s = .next t ∧ StoredLimbs r v n rest s t := by
  induction n generalizing rest with
  | zero =>
    obtain rfl : s.turns = rest := hturns
    exact ⟨s, rfl, rfl, by simp, fun _ _ => rfl, hfit⟩
  | succ n ih =>
    rw [limbWrites_succ, List.append_assoc] at hturns
    obtain ⟨t, hrun, hframe, hlimb, hothers, hfit'⟩ := ih (by omega) hturns
    have hcap : t.cap = s.cap := by rw [hframe]
    have hwrite : t.turns = .host (.write (limbAddr t.cap r n) (limb v n)) :: rest := by rw [hcap, hframe]; rfl
    obtain ⟨u, hstep, hsame, hkept, -, hregs, -, hfit'', hframe'⟩ :=
      limbWriteRenormalises t r n (limb v n) rest (by rw [hframe]; exact hidle) hfit' (by omega) hwrite
    refine ⟨u, run_then_step hrun hstep, ?_, fun i hi => ?_, fun q hq => (hregs q hq).trans (hothers q hq), hfit''⟩
    · rw [hframe', afterTurn_of_turns hwrite, hframe]
    · rcases Nat.lt_succ_iff_lt_or_eq.1 hi with hlow | rfl
      · rw [hkept i hlow.ne, hlimb i hlow]
      · exact hsame

/-- Two values of at most `cap` limbs whose limbs agree are equal (10_state.md R21). -/
theorem eq_of_limbs_eq {cap v w : Nat} (hv : v < 2 ^ (32 * cap)) (hw : w < 2 ^ (32 * cap))
    (h : ∀ i < cap, limb v i = limb w i) : v = w := by
  rw [← ofLimbs_toLimbs_of_lt hv, ← ofLimbs_toLimbs_of_lt hw]
  exact congrArg ofLimbs (List.map_congr_left fun i hi => h i (List.mem_range.1 hi))

/-- The whole store sequence leaves `v` in the register. -/
theorem StoredLimbs.reg_eq {r : Reg} {v : Nat} (h : StoredLimbs r v s.cap rest s t) (hv : v < 2 ^ (32 * s.cap)) :
    t.reg r = v := by
  have hcap : t.cap = s.cap := by rw [h.frame]
  exact eq_of_limbs_eq (hcap ▸ h.fits r) hv h.limb

/-! ## The load sequence (20_memory.md R63, R53, R54) -/

/-- The first `n` limb reads of the load sequence (20_memory.md R63). -/
def limbReads (cap : Nat) (r : Reg) (n : Nat) : List Turn :=
  (List.range n).map fun i => .host (.read (limbAddr cap r i))

theorem loadTurns_eq (cap : Nat) (r : Reg) (n : Nat) :
    loadTurns cap r n = .host (.read (usedAddr r)) :: limbReads cap r n := rfl

theorem limbReads_succ (cap : Nat) (r : Reg) (n : Nat) :
    limbReads cap r (n + 1) = limbReads cap r n ++ [.host (.read (limbAddr cap r n))] := by
  simp [limbReads, List.range_succ]

theorem reverse_toLimbs_succ (n v : Nat) : (toLimbs (n + 1) v).reverse = limb v n :: (toLimbs n v).reverse := by
  simp [toLimbs, List.range_succ]

/-- The first `n` limb reads, one step each, return the low `n` limbs. -/
theorem run_limbReads {r : Reg} {n : Nat} (hfsm : s.fsm ≠ .busy) (hn : n ≤ s.cap)
    (hturns : s.turns = limbReads s.cap r n ++ rest) :
    Sys2Proof.core.run n s
      = .next { s with turns := rest, replies := (toLimbs n (s.reg r)).reverse ++ s.replies } := by
  induction n generalizing rest with
  | zero =>
    obtain rfl : s.turns = rest := hturns
    rfl
  | succ n ih =>
    rw [limbReads_succ, List.append_assoc] at hturns
    refine run_then_step (ih (by omega) hturns) ?_
    rw [reverse_toLimbs_succ]
    refine step_of_exact_read (addr := limbAddr s.cap r n) (rest := rest) (l := .limb r n) ?_ ?_ ?_
    · rfl
    · exact locate_limbAddr r hn
    · exact hfsm

/-- The load sequence, one step for each access. -/
theorem run_loadTurns {r : Reg} (hfsm : s.fsm ≠ .busy) (hused : s.used r ≤ s.cap)
    (hturns : s.turns = loadTurns s.cap r (s.used r)) :
    Sys2Proof.core.run (1 + s.used r) s
      = .next { s with turns := [],
                       replies := (toLimbs (s.used r) (s.reg r)).reverse ++ BitVec.ofNat 32 (s.used r) :: s.replies } := by
  rw [loadTurns_eq] at hturns
  have hstep := step_of_exact_read hturns (locate_usedAddr r) hfsm
  rw [afterTurn_of_turns hturns] at hstep
  rw [Nat.add_comm, run_succ (M := Sys2Proof.core) hstep]
  exact run_limbReads hfsm hused (List.append_nil _).symm

/-- Settles O27: after the store the register holds `v`, so the load reads the limb count and the limbs of `v`. -/
theorem storeThenLoadReturnsValue : Obligations.StoreThenLoadReturnsValue := by
  intro s r v hidle hfit hv hturns
  rw [← limbWrites_cap] at hturns
  obtain ⟨t, hstore, hstored⟩ := run_limbWrites hidle hfit le_rfl hturns
  have hreg : t.reg r = v := hstored.reg_eq hv
  have hframe := hstored.frame
  have hcap : t.cap = s.cap := by rw [hframe]
  have hused : t.used r = len32 v := by rw [State.used, hreg]
  have hload := run_loadTurns (s := t) (r := r) (by rw [hframe]; simp [hidle])
    (by rw [hused, hcap]; exact (len32_le_iff ..).2 hv) (by rw [hused, hcap, hframe])
  rw [hused, hreg] at hload
  rw [Nat.add_assoc]
  refine ⟨_, (run_add hstore _).trans hload, hreg, rfl, ?_, hstored.others⟩
  rw [hframe]

end Sys2Proof.Machine
end

section
/-! PROOFS. The encoder undoes the decoder: a row that accepts a word fixes each of its bits; it settles O1 to O4. -/

namespace Sys2Proof

variable {w : Word} {row row₁ row₂ : OpRow} {i : Instr} {rd ra rb rc : Reg}

/-! ## The word that a row accepts (30_encoding.md R70 to R72) -/

/-- A word is its opcode and its register fields when `z` is 0. -/
theorem commandWord_of_fields (hz : w.extractLsb' 0 8 = 0#8) :
    commandWord (opField w) (rdField w) (raField w) (rbField w) (rcField w) = w := by
  have hlow : w.toNat % 2 ^ 8 = 0 := by simpa using congrArg BitVec.toNat hz
  have hw := w.isLt
  apply BitVec.eq_of_toNat_eq
  simp only [commandWord_toNat, opField_toNat, regField_val]
  omega

/-- Bits that the mask keeps whole are those of the row's `match` word. -/
theorem extractLsb'_of_accepts (h : row.accepts w = true) {lo len : Nat}
    (hmask : row.format.mask.extractLsb' lo len = BitVec.allOnes len) :
    w.extractLsb' lo len = row.matchWord.extractLsb' lo len := by
  have hword : w &&& row.format.mask = row.matchWord := by simpa [OpRow.accepts] using h
  rw [← hword, BitVec.extractLsb'_and, hmask, BitVec.and_allOnes]

theorem opField_matchWord (row : OpRow) : opField row.matchWord = row.op := by
  rw [OpRow.matchWord, ← commandWord_zero, opField_commandWord]

theorem extractLsb'_matchWord_low (row : OpRow) {lo len : Nat} (h : lo + len ≤ 24) :
    row.matchWord.extractLsb' lo len = 0#len := by
  rw [OpRow.matchWord, BitVec.extractLsb'_append_eq_of_add_le h, BitVec.extractLsb'_zero]

theorem opField_of_accepts (h : row.accepts w = true) : opField w = row.op := by
  rw [← opField_matchWord]
  exact extractLsb'_of_accepts h (by cases row.format <;> rfl)

theorem regField_of_accepts (h : row.accepts w = true) {lo : Nat} (hlo : lo + 4 ≤ 24)
    (hmask : row.format.mask.extractLsb' lo 4 = BitVec.allOnes 4) : regField lo w = 0 := by
  rw [regField, extractLsb'_of_accepts h hmask, extractLsb'_matchWord_low row hlo]
  rfl

theorem unusedZero_of_accepts (h : row.accepts w = true) :
    row.format.UnusedZero (rdField w) (raField w) (rbField w) (rcField w) := by
  have hzero (lo : Nat) (hlo : lo + 4 ≤ 24) := regField_of_accepts h hlo
  have hd := hzero 20 (by decide)
  have ha := hzero 16 (by decide)
  have hb := hzero 12 (by decide)
  have hc := hzero 8 (by decide)
  cases hf : row.format <;> rw [hf] at hd ha hb hc
  case F0 => exact ⟨hd rfl, ha rfl, hb rfl, hc rfl⟩
  case FD => exact ⟨ha rfl, hb rfl, hc rfl⟩
  case FA => exact ⟨hd rfl, hb rfl, hc rfl⟩
  case FAB => exact ⟨hd rfl, hc rfl⟩
  case FDA => exact ⟨hb rfl, hc rfl⟩
  case FDAB => exact hc rfl
  case FDABC => trivial

theorem commandWord_of_accepts (h : row.accepts w = true) :
    commandWord row.op (rdField w) (raField w) (rbField w) (rcField w) = w := by
  have hz : w.extractLsb' 0 8 = 0#8 :=
    (extractLsb'_of_accepts h (by cases row.format <;> rfl)).trans (extractLsb'_matchWord_low row (by decide))
  rw [← opField_of_accepts h, commandWord_of_fields hz]

/-! ## The rows of the opcode map (30_encoding.md R75, R76) -/

theorem opcodeTable_ops_nodup : (opcodeTable.map OpRow.op).Nodup := by decide

theorem row_eq_of_op_eq (h₁ : row₁ ∈ opcodeTable) (h₂ : row₂ ∈ opcodeTable) (h : row₁.op = row₂.op) : row₁ = row₂ :=
  List.inj_on_of_nodup_map opcodeTable_ops_nodup h₁ h₂ h

theorem findRow_eq_some_iff {op : BitVec 8} : findRow op = some row ↔ row ∈ opcodeTable ∧ row.op = op := by
  constructor
  · intro h
    exact ⟨List.mem_of_find?_eq_some h, by simpa using List.find?_some h⟩
  · rintro ⟨hrow, rfl⟩
    obtain ⟨row', hfound⟩ : ∃ row', findRow row.op = some row' :=
      Option.isSome_iff_exists.1 (List.find?_isSome.2 ⟨row, hrow, beq_self_eq_true _⟩)
    have hop : row'.op = row.op := by simpa using List.find?_some hfound
    rw [hfound, row_eq_of_op_eq (List.mem_of_find?_eq_some hfound) hrow hop]

/-- In each row, the fields that `build` drops are those its format leaves unused, which the encoder writes as 0. -/
theorem encode_build (hrow : row ∈ opcodeTable) (h : row.format.UnusedZero rd ra rb rc) :
    encode (row.build rd ra rb rc) = commandWord row.op rd ra rb rc := by
  fin_cases hrow <;> simp_all [Format.UnusedZero, encode]

/-- Only the row of `DIVMOD` can build a term that is no command (30_encoding.md R74 step 3). -/
theorem wellFormed_build_iff (hrow : row ∈ opcodeTable) :
    (row.build rd ra rb rc).wellFormed = true ↔ (row.op = 0x25#8 → rd ≠ rc) := by
  fin_cases hrow <;> simp [Instr.wellFormed]

/-! ## The decoder (30_encoding.md R74) -/

theorem decode_eq_ok_iff :
    decode w = .ok i ↔ ∃ row ∈ opcodeTable, row.accepts w = true
      ∧ row.build (rdField w) (raField w) (rbField w) (rcField w) = i ∧ i.wellFormed = true := by
  constructor
  · intro h
    simp only [decode] at h
    split at h
    · cases h
    next row hrow =>
      split at h
      next haccepts =>
        split at h
        next hwf =>
          obtain rfl := Except.ok.inj h
          exact ⟨row, (findRow_eq_some_iff.1 hrow).1, haccepts, rfl, hwf⟩
        · cases h
      · cases h
  · rintro ⟨row, hrow, haccepts, rfl, hwf⟩
    have hfound := findRow_eq_some_iff.2 ⟨hrow, (opField_of_accepts haccepts).symm⟩
    simp [decode, hfound, haccepts, hwf]

/-- Settles O2, by the row of the command's opcode. -/
theorem decodeOfEncode : Obligations.DecodeOfEncode := fun _ h => decode_encode h

/-- Settles O3: the row that accepts the word fixes every bit of it but the fields it builds the command from. -/
theorem encodeOfDecode : Obligations.EncodeOfDecode := by
  intro w i h
  obtain ⟨row, hrow, haccepts, rfl, hwf⟩ := decode_eq_ok_iff.1 h
  refine ⟨hwf, ?_⟩
  rw [encode_build hrow (unusedZero_of_accepts haccepts), commandWord_of_accepts haccepts]

/-- Settles O4: the opcode of a word is that of any row that accepts it, so no two rows do. -/
theorem wordSelectsAtMostOneRow : Obligations.WordSelectsAtMostOneRow := by
  refine ⟨opcodeTable_ops_nodup, fun w => ⟨fun row₁ h₁ row₂ h₂ haccepts₁ haccepts₂ => ?_, ?_⟩⟩
  · exact row_eq_of_op_eq h₁ h₂ ((opField_of_accepts haccepts₁).symm.trans (opField_of_accepts haccepts₂))
  · constructor
    · rintro ⟨i, h⟩
      obtain ⟨row, hrow, haccepts, rfl, hwf⟩ := decode_eq_ok_iff.1 h
      exact ⟨row, hrow, haccepts, (wellFormed_build_iff hrow).1 hwf⟩
    · rintro ⟨row, hrow, haccepts, hdiv⟩
      exact ⟨_, decode_eq_ok_iff.2 ⟨row, hrow, haccepts, rfl, (wellFormed_build_iff hrow).2 hdiv⟩⟩

/-- Settles O1: each word is the encoder's word of its command. -/
theorem decodesWrittenOutWords : Obligations.DecodesWrittenOutWords :=
  ⟨decode_encode (i := .add 3 1 2) rfl, decode_encode (i := .zero 5) rfl, decode_encode (i := .cmp 1 2) rfl,
    decode_encode (i := .shl 2 1) rfl, decode_encode (i := .divmod 4 1 2 5) rfl,
    decode_encode (i := .modexp 4 1 2 3) rfl, decode_encode (i := .mdestroy) rfl,
    decode_encode (i := .smodexp 4 1 2 3) rfl, decode_encode (i := .invmod 3 1 2) rfl⟩

end Sys2Proof
end

section
/-! PROOFS. The queries and moves: the word or value each one hands to its completion, by the limbs of its operands; it
settles O30 to O34. -/

namespace Sys2Proof.Machine

variable {s : State} {i : Instr}

/-! ## A command that cannot fail (40_biguint_basic.md R90) -/

theorem onlyRes0_succeed (s : State) (w : Word) (e : Engine) (fb : Bool) :
    OnlyRes0 s (({ s with res0 := w } : State).succeed e fb) :=
  ⟨⟨fun _ _ => rfl, rfl, rfl, rfl, rfl, rfl, rfl, rfl⟩, rfl⟩

/-- A command that completes with a word in RES0 yields that word. -/
theorem yields_of_finishRes {w : Word} (h : exec i s = finishRes s w) : Yields i s w :=
  ⟨_, h.trans (finishRes_eq s w), rfl, ⟨rfl, rfl, rfl, rfl, rfl⟩, onlyRes0_succeed s w _ _⟩

/-- A command that completes with a value in `rd` writes that value. -/
theorem writes_of_finishReg {rd : Reg} {v : Nat} (h : exec i s = finishReg s rd (.ok v)) : Writes i s rd v :=
  (follows_of_finishReg h nofun).1 v rfl

/-! ## A value of one limb (00_scope.md R13) -/

@[simp] theorem limb_zero (i : Nat) : limb 0 i = 0#32 := limb_eq_zero_of_len32_le (Nat.zero_le i)

@[simp] theorem limb_word_zero (w : Word) : limb w.toNat 0 = w := by
  apply BitVec.eq_of_toNat_eq
  rw [limb_toNat, Nat.mul_zero, Nat.pow_zero, Nat.div_one, Nat.mod_eq_of_lt w.isLt]

theorem len32_word_le (w : Word) : len32 w.toNat ≤ 1 := (len32_le_iff ..).2 w.isLt

theorem len32_word (w : Word) : len32 w.toNat = if w = 0#32 then 0 else 1 := by
  split
  · next h => simp [h]
  · next h =>
    have hpos : len32 w.toNat ≠ 0 := fun e => h (BitVec.eq_of_toNat_eq ((len32_eq_zero _).1 e))
    have hle := len32_word_le w
    omega

/-- The test of `ISONE` on the limbs (40_biguint_basic.md R96). -/
theorem eq_one_iff_limbs (v : Nat) : v = 1 ↔ len32 v = 1 ∧ limb v 0 = 1#32 := by
  constructor
  · rintro rfl
    exact ⟨rfl, rfl⟩
  · rintro ⟨hlen, hlimb⟩
    have hv : v < 2 ^ 32 := (len32_le_iff v 1).1 hlen.le
    have hval := congrArg BitVec.toNat hlimb
    rwa [limb_toNat, Nat.mul_zero, Nat.pow_zero, Nat.div_one, Nat.mod_eq_of_lt hv] at hval

/-- The word of an equality test is that of any test equivalent to it. -/
theorem boolWord_beq {v c : Nat} {p : Prop} [Decidable p] (h : v = c ↔ p) :
    boolWord (v == c) = if p then 1#32 else 0#32 :=
  if_congr (beq_iff_eq.trans h) rfl rfl

/-! ## The comparator (40_biguint_basic.md R94) -/

/-- The low `n + 1` limbs are the low `n` limbs below limb `n`. -/
theorem mod_limbs_succ (v n : Nat) :
    v % 2 ^ (32 * (n + 1)) = v % 2 ^ (32 * n) + 2 ^ (32 * n) * (limb v n).toNat := by
  rw [Nat.mul_succ, Nat.pow_add, Nat.mod_mul, limb_toNat]

theorem low_add_lt {P a b x y : Nat} (ha : a < P) (h : x < y) : a + P * x < b + P * y := by
  have hstep : P * (x + 1) ≤ P * y := Nat.mul_le_mul_left P h
  rw [Nat.mul_succ] at hstep
  omega

/-- The scan of the low `n` limbs from the top finds the order of the values that they make. -/
theorem compareLimbs_eq_compare (a b n : Nat) :
    compareLimbs a b n = compare (a % 2 ^ (32 * n)) (b % 2 ^ (32 * n)) := by
  induction n with
  | zero => simp [compareLimbs, Nat.mod_one]
  | succ n ih =>
    have hlow (v : Nat) : v % 2 ^ (32 * n) < 2 ^ (32 * n) := Nat.mod_lt _ (Nat.two_pow_pos _)
    rw [compareLimbs, mod_limbs_succ, mod_limbs_succ b, ih]
    rcases Nat.lt_trichotomy (limb a n).toNat (limb b n).toNat with hlt | heq | hgt
    · rw [if_pos hlt, Nat.compare_eq_lt.2 (low_add_lt (hlow a) hlt)]
    · rw [heq, if_neg (Nat.lt_irrefl _), if_neg (Nat.lt_irrefl _)]
      simp [Nat.compare_eq_ite_lt]
    · rw [if_neg hgt.not_gt, if_pos hgt, Nat.compare_eq_gt.2 (low_add_lt (hlow b) hgt)]

theorem compareLimbs_of_fits {a b cap : Nat} (ha : a < 2 ^ (32 * cap)) (hb : b < 2 ^ (32 * cap)) :
    compareLimbs a b cap = compare a b := by
  rw [compareLimbs_eq_compare, Nat.mod_eq_of_lt ha, Nat.mod_eq_of_lt hb]

/-! ## The bit length and the top limb (40_biguint_basic.md R97) -/

theorem two_pow_bitlen_pred_le {v : Nat} (h : v ≠ 0) : 2 ^ (bitlen v - 1) ≤ v := by
  have hpos : bitlen v ≠ 0 := fun e => h ((bitlen_eq_zero v).1 e)
  exact (lt_bitlen_iff v _).1 (by omega)

theorem bitlen_div_two_pow (v k : Nat) : bitlen (v / 2 ^ k) = bitlen v - k := by
  refine eq_of_forall_ge_iff fun L => ?_
  calc bitlen (v / 2 ^ k) ≤ L ↔ v < 2 ^ L * 2 ^ k := by rw [bitlen_le_iff, Nat.div_lt_iff_lt_mul (Nat.two_pow_pos k)]
    _ ↔ bitlen v ≤ L + k := by rw [bitlen_le_iff, Nat.pow_add]
    _ ↔ bitlen v - k ≤ L := by omega

/-- Nothing stands above the top limb. -/
theorem limb_top_toNat (v : Nat) : (limb v (len32 v - 1)).toNat = v / 2 ^ (32 * (len32 v - 1)) := by
  have hv : v < 2 ^ (32 * (len32 v - 1)) * 2 ^ 32 := by
    rw [← Nat.pow_add, ← Nat.mul_succ, ← len32_le_iff]
    omega
  rw [limb_toNat, Nat.mod_eq_of_lt (Nat.div_lt_of_lt_mul hv)]

/-- The full limbs below the top one, and the bits of the top one. -/
theorem bitlen_eq_top_limb {v : Nat} (h : v ≠ 0) :
    bitlen v = 32 * (len32 v - 1) + bitlen (limb v (len32 v - 1)).toNat := by
  have hpos : len32 v ≠ 0 := fun e => h ((len32_eq_zero v).1 e)
  have hlow : 32 * (len32 v - 1) < bitlen v := by
    rw [lt_bitlen_iff, ← lt_len32_iff]
    omega
  rw [limb_top_toNat, bitlen_div_two_pow]
  omega

/-- A bit length is a word (30_encoding.md R73). -/
theorem countWord_bitlen_toNat {v cap : Nat} (hv : v < 2 ^ (32 * cap)) (hcap : cap ≤ 65535) :
    (countWord (bitlen v)).toNat = bitlen v := by
  have hle : bitlen v ≤ 32 * cap := (bitlen_le_iff ..).2 hv
  rw [countWord, BitVec.toNat_ofNat, Nat.mod_eq_of_lt (by omega)]

/-! ## One bit (40_biguint_basic.md R98) -/

theorem bitOf_eq_one (v i : Nat) : (bitOf v i == 1) = v.testBit i := by
  rw [Nat.testBit_eq_decide_div_mod_eq, bitOf, Nat.shiftRight_eq_div_pow]
  rfl

/-- Bit `i` of a value is bit `i mod 32` of limb `i div 32`. -/
theorem getLsbD_limb (v i : Nat) : (limb v (i / 32)).getLsbD (i % 32) = v.testBit i := by
  rw [limb, BitVec.getLsbD_ofNat, Nat.testBit_shiftRight, Nat.div_add_mod]
  simp [Nat.mod_lt]

/-! ## The statements -/

/-- Settles O30: each value has at most one limb, or is that of `ra`. -/
theorem constantsAndCopies : Obligations.ConstantsAndCopies := by
  intro s rd ra
  refine ⟨⟨0, writes_of_finishReg rfl, limb_zero, len32_zero⟩,
    ⟨s.arg0.toNat, writes_of_finishReg rfl, limb_word_zero _, fun i hi => ?_, len32_word _⟩,
    s.reg ra, writes_of_finishReg rfl, fun _ => rfl, rfl⟩
  exact limb_eq_zero_of_len32_le ((len32_word_le _).trans hi)

/-- Settles O31: the scan of all `CAP` limbs is the comparison of the values. -/
theorem compareScansFromTheTop : Obligations.CompareScansFromTheTop := by
  intro s ra rb hfit
  have hcmp : Yields (.cmp ra rb) s (orderWord (compare (s.reg ra) (s.reg rb))) := yields_of_finishRes rfl
  refine ⟨?_, fun hlt => ?_, fun heq => ?_, fun hgt => ?_⟩
  · rwa [compareLimbs_of_fits (hfit ra) (hfit rb)]
  · rwa [Nat.compare_eq_lt.2 hlt] at hcmp
  · rwa [Nat.compare_eq_eq.2 heq] at hcmp
  · rwa [Nat.compare_eq_gt.2 hgt] at hcmp

/-- Settles O32: `used = 0` is the value 0, `used = 1` with limb 1 is the value 1. -/
theorem zeroAndOneTestsByLimbs : Obligations.ZeroAndOneTestsByLimbs := by
  intro s ra
  have hzero : boolWord (s.reg ra == 0) = if s.used ra = 0 then 1#32 else 0#32 := boolWord_beq (len32_eq_zero _).symm
  have hone : boolWord (s.reg ra == 1) = if s.used ra = 1 ∧ s.limb ra 0 = 1#32 then 1#32 else 0#32 :=
    boolWord_beq (eq_one_iff_limbs _)
  exact ⟨yields_of_finishRes (congrArg (finishRes s) hzero), yields_of_finishRes (congrArg (finishRes s) hone)⟩

/-- Settles O33: the bit length of the value is that of its top limb above the full limbs below it. -/
theorem bitLengthFromTopLimb : Obligations.BitLengthFromTopLimb := by
  intro s ra ⟨⟨_, hcap⟩, hfit, _, _⟩
  refine ⟨_, yields_of_finishRes rfl, fun h => by rw [h]; rfl, fun h => ?_⟩
  have htop : (s.limb ra (s.used ra - 1)).toNat ≠ 0 := fun e => limb_top_ne_zero h (BitVec.eq_of_toNat_eq e)
  rw [countWord_bitlen_toNat (hfit ra) hcap]
  exact ⟨two_pow_bitlen_pred_le h, lt_two_pow_bitlen _, _, bitlen_eq_top_limb h, two_pow_bitlen_pred_le htop,
    lt_two_pow_bitlen _⟩

/-- Settles O34: the bit of the value is that of its limb. -/
theorem bitFromItsLimb : Obligations.BitFromItsLimb := by
  intro s ra
  have hbit : Yields (.getbit ra) s (boolWord (getBit s.cap (s.reg ra) s.arg0.toNat)) := yields_of_finishRes rfl
  rw [getBit, bitOf_eq_one, ← getLsbD_limb] at hbit
  split at hbit
  · next h => rwa [if_pos h]
  · next h => rwa [if_neg h]

end Sys2Proof.Machine
end

section
/-! PROOFS. A command that hands a helper's answer to its completion, and the shifter; it settles O35 and O36. -/

namespace Sys2Proof.Machine

variable {s t : State} {i : Instr}

/-! ## A command that may raise (10_state.md R28(c)) -/

/-- A command that hands on a helper's value writes it. -/
theorem writes_of_ok {rd : Reg} {r : Except ErrKind Nat} {v : Nat} (h : exec i s = finishReg s rd r) (hr : r = .ok v) :
    Writes i s rd v := writes_of_finishReg (hr ▸ h)

/-- A command that completes with a kind that is not fatal raises it. -/
theorem raises_of_finish {kind : ErrKind} (h : exec i s = finish s (.error kind))
    (hkind : kind ≠ .internalInvariantBroken) : Raises i s kind :=
  (follows_of_finishReg (rd := 0) (r := .error kind) h (by simpa using hkind)).2 kind rfl

/-- A command that hands on a helper's kind raises it. -/
theorem raises_of_error {rd : Reg} {r : Except ErrKind Nat} {kind : ErrKind} (h : exec i s = finishReg s rd r)
    (hr : r = .error kind) (hkind : kind ≠ .internalInvariantBroken) : Raises i s kind :=
  raises_of_finish (h.trans (congrArg (finishReg s rd) hr)) hkind

/-- A command that succeeds had its value from the helper, and is over with it in `rd`. -/
theorem exists_ok_of_finishReg {rd : Reg} {r : Except ErrKind Nat} (h : finishReg s rd r = .next t)
    (hkind : t.errKind = none) : ∃ v, r = .ok v ∧ t = (s.setReg rd v).succeed := by
  cases r with
  | ok v => exact ⟨v, rfl, (Host.Outcome.next.inj h).symm⟩
  | error kind =>
    obtain rfl := Host.Outcome.next.inj h
    cases hkind

/-! ## Shifts of a value (41_biguint_arith.md R111, R112) -/

/-- Everything `bigShl` can answer. -/
theorem bigShl_cases (cap a bits : Nat) :
    (¬ (a ≠ 0 ∧ bitlen a + bits > 32 * cap) ∧ bigShl cap a bits = .ok (a * 2 ^ bits)) ∨
      ((a ≠ 0 ∧ bitlen a + bits > 32 * cap) ∧ bigShl cap a bits = .error .overflow) := by
  unfold bigShl
  split
  · next h => exact .inr ⟨h, rfl⟩
  · next h =>
    refine .inl ⟨h, ?_⟩
    split
    · next ha => rw [ha, Nat.zero_mul]
    · rw [Nat.shiftLeft_eq]

theorem bigShr_eq_div (a bits : Nat) : bigShr a bits = a / 2 ^ bits := by
  unfold bigShr
  split
  · next h => rw [Nat.div_eq_of_lt ((bitlen_le_iff ..).1 h)]
  · rw [Nat.shiftRight_eq_div_pow]

/-- A right shift undoes a left shift that did not overflow (41_biguint_arith.md R127, property 5). -/
theorem shiftIdentity (cap a k : Nat) : ShiftIdentity cap a k := by
  intro c hc
  rcases bigShl_cases cap a k with ⟨-, e⟩ | ⟨-, e⟩ <;> rw [e] at hc <;> cases hc
  rw [bigShr_eq_div, Nat.mul_div_cancel _ (Nat.two_pow_pos k)]

/-! ## The limbs of a shifted value (41_biguint_arith.md R111) -/

/-- Whole limbs shifted in are zero. -/
theorem limb_mul_limbs_low {q j : Nat} (h : j < q) (v : Nat) : limb (v * 2 ^ (32 * q)) j = 0#32 := by
  rw [← limb_mod_of_lt h, Nat.mul_mod_left, limb_zero]

/-- A shift by whole limbs moves each limb. -/
theorem limb_mul_limbs_high (v q j : Nat) : limb (v * 2 ^ (32 * q)) (q + j) = limb v j := by
  rw [← limb_div, Nat.mul_div_cancel _ (Nat.two_pow_pos _)]

/-- The lowest limb loses its high bits in a shift. -/
theorem limb_zero_mul_two_pow (a t : Nat) :
    (limb (a * 2 ^ t) 0).toNat = ((limb a 0).toNat <<< t) % limbBase := by
  simp [limb_toNat, Nat.shiftLeft_eq, limbBase, Nat.mod_mul_mod]

/-- A limb above takes the high bits of the limb below it. -/
theorem limb_succ_mul_two_pow {t : Nat} (ht : t ≤ 32) (a j : Nat) :
    (limb (a * 2 ^ t) (j + 1)).toNat
      = ((limb a (j + 1)).toNat <<< t) % limbBase + (limb a j).toNat >>> (32 - t) := by
  have hword : limbBase = 2 ^ (32 - t) * 2 ^ t := by rw [← Nat.pow_add, Nat.sub_add_cancel ht]
  have hpow : 2 ^ (32 * (j + 1)) = 2 ^ (32 * j) * limbBase := by rw [Nat.mul_succ, Nat.pow_add]
  simp only [limb_toNat, Nat.shiftLeft_eq, Nat.shiftRight_eq_div_pow, hpow, show 2 ^ 32 = limbBase from rfl]
  rw [hword, ← Nat.mul_assoc, Nat.mul_div_mul_right _ _ (Nat.two_pow_pos t), ← Nat.div_div_eq_div_mul,
    ← Nat.div_div_eq_div_mul, ← Nat.div_div_eq_div_mul]
  generalize a / 2 ^ (32 * j) = x
  rw [Nat.mod_mul_mod, Nat.mul_mod_mul_right, Nat.mod_mul_right_div_self, Nat.mul_comm (2 ^ (32 - t)), Nat.mod_mul]
  ring

/-- The shifter's formula gives the limbs of the product (41_biguint_arith.md R111). -/
theorem limb_shl (a bits j : Nat) : (limb (a * 2 ^ bits) j).toNat = shlLimb a bits j := by
  have hmul : a * 2 ^ bits = a * 2 ^ (bits % 32) * 2 ^ (32 * (bits / 32)) := by
    rw [Nat.mul_assoc, ← Nat.pow_add, Nat.mod_add_div]
  have ht : bits % 32 ≤ 32 := (Nat.mod_lt bits (by decide)).le
  rw [hmul]
  unfold shlLimb
  generalize bits % 32 = t at ht ⊢
  generalize bits / 32 = q
  rcases Nat.lt_or_ge j q with hlow | hhigh
  · simp [hlow, limb_mul_limbs_low]
  · obtain ⟨d, rfl⟩ := Nat.exists_eq_add_of_le hhigh
    rw [limb_mul_limbs_high]
    by_cases hzero : t = 0
    · simp [hzero]
    · cases d with
      | zero => simp [hzero, limb_zero_mul_two_pow]
      | succ d => simp [hzero, limb_succ_mul_two_pow ht]

/-! ## The statements -/

/-- Settles O35: the helper answers the product or `Overflow`, and the shifter gives the product's limbs. -/
theorem shiftLeftByLimbs : Obligations.ShiftLeftByLimbs := by
  intro s rd ra
  rcases bigShl_cases s.cap (s.reg ra) s.arg0.toNat with ⟨hfit, e⟩ | ⟨hover, e⟩
  · exact ⟨fun h => absurd h hfit, fun _ => ⟨writes_of_ok rfl e, limb_shl _ _⟩⟩
  · exact ⟨fun _ => raises_of_error (rd := rd) rfl e nofun, fun h => absurd hover h⟩

/-- Settles O36: SHR is the floor, and the shift identity holds of the value that SHL left in `rd`. -/
theorem shiftRightIsFloorAndUndoes : Obligations.ShiftRightIsFloorAndUndoes := by
  refine fun s rd ra => ⟨writes_of_ok rfl (congrArg Except.ok (bigShr_eq_div ..)), fun t ht hkind => ?_⟩
  obtain ⟨v, hv, rfl⟩ := exists_ok_of_finishReg ht hkind
  refine writes_of_ok rfl (congrArg Except.ok ?_)
  rw [reg_succeed, reg_setReg_same]
  exact shiftIdentity _ _ _ v hv

end Sys2Proof.Machine
end

section
/-! PROOFS. The carry and borrow chains over limbs compute the exact integers; it settles O37, O38 and O42. -/

namespace Sys2Proof.Machine

variable {s : State} {cap n v : Nat} {out : List Word × Nat}

/-! ## Carry chains (41_biguint_arith.md R114, R123) -/

/-- The `n` limbs and the final carry of a chain make the integer `v`. -/
structure ChainSum (n : Nat) (out : List Word × Nat) (v : Nat) : Prop where
  length : out.1.length = n
  sum : ofLimbs out.1 + 2 ^ (32 * n) * out.2 = v

/-- A chain that starts with the limb of `t` and hands on its carry. -/
theorem ChainSum.cons {t : Nat} (h : ChainSum n out (v + t / limbBase)) :
    ChainSum (n + 1) (BitVec.ofNat 32 t :: out.1, out.2) (t + limbBase * v) := by
  refine ⟨congrArg (· + 1) h.length, ?_⟩
  have hpow : 2 ^ (32 * (n + 1)) * out.2 = limbBase * (2 ^ (32 * n) * out.2) := by
    rw [Nat.mul_succ, Nat.pow_add]; ring
  have hdigit : t % limbBase + limbBase * (t / limbBase) = t := Nat.mod_add_div t limbBase
  calc ofLimbs (BitVec.ofNat 32 t :: out.1) + 2 ^ (32 * (n + 1)) * out.2
      = t % limbBase + limbBase * (ofLimbs out.1 + 2 ^ (32 * n) * out.2) := by
        rw [hpow, ofLimbs, BitVec.toNat_ofNat]; ring
    _ = t + limbBase * v := by rw [h.sum, Nat.mul_add]; omega

theorem ChainSum.limbs_lt (h : ChainSum n out v) : ofLimbs out.1 < 2 ^ (32 * n) := h.length ▸ ofLimbs_lt out.1

/-- The final carry says whether the integer fits, and when it does the limbs are the integer. -/
theorem ChainSum.within (h : ChainSum cap out v) :
    within cap v = if out.2 ≠ 0 then .error .overflow else .ok (ofLimbs out.1) := by
  have hlt := h.limbs_lt
  have hsum := h.sum
  split
  · next hcarry =>
    refine within_overflow ?_
    have := Nat.le_mul_of_pos_right (2 ^ (32 * cap)) (Nat.pos_of_ne_zero hcarry)
    omega
  · next hcarry =>
    rw [not_not.1 hcarry, Nat.mul_zero, Nat.add_zero] at hsum
    rw [← hsum, within_ok hlt]

theorem within_ne_broken (cap v : Nat) : within cap v ≠ .error .internalInvariantBroken := by
  rcases within_cases cap v with ⟨-, e⟩ | ⟨-, e⟩ <;> rw [e] <;> simp

/-- The adder's chain makes the sum. -/
theorem chainSum_adderLimbs (n a b carry : Nat) :
    ChainSum n (adderLimbs (toLimbs n a) (toLimbs n b) carry)
      (ofLimbs (toLimbs n a) + ofLimbs (toLimbs n b) + carry) := by
  induction n generalizing a b carry with
  | zero => exact ⟨rfl, by simp [toLimbs, adderLimbs, ofLimbs]⟩
  | succ n ih =>
    simp only [toLimbs_succ, adderLimbs, ofLimbs]
    convert (ih (a / 2 ^ 32) (b / 2 ^ 32) _).cons using 1
    ring

/-- The multiply-add scan makes the product with the word and the carry. -/
theorem chainSum_mulAddScan (n a w carry : Nat) :
    ChainSum n (mulAddScan w (toLimbs n a) carry) (ofLimbs (toLimbs n a) * w + carry) := by
  induction n generalizing a carry with
  | zero => exact ⟨rfl, by simp [toLimbs, mulAddScan, ofLimbs]⟩
  | succ n ih =>
    simp only [toLimbs_succ, mulAddScan, ofLimbs]
    convert (ih (a / 2 ^ 32) _).cons using 1
    ring

/-- The adder's final carry is at most 1, so its test finds every carry (41_biguint_arith.md R114). -/
theorem adderDatapath_eq {a b : Nat} (ha : a < 2 ^ (32 * cap)) (hb : b < 2 ^ (32 * cap)) :
    adderDatapath cap a b = bigAdd cap a b := by
  have hchain := chainSum_adderLimbs cap a b 0
  rw [ofLimbs_toLimbs_of_lt ha, ofLimbs_toLimbs_of_lt hb, Nat.add_zero] at hchain
  have hcarry : (adderLimbs (toLimbs cap a) (toLimbs cap b) 0).2 < 2 :=
    lt_of_mul_lt_mul_left (a := 2 ^ (32 * cap)) (by have := hchain.sum; omega) (Nat.zero_le _)
  rw [bigAdd, hchain.within]
  exact if_congr (by omega) rfl rfl

theorem mulAddDatapath_eq {a : Nat} (ha : a < 2 ^ (32 * cap)) (w c : Nat) :
    mulAddDatapath cap a w c = bigMulAddWord cap a w c := by
  have hchain := chainSum_mulAddScan cap a w c
  rw [ofLimbs_toLimbs_of_lt ha] at hchain
  exact hchain.within.symm

/-! ## The borrow chain (41_biguint_arith.md R116) -/

/-- The `n` limbs and the final borrow of a chain make the difference of `x` and `y`. -/
structure ChainDiff (n : Nat) (out : List Word × Nat) (x y : Nat) : Prop where
  length : out.1.length = n
  diff : ofLimbs out.1 + y = x + 2 ^ (32 * n) * out.2

/-- A chain that starts with the limb `t`, the difference of the limbs `x₀` and `y₀`, and hands on its borrow. -/
theorem ChainDiff.cons {t x₀ y₀ borrow x y : Nat} (ht : t < limbBase) (hlimb : t + y₀ = x₀ + limbBase * borrow)
    (h : ChainDiff n out x (y + borrow)) :
    ChainDiff (n + 1) (BitVec.ofNat 32 t :: out.1, out.2) (x₀ + limbBase * x) (y₀ + limbBase * y) := by
  refine ⟨congrArg (· + 1) h.length, ?_⟩
  have hrest := congrArg (limbBase * ·) h.diff
  have hpow : 2 ^ (32 * (n + 1)) * out.2 = limbBase * (2 ^ (32 * n) * out.2) := by
    rw [Nat.mul_succ, Nat.pow_add]; ring
  simp only [Nat.mul_add] at hrest
  rw [hpow, ofLimbs, BitVec.toNat_ofNat, Nat.mod_eq_of_lt ht]
  omega

/-- The subtractor's chain makes the difference. -/
theorem chainDiff_subtractorLimbs {borrow : Nat} (hborrow : borrow ≤ 1) (n a b : Nat) :
    ChainDiff n (subtractorLimbs (toLimbs n a) (toLimbs n b) borrow)
      (ofLimbs (toLimbs n a)) (ofLimbs (toLimbs n b) + borrow) := by
  induction n generalizing a b borrow with
  | zero => exact ⟨rfl, by simp [toLimbs, subtractorLimbs, ofLimbs]⟩
  | succ n ih =>
    have ha := (limb a 0).isLt
    have hb := (limb b 0).isLt
    rw [toLimbs_succ, toLimbs_succ, ofLimbs, ofLimbs, Nat.add_right_comm, subtractorLimbs]
    by_cases hshort : (limb a 0).toNat < (limb b 0).toNat + borrow
    · simp only [hshort, decide_true, if_true]
      exact ChainDiff.cons (by simp only [limbBase]; omega) (by simp only [limbBase]; omega) (ih le_rfl _ _)
    · simp only [hshort, decide_false, Bool.false_eq_true, if_false]
      exact ChainDiff.cons (by simp only [limbBase]; omega) (by omega) (ih (Nat.zero_le 1) _ _)

theorem bigSub_ok {a b : Nat} (h : b ≤ a) : bigSub a b = .ok (a - b) := if_neg (not_lt.2 h)

theorem bigSub_underflow {a b : Nat} (h : a < b) : bigSub a b = .error .underflow := if_pos h

theorem bigSub_ne_broken (a b : Nat) : bigSub a b ≠ .error .internalInvariantBroken := by
  unfold bigSub
  split <;> nofun

/-- The final borrow is 1 when the second value is the larger, else 0, and then the limbs are the difference. -/
theorem ChainDiff.bigSub {x y : Nat} (h : ChainDiff n out x y) (hy : y < 2 ^ (32 * n)) :
    bigSub x y = if out.2 = 1 then .error .underflow else .ok (ofLimbs out.1) := by
  have hlt : ofLimbs out.1 < 2 ^ (32 * n) := h.length ▸ ofLimbs_lt out.1
  have hdiff := h.diff
  match hborrow : out.2 with
  | 0 =>
    rw [hborrow, Nat.mul_zero, Nat.add_zero] at hdiff
    rw [bigSub_ok (by omega), ← hdiff, Nat.add_sub_cancel]
    rfl
  | 1 =>
    rw [hborrow, Nat.mul_one] at hdiff
    exact bigSub_underflow (by omega)
  | k + 2 =>
    rw [hborrow, Nat.mul_succ, Nat.mul_succ] at hdiff
    omega

theorem subtractorDatapath_eq {a b : Nat} (ha : a < 2 ^ (32 * cap)) (hb : b < 2 ^ (32 * cap)) :
    subtractorDatapath cap a b = bigSub a b := by
  have hchain := chainDiff_subtractorLimbs (Nat.zero_le 1) cap a b
  rw [ofLimbs_toLimbs_of_lt ha, ofLimbs_toLimbs_of_lt hb, Nat.add_zero] at hchain
  exact (hchain.bigSub hb).symm

/-- Subtraction undoes an addition that did not overflow (41_biguint_arith.md R127, property 4). -/
theorem addSubInverse (cap a b : Nat) : AddSubInverse cap a b := by
  intro c hc
  rcases within_cases cap (a + b) with ⟨-, e⟩ | ⟨-, e⟩ <;> rw [bigAdd, e] at hc <;> cases hc
  rw [bigSub_ok (Nat.le_add_left b a), Nat.add_sub_cancel]

/-! ## The statements -/

/-- A command that hands on a value tested against the capacity follows the test. -/
theorem follows_within {i : Instr} {rd : Reg} {v : Nat} (h : exec i s = finishReg s rd (within s.cap v)) :
    Follows i s rd (within s.cap v) ∧ (v < 2 ^ (32 * s.cap) → Writes i s rd v)
      ∧ (2 ^ (32 * s.cap) ≤ v → Raises i s .overflow) :=
  ⟨follows_of_finishReg h (within_ne_broken s.cap v), fun hv => writes_of_ok h (within_ok hv),
    fun hv => raises_of_error h (within_overflow hv) nofun⟩

/-- Settles O37: the adder's answer is the helper's, the sum tested against the capacity. -/
theorem addFollowsTheAdder : Obligations.AddFollowsTheAdder := by
  intro s rd ra rb hfit
  rw [adderDatapath_eq (hfit ra) (hfit rb)]
  exact follows_within rfl

/-- Settles O38: the subtractor's answer is the helper's, and the ADD left the sum in `rd` and `rb` as it was. -/
theorem subFollowsTheSubtractor : Obligations.SubFollowsTheSubtractor := by
  intro s rd ra rb hfit
  rw [subtractorDatapath_eq (hfit ra) (hfit rb)]
  refine ⟨follows_of_finishReg rfl (bigSub_ne_broken _ _), fun h => writes_of_ok rfl (bigSub_ok h),
    fun h => raises_of_error (rd := rd) rfl (bigSub_underflow h) nofun, fun t ht hkind hne => ?_⟩
  obtain ⟨v, hv, rfl⟩ := exists_ok_of_finishReg ht hkind
  refine writes_of_ok rfl ?_
  rw [reg_succeed, reg_succeed, reg_setReg_same, reg_setReg_other _ hne.symm]
  exact addSubInverse _ _ _ v hv

/-- Settles O42: the scan's answer is the helper's, ADDW being the scan with the word 1. -/
theorem wordCommandsFollowTheScan : Obligations.WordCommandsFollowTheScan := by
  intro s rd ra hfit
  have hone : bigMulAddWord s.cap (s.reg ra) 1 s.arg0.toNat = bigAddWord s.cap (s.reg ra) s.arg0.toNat := by
    rw [bigMulAddWord, Nat.mul_one, bigAddWord]
  rw [mulAddDatapath_eq (hfit ra), mulAddDatapath_eq (hfit ra), hone]
  obtain ⟨hfollows, hwrites, hraises⟩ := follows_within (s := s) (i := .muladdw rd ra) (rd := rd) rfl
  exact ⟨hfollows, hwrites, hraises, follows_within rfl⟩

end Sys2Proof.Machine
end

section
/-! PROOFS. The rows of the schoolbook multiplier compute the product; it settles O39. -/

namespace Sys2Proof.Machine

/-! ## One row (41_biguint_arith.md R118) -/

/-- The carry of one multiply-accumulate step is a limb again. -/
theorem mulAcc_carry_lt (o x y : Word) {carry : Nat} (h : carry < limbBase) :
    (o.toNat + x.toNat * y.toNat + carry) / limbBase < limbBase := by
  have hprod : x.toNat * y.toNat ≤ (limbBase - 1) * (limbBase - 1) :=
    Nat.mul_le_mul (Nat.le_sub_one_of_lt x.isLt) (Nat.le_sub_one_of_lt y.isLt)
  have ho := o.isLt
  simp only [limbBase] at *
  omega

/-- A row adds `x · b` and the carry to the limbs of the buffer below the next one, which it overwrites with its carry. -/
theorem mulRow_spec (x : Word) {lo b : List Word} (hlen : lo.length = b.length) {carry : Nat} (hcarry : carry < limbBase)
    (next : Word) (os : List Word) :
    ∃ row, mulRow x (lo ++ next :: os) b carry = row ++ os ∧ row.length = b.length + 1
      ∧ ofLimbs row = ofLimbs lo + x.toNat * ofLimbs b + carry := by
  induction lo generalizing b carry with
  | nil =>
    obtain rfl : b = [] := List.eq_nil_of_length_eq_zero hlen.symm
    exact ⟨[BitVec.ofNat 32 carry], rfl, rfl, by simp [ofLimbs, Nat.mod_eq_of_lt hcarry]⟩
  | cons o lo ih =>
    cases b with
    | nil => cases hlen
    | cons y b =>
      obtain ⟨row, hrow, hlength, hval⟩ := ih (Nat.succ.inj hlen) (mulAcc_carry_lt o x y hcarry)
      refine ⟨BitVec.ofNat 32 (o.toNat + x.toNat * y.toNat + carry) :: row, congrArg (_ :: ·) hrow,
        congrArg (· + 1) hlength, ?_⟩
      have hdigit := Nat.mod_add_div (o.toNat + x.toNat * y.toNat + carry) limbBase
      calc ofLimbs (BitVec.ofNat 32 (o.toNat + x.toNat * y.toNat + carry) :: row)
          = ((o.toNat + x.toNat * y.toNat + carry) % limbBase
              + limbBase * ((o.toNat + x.toNat * y.toNat + carry) / limbBase))
              + limbBase * (ofLimbs lo + x.toNat * ofLimbs b) := by
            rw [ofLimbs, hval, BitVec.toNat_ofNat]; ring
        _ = ofLimbs (o :: lo) + x.toNat * ofLimbs (y :: b) + carry := by
            rw [hdigit, ofLimbs, ofLimbs]; ring

/-! ## All rows -/

theorem ofLimbs_replicate_zero (n : Nat) : ofLimbs (List.replicate n 0#32) = 0 := by
  induction n with
  | zero => rfl
  | succ n ih => simp [List.replicate_succ, ofLimbs, ih]

/-- The rows add the product to the limbs `lo` of the buffer, above which it is zero. -/
theorem ofLimbs_mulRows (xs : List Word) {b lo : List Word} (hlen : lo.length = b.length) (spare : Nat) :
    ofLimbs (mulRows xs b (lo ++ List.replicate (xs.length + spare) 0#32)) = ofLimbs lo + ofLimbs xs * ofLimbs b := by
  induction xs generalizing lo with
  | nil => simp [mulRows, ofLimbs, ofLimbs_append, ofLimbs_replicate_zero]
  | cons x xs ih =>
    obtain ⟨row, hrow, hlength, hval⟩ :=
      mulRow_spec x hlen (by decide : 0 < limbBase) 0#32 (List.replicate (xs.length + spare) 0#32)
    cases row with
    | nil => cases hlength
    | cons o row =>
      rw [List.length_cons, Nat.add_right_comm, List.replicate_succ, mulRows, hrow]
      simp only [List.cons_append, ofLimbs] at hval ⊢
      rw [ih (Nat.succ.inj hlength), Nat.mul_add, ← Nat.add_assoc, hval]
      ring

theorem multiplierDatapath_eq (cap a b : Nat) : multiplierDatapath cap a b = bigMul cap a b := by
  have hrows := ofLimbs_mulRows (toLimbs (len32 a) a) (b := toLimbs (len32 b) b)
    (lo := List.replicate (len32 b) 0#32) (by simp) 1
  rw [← List.replicate_add, toLimbs_length, ← Nat.add_assoc, Nat.add_comm (len32 b), ofLimbs_replicate_zero, Nat.zero_add,
    ofLimbs_toLimbs_of_lt (lt_two_pow_len32 a), ofLimbs_toLimbs_of_lt (lt_two_pow_len32 b)] at hrows
  rw [multiplierDatapath, hrows, bigMul]

/-- Settles O39: the multiplier's answer is the helper's, the product after the test of the limb counts. -/
theorem mulFollowsTheMultiplier : Obligations.MulFollowsTheMultiplier := by
  intro s rd ra rb
  rw [multiplierDatapath_eq]
  rcases bigMul_cases s.cap (s.reg ra) (s.reg rb) with ⟨hfit, e⟩ | ⟨hover, e⟩
  · exact ⟨follows_of_finishReg rfl (by rw [e]; nofun), fun _ => writes_of_ok rfl e, fun h => absurd hfit (not_le.2 h)⟩
  · exact ⟨follows_of_finishReg rfl (by rw [e]; nofun), fun h => absurd h (not_le.2 hover),
      fun _ => raises_of_error (rd := rd) rfl e nofun⟩

end Sys2Proof.Machine
end

section
/-! PROOFS. Long division and short division give the one quotient and remainder; it settles O40 and O41. -/

namespace Sys2Proof.Machine

variable {s : State}

/-! ## One digit of a division (41_biguint_arith.md R120, R121) -/

/-- Dividing from the top: the digit `t / d` at place `P`, and the rest of the division with the remainder `t % d`. -/
theorem div_of_top_digit {d : Nat} (hd : 0 < d) (t P low : Nat) :
    (t * P + low) / d = t / d * P + (t % d * P + low) / d ∧ (t * P + low) % d = (t % d * P + low) % d := by
  have hsplit : t * P + low = t % d * P + low + d * (t / d * P) := by
    calc t * P + low = (t % d + d * (t / d)) * P + low := by rw [Nat.mod_add_div]
      _ = _ := by ring
  rw [hsplit, Nat.add_mul_div_left _ _ hd, Nat.add_mul_mod_self_left]
  exact ⟨Nat.add_comm _ _, rfl⟩

/-- The low `i + 1` bits are the low `i` bits below bit `i`. -/
theorem mod_bits_succ (a i : Nat) : a % 2 ^ (i + 1) = a % 2 ^ i + 2 ^ i * bitOf a i := by
  rw [Nat.pow_succ, Nat.mod_mul, bitOf, Nat.shiftRight_eq_div_pow]

/-- Long division of the bits below `i`, with the remainder `r` of the bits above. -/
theorem longDivide_eq {b r : Nat} (hr : r < b) (a i q : Nat) :
    longDivide a b i q r = (q + (r * 2 ^ i + a % 2 ^ i) / b, (r * 2 ^ i + a % 2 ^ i) % b) := by
  induction i generalizing q r with
  | zero => simp [longDivide, Nat.mod_one, Nat.div_eq_of_lt hr, Nat.mod_eq_of_lt hr]
  | succ i ih =>
    have hb : 0 < b := Nat.zero_lt_of_lt hr
    have hbit : bitOf a i < 2 := Nat.mod_lt _ (by decide)
    have hnum : r * 2 ^ (i + 1) + a % 2 ^ (i + 1) = (2 * r + bitOf a i) * 2 ^ i + a % 2 ^ i := by
      rw [mod_bits_succ, Nat.pow_succ]; ring
    obtain ⟨hdiv, hmod⟩ := div_of_top_digit hb (2 * r + bitOf a i) (2 ^ i) (a % 2 ^ i)
    rw [hnum, hdiv, hmod, longDivide]
    split
    · next hge =>
      have hquot : (2 * r + bitOf a i) / b = 1 := Nat.div_eq_of_lt_le (by omega) (by omega)
      have hrem : (2 * r + bitOf a i) % b = 2 * r + bitOf a i - b := by
        rw [Nat.mod_eq_sub_mod hge, Nat.mod_eq_of_lt (by omega)]
      rw [ih (by omega), hquot, hrem, Nat.shiftLeft_eq, Nat.add_assoc]
    · next hlt =>
      rw [ih (by omega), Nat.div_eq_of_lt (not_le.1 hlt), Nat.mod_eq_of_lt (not_le.1 hlt), Nat.zero_mul, Nat.zero_add]

/-- Binary long division of all bits of `a` (41_biguint_arith.md R120). -/
theorem longDivide_bitlen {b : Nat} (hb : 0 < b) (a : Nat) : longDivide a b (bitlen a) 0 0 = (a / b, a % b) := by
  rw [longDivide_eq hb, Nat.mod_eq_of_lt (lt_two_pow_bitlen a), Nat.zero_mul, Nat.zero_add, Nat.zero_add]

@[simp] theorem shortDivide_zero (a d q rem : Nat) : shortDivide a d 0 q rem = (q, rem) := rfl

/-- One step of the pass. The equation is between functions: with its arguments in place, the check of `rfl` would unfold
the product with the literal `2^32`. -/
theorem shortDivide_succ (a d i : Nat) :
    shortDivide a d (i + 1) = fun q rem =>
      shortDivide a d i (q + ((rem * limbBase + (limb a i).toNat) / d) <<< (32 * i))
        ((rem * limbBase + (limb a i).toNat) % d) := rfl

/-- Short division of the limbs below `i`, with the remainder `rem` of the limbs above. -/
theorem shortDivide_eq {d rem : Nat} (hrem : rem < d) (a i q : Nat) :
    shortDivide a d i q rem
      = (q + (rem * 2 ^ (32 * i) + a % 2 ^ (32 * i)) / d, (rem * 2 ^ (32 * i) + a % 2 ^ (32 * i)) % d) := by
  induction i generalizing q rem with
  | zero => simp [Nat.mod_one, Nat.div_eq_of_lt hrem, Nat.mod_eq_of_lt hrem]
  | succ i ih =>
    have hd : 0 < d := Nat.zero_lt_of_lt hrem
    have hnum : rem * 2 ^ (32 * (i + 1)) + a % 2 ^ (32 * (i + 1))
        = (rem * limbBase + (limb a i).toNat) * 2 ^ (32 * i) + a % 2 ^ (32 * i) := by
      rw [mod_limbs_succ, Nat.mul_succ, Nat.pow_add]; ring
    obtain ⟨hdiv, hmod⟩ := div_of_top_digit hd (rem * limbBase + (limb a i).toNat) (2 ^ (32 * i)) (a % 2 ^ (32 * i))
    rw [hnum, hdiv, hmod, shortDivide_succ]
    beta_reduce
    rw [ih (Nat.mod_lt _ hd), Nat.shiftLeft_eq, Nat.add_assoc]

/-- Short division of all limbs of `a` (41_biguint_arith.md R121). -/
theorem shortDivide_len32 {d : Nat} (hd : 0 < d) (a : Nat) : shortDivide a d (len32 a) 0 0 = (a / d, a % d) := by
  rw [shortDivide_eq hd, Nat.mod_eq_of_lt (lt_two_pow_len32 a), Nat.zero_mul, Nat.zero_add, Nat.zero_add]

/-! ## The helpers -/

theorem bigDivMod_ok {b : Nat} (h : b ≠ 0) (a : Nat) : bigDivMod a b = .ok (a / b, a % b) := if_neg h

theorem bigDivMod_zero {b : Nat} (h : b = 0) (a : Nat) : bigDivMod a b = .error .divisionByZero := if_pos h

theorem bigMod_ok {m : Nat} (h : m ≠ 0) (a : Nat) : bigMod a m = .ok (a % m) := if_neg h

/-- The quotient and the remainder make the dividend (41_biguint_arith.md R127, property 3). -/
theorem divisionIdentity {b : Nat} (h : b ≠ 0) (a : Nat) : DivisionIdentity a b :=
  ⟨_, _, bigDivMod_ok h a, (Nat.div_add_mod' a b).symm, Nat.mod_lt a (Nat.pos_of_ne_zero h)⟩

/-- A remainder is its own remainder (41_biguint_arith.md R127, property 11). -/
theorem reductionIdempotent (a m : Nat) : ReductionIdempotent a m := by
  intro r hr
  have hm : m ≠ 0 := by rintro rfl; cases hr
  rw [bigMod_ok hm] at hr ⊢
  cases hr
  rw [Nat.mod_mod]

/-! ## DIVMOD -/

/-- A value of one limb is that limb. -/
theorem limb_zero_of_len32_eq_one {v : Nat} (h : len32 v = 1) : (limb v 0).toNat = v := by
  have hv : v < 2 ^ (32 * 1) := (len32_le_iff ..).1 h.le
  rw [limb_toNat, Nat.mul_zero, Nat.pow_zero, Nat.div_one, Nat.mod_eq_of_lt hv]

theorem exec_divmod {rd rc : Reg} (hne : rd ≠ rc) (ra rb : Reg) :
    exec (.divmod rd ra rb rc) s
      = finish s ((bigDivMod (s.reg ra) (s.reg rb)).map fun qr => (s.setReg rd qr.1).setReg rc qr.2) := if_neg hne

theorem onlyRegs_setReg_setReg (s : State) (rd rc : Reg) (q r : Nat) :
    OnlyRegs [rd, rc] s ((s.setReg rd q).setReg rc r).succeed :=
  ⟨⟨fun p hp => by simp at hp; simp [hp], rfl, rfl, rfl, rfl, rfl, rfl, rfl⟩, rfl, rfl⟩

/-- DIVMOD with two destinations and a divisor that is not zero. -/
theorem exec_divmod_ok {rd rc : Reg} (hne : rd ≠ rc) (ra : Reg) {rb : Reg} (hb : s.reg rb ≠ 0) :
    ∃ t, exec (.divmod rd ra rb rc) s = .next t ∧ t.reg rd = s.reg ra / s.reg rb ∧ t.reg rc = s.reg ra % s.reg rb
      ∧ Succeeded t ∧ OnlyRegs [rd, rc] s t := by
  refine ⟨_, ?_, ?_, ?_, ⟨rfl, rfl, rfl, rfl, rfl⟩,
    onlyRegs_setReg_setReg s rd rc (s.reg ra / s.reg rb) (s.reg ra % s.reg rb)⟩
  · rw [exec_divmod hne, bigDivMod_ok hb]
    rfl
  · rw [reg_succeed, reg_setReg_other _ hne, reg_setReg_same]
  · rw [reg_succeed, reg_setReg_same]

/-! ## The statements -/

/-- Settles O40: each divider gives the quotient and the remainder that DIVMOD writes. -/
theorem divisionByAnyDivider : Obligations.DivisionByAnyDivider := by
  refine fun s rd ra rb rc => ⟨fun hne hb => ?_, fun hne hb => raises_of_finish ?_ nofun,
    fun heq => raises_of_finish (if_pos heq) nofun⟩
  · have hpos := Nat.pos_of_ne_zero hb
    obtain ⟨t, hexec, hquot, hrem, hok, hframe⟩ := exec_divmod_ok hne ra hb
    refine ⟨t, hexec, ?_⟩
    rw [hquot, hrem]
    refine ⟨(Nat.div_add_mod' ..).symm, Nat.mod_lt _ hpos, longDivide_bitlen hpos _, fun hone => ?_, hok, hframe⟩
    rw [State.limb, limb_zero_of_len32_eq_one hone]
    exact shortDivide_len32 hpos _
  · rw [exec_divmod hne, bigDivMod_zero hb]
    rfl

/-- Settles O41: MOD writes the remainder, and the modulus is the same in the second MOD. -/
theorem modReducesOnce : Obligations.ModReducesOnce := by
  refine fun s rd ra rb => ⟨fun hm => ⟨s.reg ra % s.reg rb, writes_of_ok rfl (bigMod_ok hm _),
    Nat.mod_lt _ (Nat.pos_of_ne_zero hm), ⟨_, (Nat.div_add_mod' ..).symm⟩, fun t ht hne => ?_⟩,
    fun hm => raises_of_error (rd := rd) rfl (if_pos hm) nofun⟩
  have hexec : exec (.mod rd ra rb) s = .next (s.setReg rd (s.reg ra % s.reg rb)).succeed :=
    congrArg (finishReg s rd) (bigMod_ok hm (s.reg ra))
  obtain rfl := Host.Outcome.next.inj (hexec.symm.trans ht)
  refine writes_of_ok rfl ?_
  rw [reg_succeed, reg_succeed, reg_setReg_same, reg_setReg_other _ hne.symm]
  exact reductionIdempotent _ _ _ (bigMod_ok hm _)

end Sys2Proof.Machine
end

section
/-! PROOFS. The universal properties of the BigUint unit, from the lemmas of its helpers and the invariant; it settles
O59. -/

namespace Sys2Proof.Machine

/-- The limb count is where the limbs of a value end (10_state.md R22; 41_biguint_arith.md R127, property 1). -/
theorem normalised (v : Nat) : Normalised v := by
  refine ⟨?_, fun i => limb_eq_zero_of_len32_le⟩
  by_cases hv : v = 0
  · exact .inl (by rw [hv, len32_zero])
  · exact .inr (limb_top_ne_zero hv)

/-- Settles O59: the properties of the helpers, and the invariant that every command keeps. -/
theorem bigUintProperties : Obligations.BigUintProperties := by
  refine ⟨normalised, fun a b hb => divisionIdentity hb a, addSubInverse, shiftIdentity, reductionIdempotent,
    fun i s t r hs hexec => ?_⟩
  obtain ⟨-, hfit, -⟩ := inv_of_exec hs hexec
  exact ⟨(len32_le_iff ..).2 (hfit r), normalised (t.reg r)⟩

end Sys2Proof.Machine
end

section
/-! PROOFS. The host codec (42_codec.md R141 to R146); it settles O58.

A decimal string, a hex string and a byte string are one thing in three alphabets: a list of digits, the most significant
first. The round trip is proved once, for lists of digits in any base, and carried to each alphabet by its characters. -/

namespace Sys2Proof.Machine

/-! ## Digit lists, the most significant digit first -/

/-- The value of a digit list that goes on from `x`. -/
def digitsValue (base : Nat) (x : Nat) (ds : List Nat) : Nat := ds.foldl (fun v d => base * v + d) x

/-- The digits of a value with no leading zero, but for zero itself. -/
def numeral (base v : Nat) : List Nat := if v = 0 then [0] else (Nat.digits base v).reverse

/-- Leading zeros stripped, one kept when nothing else is there (42_codec.md R146). -/
def stripZeros {α : Type} [BEq α] (zero : α) (s : List α) : List α :=
  match s.dropWhile (· == zero) with
  | [] => [zero]
  | c :: cs => c :: cs

theorem canonicalDecimal_eq_stripZeros (s : List Char) : canonicalDecimal s = stripZeros '0' s := by
  unfold canonicalDecimal stripZeros
  cases s.dropWhile (· == '0') <;> rfl

theorem canonicalBytes_eq_stripZeros (bs : List (BitVec 8)) : canonicalBytes bs = stripZeros 0#8 bs := by
  unfold canonicalBytes stripZeros
  cases bs.dropWhile (· == 0#8) <;> rfl

theorem stripZeros_zero_cons (ds : List Nat) : stripZeros 0 (0 :: ds) = stripZeros 0 ds := rfl

theorem stripZeros_cons_of_ne {d : Nat} (hd : d ≠ 0) (ds : List Nat) : stripZeros 0 (d :: ds) = d :: ds := by
  simp [stripZeros, hd]

theorem stripZeros_length_le {α : Type} [BEq α] (zero : α) (s : List α) :
    (stripZeros zero s).length ≤ max 1 s.length := by
  have hle : (s.dropWhile (· == zero)).length ≤ s.length := (List.dropWhile_sublist _).length_le
  unfold stripZeros
  split
  · exact le_max_left 1 _
  · next e => exact le_max_of_le_right (e ▸ hle)

/-- An alphabet with one letter for zero strips as the digits do. -/
theorem stripZeros_map {α : Type} [BEq α] [LawfulBEq α] {f : Nat → α} {ds : List Nat}
    (hf : ∀ d ∈ ds, f d = f 0 → d = 0) : stripZeros (f 0) (ds.map f) = (stripZeros 0 ds).map f := by
  induction ds with
  | nil => rfl
  | cons d ds ih =>
    by_cases hd : d = 0
    · subst hd
      rw [stripZeros_zero_cons, ← ih fun e he => hf e (List.mem_cons_of_mem _ he)]
      simp [stripZeros]
    · have hne : f d ≠ f 0 := fun e => hd (hf d List.mem_cons_self e)
      rw [stripZeros_cons_of_ne hd]
      simp [stripZeros, hne]

section Digits

variable {base : Nat} (hb : 1 < base)

theorem digitsValue_cons (base x d : Nat) (ds : List Nat) :
    digitsValue base x (d :: ds) = digitsValue base (base * x + d) ds := rfl

theorem digitsValue_eq_ofDigits (base : Nat) (ds : List Nat) :
    digitsValue base 0 ds = Nat.ofDigits base ds.reverse := by
  simp only [Nat.ofDigits_eq_foldr, List.foldr_reverse, digitsValue, Nat.add_comm, Nat.cast_id]

/-- Reading the digits of a value gives it back. -/
theorem digitsValue_numeral (v : Nat) : digitsValue base 0 (numeral base v) = v := by
  unfold numeral
  split
  · next h => simp [h, digitsValue]
  · rw [digitsValue_eq_ofDigits, List.reverse_reverse, Nat.ofDigits_digits]

include hb

theorem le_digitsValue (x : Nat) (ds : List Nat) : x ≤ digitsValue base x ds := by
  induction ds generalizing x with
  | nil => exact le_rfl
  | cons d ds ih => exact (Nat.le_add_right_of_le (Nat.le_mul_of_pos_left x (by omega))).trans (ih (base * x + d))

theorem lt_of_mem_numeral {v d : Nat} (hd : d ∈ numeral base v) : d < base := by
  unfold numeral at hd
  split at hd
  · rw [List.mem_singleton.1 hd]; omega
  · exact Nat.digits_lt_base hb (List.mem_reverse.1 hd)

theorem numeral_length_le_iff (v m : Nat) : (numeral base v).length ≤ m ↔ 1 ≤ m ∧ v < base ^ m := by
  unfold numeral
  split
  · next h => simp [h, Nat.pow_pos (Nat.zero_lt_of_lt hb), Nat.one_le_iff_ne_zero]
  · next h =>
    rw [List.length_reverse, Nat.digits_length_le_iff hb, and_iff_right_of_imp]
    intro hlt
    by_contra hm
    rw [Nat.lt_one_iff.1 (not_le.1 hm)] at hlt
    exact h (Nat.lt_one_iff.1 hlt)

/-- The digits of what a digit list reads as are that list with its leading zeros stripped. -/
theorem numeral_digitsValue {ds : List Nat} (hds : ∀ d ∈ ds, d < base) :
    numeral base (digitsValue base 0 ds) = stripZeros 0 ds := by
  induction ds with
  | nil => rfl
  | cons d ds ih =>
    by_cases hd : d = 0
    · subst hd
      rw [stripZeros_zero_cons, digitsValue_cons, Nat.mul_zero, Nat.add_zero]
      exact ih fun e he => hds e (List.mem_cons_of_mem _ he)
    · have hvalue : digitsValue base 0 (d :: ds) ≠ 0 := by
        rw [digitsValue_cons, Nat.mul_zero, Nat.zero_add]
        have := le_digitsValue hb d ds
        omega
      rw [stripZeros_cons_of_ne hd, numeral, if_neg hvalue, digitsValue_eq_ofDigits,
        Nat.digits_ofDigits _ hb _ (fun e he => hds e (List.mem_reverse.1 he)) (by simpa using hd),
        List.reverse_reverse]

/-- Each digit by its place. -/
theorem numeral_eq_map_range (v : Nat) :
    numeral base v = (List.range (numeral base v).length).reverse.map fun j => v / base ^ j % base := by
  have hdigit (j : Nat) : (numeral base v).reverse.getD j 0 = v / base ^ j % base := by
    unfold numeral
    split
    · next h => cases j <;> simp [h]
    · rw [List.reverse_reverse, Nat.getD_digits _ _ hb]
  rw [List.map_reverse, ← List.reverse_eq_iff]
  refine List.ext_getElem (by simp) fun j hj _ => ?_
  rw [List.getElem_map, List.getElem_range, ← hdigit, List.getD_eq_getElem _ _ hj]

end Digits

/-! ## Strings of digit characters -/

section Strings

variable {cap base v x : Nat} {digit : Char → Option Nat} {s : List Char}

theorem within_eq_ok_iff {cap a v : Nat} : within cap a = .ok v ↔ v < 2 ^ (32 * cap) ∧ a = v := by
  rcases within_cases cap a with ⟨h, e⟩ | ⟨h, e⟩ <;> rw [e]
  · exact ⟨fun h' => Except.ok.inj h' ▸ ⟨h, rfl⟩, fun h' => congrArg _ h'.2⟩
  · exact ⟨nofun, fun h' => absurd (h'.2 ▸ h) (not_le.2 h'.1)⟩

theorem bigMulAddWord_eq_ok_iff {cap a w c v : Nat} :
    bigMulAddWord cap a w c = .ok v ↔ v < 2 ^ (32 * cap) ∧ a * w + c = v := within_eq_ok_iff

theorem readBytes_eq_ok_iff {cap v : Nat} {bs : List (BitVec 8)} :
    readBytes cap bs = .ok v ↔ v < 2 ^ (32 * cap) ∧ bytesValue bs = v := within_eq_ok_iff

theorem readDigits_cons_eq_ok_iff {c : Char} {cs : List Char} :
    readDigits cap base digit x (c :: cs) = .ok v ↔
      ∃ d, digit c = some d ∧ base * x + d < 2 ^ (32 * cap) ∧ readDigits cap base digit (base * x + d) cs = .ok v := by
  rw [readDigits, Nat.mul_comm base]
  constructor
  · intro h
    split at h
    · cases h
    next d hd =>
      split at h
      · next y hy =>
        obtain ⟨hlt, rfl⟩ := bigMulAddWord_eq_ok_iff.1 hy
        exact ⟨d, hd, hlt, h⟩
      · cases h
  · rintro ⟨d, hd, hlt, h⟩
    simpa only [hd, bigMulAddWord_eq_ok_iff.2 ⟨hlt, rfl⟩] using h

/-- The characters of `s` read as the digits `ds`. -/
abbrev Spells (digit : Char → Option Nat) (s : List Char) (ds : List Nat) : Prop :=
  List.Forall₂ (fun c d => digit c = some d) s ds

/-- A string reads as a value when its characters are the digits of that value and the value fits: no value on the way is
greater than the last (42_codec.md R141). -/
theorem readDigits_eq_ok_iff (hb : 1 < base) (hx : x < 2 ^ (32 * cap)) :
    readDigits cap base digit x s = .ok v ↔
      ∃ ds, Spells digit s ds ∧ digitsValue base x ds = v ∧ v < 2 ^ (32 * cap) := by
  induction s generalizing x with
  | nil =>
    constructor
    · rintro ⟨⟩
      exact ⟨[], .nil, rfl, hx⟩
    · rintro ⟨_, ⟨⟩, rfl, -⟩
      rfl
  | cons c cs ih =>
    rw [readDigits_cons_eq_ok_iff]
    constructor
    · rintro ⟨d, hd, hlt, h⟩
      obtain ⟨ds, hds, hv⟩ := (ih hlt).1 h
      exact ⟨d :: ds, .cons hd hds, hv⟩
    · rintro ⟨_, hspells, rfl, hv⟩
      obtain ⟨d, ds, hd, hds, rfl⟩ := List.forall₂_cons_left_iff.1 hspells
      have hlt : base * x + d < 2 ^ (32 * cap) := lt_of_le_of_lt (le_digitsValue hb _ ds) hv
      exact ⟨d, hd, hlt, (ih hlt).2 ⟨ds, hds, rfl, hv⟩⟩

theorem peelDigits_eq (hb : 1 < base) {fuel : Nat} (hx : x < 2 ^ fuel) (acc : List Char) :
    peelDigits base fuel x acc = (Nat.digits base x).reverse.map digitChar ++ acc := by
  induction fuel generalizing x acc with
  | zero =>
    obtain rfl : x = 0 := by simpa using hx
    rw [peelDigits, Nat.digits_zero]
    rfl
  | succ fuel ih =>
    unfold peelDigits
    split
    · next h => simp [h]
    · next h =>
      have hlt : x / base < 2 ^ fuel := by
        rw [Nat.div_lt_iff_lt_mul (Nat.zero_lt_of_lt hb)]
        calc x < 2 ^ fuel * 2 := hx
          _ ≤ 2 ^ fuel * base := Nat.mul_le_mul_left _ hb
      simp only [bigDivMod_ok (Nat.ne_zero_of_lt hb), ih hlt, Nat.digits_def' hb (Nat.pos_of_ne_zero h)]
      simp

theorem writeDigits_eq (hb : 1 < base) (v : Nat) : writeDigits base v = (numeral base v).map digitChar := by
  unfold writeDigits numeral
  split
  · rfl
  · rw [peelDigits_eq hb (lt_two_pow_bitlen v), List.append_nil]

/-- Digit characters of a base: `digit` reads what `digitChar` writes, and what it reads `digitChar` writes in the form
`norm`. -/
structure Alphabet (base : Nat) (digit : Char → Option Nat) (norm : Char → Char) : Prop where
  one_lt : 1 < base
  le_sixteen : base ≤ 16
  digit_digitChar : ∀ d < base, digit (digitChar d) = some d
  of_digit : ∀ {c d}, digit c = some d → d < base ∧ digitChar d = norm c

variable {norm : Char → Char}

/-- R146: reading the digits written for a value that fits gives it back. -/
theorem Alphabet.readDigits_writeDigits (ha : Alphabet base digit norm) (hv : v < 2 ^ (32 * cap)) :
    readDigits cap base digit 0 (writeDigits base v) = .ok v := by
  rw [writeDigits_eq ha.one_lt]
  refine (readDigits_eq_ok_iff ha.one_lt (Nat.two_pow_pos _)).2 ⟨numeral base v, ?_, digitsValue_numeral v, hv⟩
  rw [Spells, List.forall₂_map_left_iff, List.forall₂_same]
  exact fun d hd => ha.digit_digitChar d (lt_of_mem_numeral ha.one_lt hd)

theorem digitChar_eq_zero : ∀ d < 16, digitChar d = digitChar 0 → d = 0 := by decide

/-- The digits that a string reads as write its normal form. -/
theorem Alphabet.of_spells (ha : Alphabet base digit norm) {ds : List Nat} (h : Spells digit s ds) :
    (∀ d ∈ ds, d < base) ∧ ds.map digitChar = s.map norm := by
  induction h with
  | nil => exact ⟨nofun, rfl⟩
  | cons hd _ ih =>
    obtain ⟨hlt, hchar⟩ := ha.of_digit hd
    exact ⟨List.forall_mem_cons.2 ⟨hlt, ih.1⟩, congrArg₂ List.cons hchar ih.2⟩

/-- R146: writing what a string reads as gives its canonical form. -/
theorem Alphabet.writeDigits_readDigits (ha : Alphabet base digit norm) (h : readDigits cap base digit 0 s = .ok v) :
    writeDigits base v = canonicalDecimal (s.map norm) := by
  obtain ⟨ds, hds, rfl, -⟩ := (readDigits_eq_ok_iff ha.one_lt (Nat.two_pow_pos _)).1 h
  obtain ⟨hlt, hspell⟩ := ha.of_spells hds
  rw [writeDigits_eq ha.one_lt, numeral_digitsValue ha.one_lt hlt, canonicalDecimal_eq_stripZeros, ← hspell]
  exact (stripZeros_map fun d hd => digitChar_eq_zero d (lt_of_lt_of_le (hlt d hd) ha.le_sixteen)).symm

end Strings

/-! ## The decimal and the hex alphabet -/

theorem digitChar_eq_of_lt_ten {c : Char} {d : Nat} (hd : d < 10) (hc : c.toNat = 48 + d) : digitChar d = c := by
  rw [digitChar, if_pos hd, ← hc, Char.ofNat_toNat]

theorem digitChar_eq_of_ten_le {c : Char} {d : Nat} (hd : 10 ≤ d) (hc : c.toNat = 87 + d) : digitChar d = c := by
  rw [digitChar, if_neg (not_lt.2 hd), ← hc, Char.ofNat_toNat]

theorem of_decimalDigit {c : Char} {d : Nat} (h : decimalDigit c = some d) : d < 10 ∧ c.toNat = 48 + d := by
  unfold decimalDigit at h
  split_ifs at h
  have := Option.some.inj h
  omega

/-- A hex digit is `0` to `9`, `a` to `f`, or `A` to `F`. -/
theorem of_hexDigit {c : Char} {d : Nat} (h : hexDigit c = some d) :
    d < 10 ∧ c.toNat = 48 + d ∨ (10 ≤ d ∧ d < 16) ∧ (c.toNat = 87 + d ∨ c.toNat = 55 + d) := by
  unfold hexDigit at h
  split_ifs at h <;> have := Option.some.inj h <;> omega

theorem lowerHex_eq_self {c : Char} (h : ¬ (65 ≤ c.toNat ∧ c.toNat ≤ 70)) : lowerHex c = c := if_neg h

theorem lowerHex_eq_ofNat {c : Char} (h : 65 ≤ c.toNat ∧ c.toNat ≤ 70) : lowerHex c = Char.ofNat (c.toNat + 32) :=
  if_pos h

theorem decimalAlphabet : Alphabet 10 decimalDigit id where
  one_lt := by decide
  le_sixteen := by decide
  digit_digitChar := by decide
  of_digit h := by
    obtain ⟨hd, hc⟩ := of_decimalDigit h
    exact ⟨hd, digitChar_eq_of_lt_ten hd hc⟩

theorem hexAlphabet : Alphabet 16 hexDigit lowerHex where
  one_lt := by decide
  le_sixteen := by decide
  digit_digitChar := by decide
  of_digit h := by
    rcases of_hexDigit h with ⟨hd, hc⟩ | ⟨⟨hten, hd⟩, hc | hc⟩
    · exact ⟨by omega, (digitChar_eq_of_lt_ten hd hc).trans (lowerHex_eq_self (by omega)).symm⟩
    · exact ⟨hd, (digitChar_eq_of_ten_le hten hc).trans (lowerHex_eq_self (by omega)).symm⟩
    · rw [lowerHex_eq_ofNat (by omega), digitChar, if_neg (not_lt.2 hten), hc]
      exact ⟨hd, congrArg Char.ofNat (by omega)⟩

/-! ## Byte strings -/

/-- The least number of bytes that holds a value, one for zero, is the number of its digits in base 256. -/
theorem byteLength_eq (v : Nat) : byteLength v = (numeral 256 v).length := by
  refine eq_of_forall_ge_iff fun m => ?_
  rw [numeral_length_le_iff (by decide), byteLength, max_le_iff, show (256 : Nat) = 2 ^ 8 from rfl, ← Nat.pow_mul,
    ← bitlen_le_iff]
  exact and_congr_right fun _ => by omega

/-- The bytes of the digits of a value, in base 256. -/
def valueBytes (v : Nat) : List (BitVec 8) := (numeral 256 v).map (BitVec.ofNat 8)

theorem valueBytes_length_le_iff (v m : Nat) : (valueBytes v).length ≤ m ↔ 1 ≤ m ∧ v < 256 ^ m := by
  rw [valueBytes, List.length_map, numeral_length_le_iff (by decide)]

theorem writeBytes_eq (v m : Nat) : writeBytes v m =
    if m < (valueBytes v).length then .error (.bufferTooSmall, (valueBytes v).length) else .ok (valueBytes v) := by
  have hbytes : (List.range (byteLength v)).reverse.map (fun j => BitVec.ofNat 8 (v >>> (8 * j))) = valueBytes v := by
    rw [byteLength_eq, valueBytes]
    conv_rhs => rw [numeral_eq_map_range (by decide), List.map_map]
    refine List.map_congr_left fun j _ => BitVec.eq_of_toNat_eq ?_
    simp [Nat.shiftRight_eq_div_pow, Nat.pow_mul]
  rw [writeBytes, hbytes, byteLength_eq, valueBytes, List.length_map]

theorem bytesValue_eq (bs : List (BitVec 8)) : bytesValue bs = digitsValue 256 0 (bs.map BitVec.toNat) := by
  rw [bytesValue, digitsValue, List.foldl_map]

/-- R146: reading the bytes of a value gives it back. -/
theorem bytesValue_valueBytes (v : Nat) : bytesValue (valueBytes v) = v := by
  have hdigits : (valueBytes v).map BitVec.toNat = numeral 256 v := by
    rw [valueBytes, List.map_map]
    refine (List.map_congr_left fun d hd => ?_).trans (List.map_id _)
    exact Nat.mod_eq_of_lt (lt_of_mem_numeral (by decide) hd)
  rw [bytesValue_eq, hdigits, digitsValue_numeral]

theorem byte_eq_zero {d : Nat} (hd : d < 256) (h : BitVec.ofNat 8 d = BitVec.ofNat 8 0) : d = 0 := by
  simpa [Nat.mod_eq_of_lt hd] using congrArg BitVec.toNat h

/-- R146: the bytes of what a byte string reads as are its canonical form. -/
theorem valueBytes_bytesValue (bs : List (BitVec 8)) : valueBytes (bytesValue bs) = canonicalBytes bs := by
  have hlt : ∀ d ∈ bs.map BitVec.toNat, d < 256 := List.forall_mem_map.2 fun b _ => b.isLt
  have hbytes : (bs.map BitVec.toNat).map (BitVec.ofNat 8) = bs := by
    rw [List.map_map]
    exact (List.map_congr_left fun b _ => by simp).trans (List.map_id _)
  rw [valueBytes, bytesValue_eq, numeral_digitsValue (by decide) hlt, canonicalBytes_eq_stripZeros]
  conv_rhs => rw [← hbytes]
  exact (stripZeros_map fun d hd => byte_eq_zero (hlt d hd)).symm

/-! ## The statement -/

/-- Settles O58: the round trip of the digit lists, in each of the three alphabets. -/
theorem codecRoundTrip : Obligations.CodecRoundTrip := by
  refine ⟨fun cap v hv => ⟨decimalAlphabet.readDigits_writeDigits hv, hexAlphabet.readDigits_writeDigits hv,
    valueBytes v, ?_⟩, fun cap v s => ⟨fun h => ?_, hexAlphabet.writeDigits_readDigits⟩, fun cap v bs h => ?_⟩
  · obtain ⟨hone, hfit⟩ := (valueBytes_length_le_iff v _).1 le_rfl
    refine ⟨?_, readBytes_eq_ok_iff.2 ⟨hv, bytesValue_valueBytes v⟩, hone, hfit,
      fun m hm hlt => (valueBytes_length_le_iff v m).2 ⟨hm, hlt⟩, fun m hm => ?_, fun m hm => ?_⟩
    · rw [writeBytes_eq, if_neg (lt_irrefl _)]
    · rw [writeBytes_eq, if_neg (not_lt.2 hm)]
    · rw [writeBytes_eq, if_pos hm]
  · exact (decimalAlphabet.writeDigits_readDigits h).trans (by rw [List.map_id])
  · obtain ⟨-, rfl⟩ := readBytes_eq_ok_iff.1 h
    rw [writeBytes_eq, valueBytes_bytesValue, canonicalBytes_eq_stripZeros,
      if_neg (not_lt.2 (stripZeros_length_le _ _))]

end Sys2Proof.Machine
end

section
/-! PROOFS. The two loops of schoolbook exponentiation: their accumulators are powers of the base, and their only
failure is the overflow of a product. -/

namespace Sys2Proof.Machine

variable {cap base exp m : Nat}

/-! ## Computations that fail only by overflow (43_schoolbook_modexp.md R156) -/

/-- The answer is the value `v` when `fit` holds, and `Overflow` when it does not. -/
inductive OverflowUnless {α : Type} (fit : Prop) (v : α) : Except ErrKind α → Prop
  | ok (h : fit) : OverflowUnless fit v (.ok v)
  | overflow (h : ¬ fit) : OverflowUnless fit v (.error .overflow)

namespace OverflowUnless

variable {α β : Type} {p q : Prop} {v v₀ : α} {w : β} {r : Except ErrKind α} {f : α → Except ErrKind β}

theorem eq_ok (h : OverflowUnless p v r) (hp : p) : r = .ok v := by
  cases h with
  | ok => rfl
  | overflow hn => exact absurd hp hn

theorem eq_overflow (h : OverflowUnless p v r) (hp : ¬ p) : r = .error .overflow := by
  cases h with
  | ok h => exact absurd h hp
  | overflow => rfl

theorem congr (h : OverflowUnless p v r) (hpq : p ↔ q) (hv : v = v₀) : OverflowUnless q v₀ r := by
  obtain rfl := propext hpq
  exact hv ▸ h

/-- The first overflow is the answer: both steps must fit. -/
theorem bind (hr : OverflowUnless p v r) (hf : OverflowUnless q w (f v)) : OverflowUnless (p ∧ q) w (r >>= f) := by
  cases hr with
  | overflow hp => exact .overflow fun h => hp h.1
  | ok hp => exact hf.congr (and_iff_right hp).symm rfl

/-- A last step that cannot fail. -/
theorem bindOk (hr : OverflowUnless p v r) (g : α → β) : OverflowUnless p (g v) (r >>= fun x => .ok (g x)) := by
  cases hr with
  | overflow hp => exact .overflow hp
  | ok hp => exact .ok hp

/-- A first step that is taken only under a condition, and otherwise would change nothing. -/
theorem bindIf {c : Prop} [Decidable c] (hr : c → OverflowUnless p v r) (hskip : ¬ c → v₀ = v)
    (hf : OverflowUnless q w (f v)) : OverflowUnless ((c → p) ∧ q) w (if c then r >>= f else f v₀) := by
  split
  · next hc => exact ((hr hc).bind hf).congr (by simp [hc]) rfl
  · next hc => exact hskip hc ▸ hf.congr (by simp [hc]) rfl

end OverflowUnless

/-- A product of powers reduced is the power for the sum of the exponents (43_schoolbook_modexp.md R155). -/
theorem mulThenMod_pow (hm : m ≠ 0) (a b : Nat) :
    OverflowUnless (MulFits cap (base ^ a % m) (base ^ b % m)) (base ^ (a + b) % m)
      (mulThenMod cap (base ^ a % m) (base ^ b % m) m) := by
  rcases mulThenMod_cases (cap := cap) (x := base ^ a % m) (y := base ^ b % m) hm with ⟨hfit, e⟩ | ⟨hbig, e⟩
  · rw [e, ← Nat.mul_mod, ← Nat.pow_add]
    exact .ok hfit
  · rw [e]
    exact .overflow (not_le.2 hbig)

/-! ## The right-to-left binary algorithm (43_schoolbook_modexp.md R153) -/

/-- The multiplications at bit `i` fit, as `BinaryFits` asks of every bit. -/
def BinaryStepFits (cap base exp m i : Nat) : Prop :=
  (exp / 2 ^ i % 2 = 1 → MulFits cap (base ^ (exp % 2 ^ i) % m) (base ^ 2 ^ i % m))
    ∧ (i + 1 < bitlen exp → MulFits cap (base ^ 2 ^ i % m) (base ^ 2 ^ i % m))

theorem div_two_pow_shiftRight_one (exp i : Nat) : (exp / 2 ^ i) >>> 1 = exp / 2 ^ (i + 1) := by
  rw [Nat.shiftRight_eq_div_pow, Nat.div_div_eq_div_mul, ← Nat.pow_add]

theorem mod_two_pow_succ_of_odd {i : Nat} (h : exp / 2 ^ i % 2 = 1) : exp % 2 ^ (i + 1) = exp % 2 ^ i + 2 ^ i := by
  rw [Nat.pow_succ, Nat.mod_mul, h, Nat.mul_one]

theorem mod_two_pow_succ_of_even {i : Nat} (h : exp / 2 ^ i % 2 ≠ 1) : exp % 2 ^ (i + 1) = exp % 2 ^ i := by
  rw [Nat.pow_succ, Nat.mod_mul, Nat.mod_two_ne_one.1 h, Nat.mul_zero, Nat.add_zero]

/-- The loop from bit `i` on: the accumulator is the power for the bits below `i`, the base is squared `i` times. -/
theorem binaryLoop_pow (hm : m ≠ 0) (fuel i : Nat) (hi : i + fuel = bitlen exp) :
    OverflowUnless (∀ k < fuel, BinaryStepFits cap base exp m (i + k)) (base ^ exp % m)
      (binaryLoop cap m fuel (base ^ (exp % 2 ^ i) % m) (base ^ 2 ^ i % m) (exp / 2 ^ i)) := by
  induction fuel generalizing i with
  | zero =>
    obtain rfl : i = bitlen exp := hi
    rw [Nat.mod_eq_of_lt (lt_two_pow_bitlen exp)]
    exact .ok nofun
  | succ fuel ih =>
    have rest : OverflowUnless ((i + 1 < bitlen exp → MulFits cap (base ^ 2 ^ i % m) (base ^ 2 ^ i % m))
          ∧ ∀ k < fuel, BinaryStepFits cap base exp m (i + 1 + k)) (base ^ exp % m)
        (if exp / 2 ^ (i + 1) = 0 then .ok (base ^ (exp % 2 ^ (i + 1)) % m)
          else mulThenMod cap (base ^ 2 ^ i % m) (base ^ 2 ^ i % m) m >>= fun b =>
            binaryLoop cap m fuel (base ^ (exp % 2 ^ (i + 1)) % m) b (exp / 2 ^ (i + 1))) := by
      by_cases hlast : exp < 2 ^ (i + 1)
      · have hlen : bitlen exp ≤ i + 1 := (bitlen_le_iff ..).2 hlast
        rw [if_pos (Nat.div_eq_of_lt hlast), Nat.mod_eq_of_lt hlast]
        exact .ok ⟨fun h => by omega, fun k hk => by omega⟩
      · have hlen : i + 1 < bitlen exp := (lt_bitlen_iff ..).2 (not_lt.1 hlast)
        rw [if_neg (Nat.div_pos (not_lt.1 hlast) (Nat.two_pow_pos _)).ne']
        refine ((mulThenMod_pow hm _ _).bind ?_).congr (and_congr_left' (by simp [hlen])) rfl
        rw [← Nat.two_mul, ← Nat.pow_succ']
        exact ih (i + 1) (by omega)
    unfold binaryLoop
    rw [div_two_pow_shiftRight_one]
    refine (OverflowUnless.bindIf (v := base ^ (exp % 2 ^ (i + 1)) % m)
      (fun h => (mulThenMod_pow hm _ _).congr Iff.rfl (by rw [mod_two_pow_succ_of_odd h]))
      (fun h => by rw [mod_two_pow_succ_of_even h]) rest).congr ?_ rfl
    rw [Nat.forall_lt_succ_left, ← and_assoc]
    simp only [Nat.add_right_comm i 1, Nat.add_assoc]
    rfl

theorem modexpBinary_pow (hm : 2 ≤ m) (cap base exp : Nat) :
    OverflowUnless (BinaryFits cap base exp m) (base ^ exp % m) (modexpBinary cap base exp m) := by
  have hloop := binaryLoop_pow (cap := cap) (base := base) (m := m) (by omega) (bitlen exp) 0 (Nat.zero_add _)
  simp only [Nat.pow_zero, Nat.mod_one, Nat.div_one, Nat.pow_one, Nat.zero_add, Nat.mod_eq_of_lt hm] at hloop
  rw [modexpBinary, bigMod_ok (by omega)]
  exact hloop

/-! ## The 4-bit window algorithm (43_schoolbook_modexp.md R154) -/

/-- The table entries after `T[i]`. -/
theorem tableFrom_pow (hm : m ≠ 0) (count i : Nat) :
    OverflowUnless (∀ k < count, MulFits cap (base ^ (i + k) % m) (base ^ 1 % m))
      ((List.range count).map fun k => base ^ (i + k + 1) % m)
      (tableFrom cap m (base ^ 1 % m) count (base ^ i % m)) := by
  induction count generalizing i with
  | zero => exact .ok nofun
  | succ count ih =>
    refine ((mulThenMod_pow hm i 1).bind ((ih (i + 1)).bindOk (base ^ (i + 1) % m :: ·))).congr ?_ ?_
    · rw [Nat.forall_lt_succ_left]
      simp only [Nat.add_right_comm i 1, Nat.add_assoc, Nat.add_zero]
    · rw [List.range_succ_eq_map, List.map_cons, List.map_map]
      simp only [Function.comp_def, Nat.succ_eq_add_one, Nat.add_zero, Nat.add_right_comm i 1, Nat.add_assoc]

/-- The table holds the powers of the base. -/
theorem windowTable_pow (hm : 2 ≤ m) (cap base : Nat) :
    OverflowUnless (∀ i, 2 ≤ i → i ≤ 15 → MulFits cap (base ^ (i - 1) % m) (base % m))
      ((List.range 16).map (base ^ · % m)) (windowTable cap base m) := by
  have htable := (tableFrom_pow (cap := cap) (base := base) (m := m) (by omega) 14 1).bindOk
    (1 :: base ^ 1 % m :: ·)
  rw [Nat.pow_one] at htable
  rw [windowTable, bigMod_ok (by omega)]
  refine htable.congr ⟨fun h i h2 h15 => ?_, fun h k hk => ?_⟩ ?_
  · have := h (i - 2) (by omega)
    rwa [show 1 + (i - 2) = i - 1 by omega] at this
  · simpa [Nat.add_comm] using h (k + 2) (by omega) (by omega)
  · simp [List.range_succ_eq_map, Nat.mod_eq_of_lt hm]

theorem squareTimes_pow (hm : m ≠ 0) (count q : Nat) :
    OverflowUnless (∀ t < count, MulFits cap (base ^ (q * 2 ^ t) % m) (base ^ (q * 2 ^ t) % m))
      (base ^ (q * 2 ^ count) % m) (squareTimes cap m count (base ^ q % m)) := by
  induction count generalizing q with
  | zero => rw [Nat.pow_zero, Nat.mul_one]; exact .ok nofun
  | succ count ih =>
    refine ((mulThenMod_pow hm q q).bind (ih (q + q))).congr ?_ ?_
    · rw [Nat.forall_lt_succ_left]
      simp only [← Nat.mul_two, Nat.mul_assoc, ← Nat.pow_succ', Nat.pow_zero, Nat.mul_one]
    · rw [← Nat.mul_two, Nat.mul_assoc, ← Nat.pow_succ']

/-- A window below the leading one is four bits wide. -/
theorem windowWidth_eq_four {len j : Nat} (h : 4 * (j + 1) < len) : windowWidth len j = 4 := by
  unfold windowWidth
  omega

theorem windowValue_of_lt {j : Nat} (h : 4 * (j + 1) < bitlen exp) : windowValue exp j = exp / 2 ^ (4 * j) % 16 := by
  rw [windowValue, windowWidth_eq_four h, Nat.shiftRight_eq_div_pow]
  rfl

theorem windowValue_lt (exp j : Nat) : windowValue exp j < 16 := by
  have hwidth : windowWidth (bitlen exp) j ≤ 4 := by unfold windowWidth; omega
  exact (Nat.mod_lt _ (Nat.two_pow_pos _)).trans_le (Nat.pow_le_pow_right (i := _) (j := 4) (by decide) hwidth)

/-- The leading window holds all that is left of the exponent. -/
theorem windowValue_leading {j : Nat} (hlow : 4 * j < bitlen exp) (hhigh : bitlen exp ≤ 4 * (j + 1)) :
    windowValue exp j = exp / 2 ^ (4 * j) := by
  have hwidth : 4 * j + windowWidth (bitlen exp) j = bitlen exp := by unfold windowWidth; omega
  rw [windowValue, Nat.shiftRight_eq_div_pow, Nat.mod_eq_of_lt]
  rw [Nat.div_lt_iff_lt_mul (Nat.two_pow_pos _), Nat.mul_comm, ← Nat.pow_add, hwidth]
  exact lt_two_pow_bitlen exp

/-- The multiplications of window `j` fit, as `WindowFits` asks of every window after the leading one. -/
def WindowStepFits (cap base exp m j : Nat) : Prop :=
  (∀ t, t < 4 →
      MulFits cap (base ^ (exp / 2 ^ (4 * (j + 1)) * 2 ^ t) % m) (base ^ (exp / 2 ^ (4 * (j + 1)) * 2 ^ t) % m))
    ∧ (exp / 2 ^ (4 * j) % 16 ≠ 0 →
      MulFits cap (base ^ (exp / 2 ^ (4 * (j + 1)) * 16) % m) (base ^ (exp / 2 ^ (4 * j) % 16) % m))

/-- The scan once started: the accumulator is the power for the windows from `j` up. -/
theorem windowScan_pow (hm : m ≠ 0) {table : List Nat} (htable : ∀ w < 16, table.getD w 0 = base ^ w % m) (j : Nat)
    (hj : 4 * j < bitlen exp) :
    OverflowUnless (∀ i < j, WindowStepFits cap base exp m i) (some (base ^ exp % m))
      (windowScan cap exp m table j (some (base ^ (exp / 2 ^ (4 * j)) % m))) := by
  induction j with
  | zero =>
    rw [Nat.mul_zero, Nat.pow_zero, Nat.div_one]
    exact .ok nofun
  | succ j ih =>
    have hsplit : exp / 2 ^ (4 * j) = exp / 2 ^ (4 * (j + 1)) * 2 ^ 4 + exp / 2 ^ (4 * j) % 16 := by
      rw [Nat.mul_add_one 4 j, Nat.pow_add, ← Nat.div_div_eq_div_mul]
      exact (Nat.div_add_mod' ..).symm
    unfold windowScan
    rw [windowWidth_eq_four hj, windowValue_of_lt hj, htable _ (Nat.mod_lt _ (by decide))]
    refine ((squareTimes_pow hm 4 _).bind (.bindIf (fun _ => (mulThenMod_pow hm _ _).congr Iff.rfl ?_)
      (fun hzero => ?_) (ih (by omega)))).congr ?_ rfl
    · rw [← hsplit]
    · rw [hsplit, Nat.eq_zero_of_not_pos hzero]
      rfl
    · rw [Nat.forall_lt_succ_right (n := j), ← and_assoc, and_comm]
      simp only [gt_iff_lt, Nat.pos_iff_ne_zero]
      rfl

theorem modexpWindow_pow (hm : 2 ≤ m) (he : exp ≠ 0) (cap base : Nat) :
    OverflowUnless (WindowFits cap base exp m) (base ^ exp % m) (modexpWindow cap base exp m) := by
  have hlen : bitlen exp ≠ 0 := mt (bitlen_eq_zero exp).1 he
  obtain ⟨j, hj⟩ : ∃ j, (bitlen exp + 3) / 4 = j + 1 := Nat.exists_eq_succ_of_ne_zero (by omega)
  have hlow : 4 * j < bitlen exp := by omega
  have htable : ∀ w < 16, ((List.range 16).map (base ^ · % m)).getD w 0 = base ^ w % m := by
    intro w hw
    simp [List.getD_eq_getElem?_getD, hw]
  have hleading := windowValue_leading hlow (by omega)
  have hne : windowValue exp j ≠ 0 := by
    rw [hleading]
    exact (Nat.div_pos ((lt_bitlen_iff ..).1 hlow) (Nat.two_pow_pos _)).ne'
  have hscan : OverflowUnless (∀ i < j, WindowStepFits cap base exp m i) (some (base ^ exp % m))
      (windowScan cap exp m ((List.range 16).map (base ^ · % m)) (j + 1) none) := by
    rw [windowScan, if_neg hne, htable _ (windowValue_lt exp j), hleading]
    exact windowScan_pow (by omega) htable j hlow
  rw [modexpWindow, hj]
  refine ((windowTable_pow hm cap base).bind (hscan.bindOk (·.getD 1))).congr (and_congr_right fun _ => ?_) rfl
  exact forall_congr' fun i => imp_congr_left (by omega)

end Sys2Proof.Machine
end

section
/-! PROOFS. SMODEXP by its tests and its loops; it settles O43 and O44. -/

namespace Sys2Proof.Machine

variable {cap base exp m : Nat}

/-! ## The choice of the algorithm (43_schoolbook_modexp.md R150 to R152) -/

theorem smodexp_divisionByZero (hm : m = 0) : smodexp cap base exp m = .error .divisionByZero := if_pos hm

theorem smodexp_zero_exp (hm : m ≠ 0) (he : exp = 0) : smodexp cap base exp m = .ok 1 := by
  rw [smodexp, if_neg hm, if_pos he]

theorem smodexp_zero_base (hm : m ≠ 0) (he : exp ≠ 0) (hb : base = 0) : smodexp cap base exp m = .ok 0 := by
  rw [smodexp, if_neg hm, if_neg he, if_pos hb]

theorem smodexp_one_modulus (hm : m = 1) (he : exp ≠ 0) (hb : base ≠ 0) : smodexp cap base exp m = .ok 0 := by
  rw [smodexp, if_neg (by omega), if_neg he, if_neg hb, if_pos hm]

theorem smodexp_loop (hm : 2 ≤ m) (he : exp ≠ 0) (hb : base ≠ 0) : smodexp cap base exp m =
    if len32 exp ≤ Config.smallExponentLimbs then modexpBinary cap base exp m else modexpWindow cap base exp m := by
  rw [smodexp, if_neg (by omega), if_neg he, if_neg hb, if_neg (by omega)]

theorem smodexp_small (hm : 2 ≤ m) (he : exp ≠ 0) (hb : base ≠ 0) (hlen : len32 exp ≤ 20) :
    OverflowUnless (BinaryFits cap base exp m) (base ^ exp % m) (smodexp cap base exp m) := by
  rw [smodexp_loop hm he hb, if_pos hlen]
  exact modexpBinary_pow hm cap base exp

theorem smodexp_large (hm : 2 ≤ m) (hb : base ≠ 0) (hlen : 20 < len32 exp) :
    OverflowUnless (WindowFits cap base exp m) (base ^ exp % m) (smodexp cap base exp m) := by
  have he : exp ≠ 0 := mt (len32_eq_zero exp).2 (by omega)
  rw [smodexp_loop hm he hb, if_neg (not_le.2 hlen)]
  exact modexpWindow_pow hm he cap base

/-- In every case the answer is the power reduced or `Overflow`, and an overflow needs two powers whose product does not
fit. -/
theorem smodexp_pow (hm : 2 ≤ m) (cap base exp : Nat) : ∃ fit : Prop,
    ((∀ a b, MulFits cap (base ^ a % m) (base ^ b % m)) → fit) ∧
      OverflowUnless fit (base ^ exp % m) (smodexp cap base exp m) := by
  by_cases he : exp = 0
  · rw [smodexp_zero_exp (by omega) he, he, Nat.pow_zero, Nat.mod_eq_of_lt hm]
    exact ⟨True, fun _ => trivial, .ok trivial⟩
  by_cases hb : base = 0
  · rw [smodexp_zero_base (by omega) he hb, hb, Nat.zero_pow (Nat.pos_of_ne_zero he), Nat.zero_mod]
    exact ⟨True, fun _ => trivial, .ok trivial⟩
  rcases Nat.lt_or_ge 20 (len32 exp) with hlen | hlen
  · refine ⟨_, fun h => ⟨fun i _ _ => ?_, fun _ _ => ⟨fun _ _ => h _ _, fun _ => h _ _⟩⟩,
      smodexp_large hm hb hlen⟩
    simpa only [Nat.pow_one] using h (i - 1) 1
  · exact ⟨_, fun h i _ => ⟨fun _ => h _ _, fun _ => h _ _⟩, smodexp_small hm he hb hlen⟩

theorem smodexp_of_fits (hm : 2 ≤ m) (h : ∀ a b, MulFits cap (base ^ a % m) (base ^ b % m)) :
    smodexp cap base exp m = .ok (base ^ exp % m) := by
  obtain ⟨fit, hfit, hend⟩ := smodexp_pow hm cap base exp
  exact hend.eq_ok (hfit h)

/-- Residues of a modulus of at most half the capacity multiply without overflow (43_schoolbook_modexp.md R156). -/
theorem mulFits_mod (hm : m ≠ 0) (h : 2 * len32 m ≤ cap) (x y : Nat) : MulFits cap (x % m) (y % m) := by
  have hlen (z : Nat) : len32 (z % m) ≤ len32 m := len32_mono (Nat.mod_lt z (Nat.pos_of_ne_zero hm)).le
  have hx := hlen x
  have hy := hlen y
  unfold MulFits
  omega

/-- The powers of a multiple of the modulus are 1 and 0, of one limb at most. -/
theorem len32_pow_mod_le_one (hb : base % m = 0) (a : Nat) : len32 (base ^ a % m) ≤ 1 := by
  have hle : base ^ a % m ≤ 1 := by
    rcases Nat.eq_zero_or_pos a with rfl | ha
    · exact (Nat.mod_le ..).trans_eq (Nat.pow_zero base)
    · rw [Nat.pow_mod, hb, Nat.zero_pow ha, Nat.zero_mod]
      exact Nat.zero_le 1
  exact (len32_mono hle).trans (by decide)

/-! ## The statements -/

/-- A command whose helper fails only by overflow ends with the value or with `Overflow`. -/
theorem OverflowUnless.ends {i : Instr} {s : State} {rd : Reg} {fit : Prop} {v : Nat} {r : Except ErrKind Nat}
    (h : OverflowUnless fit v r) (hexec : exec i s = finishReg s rd r) :
    (fit → Writes i s rd v) ∧ (¬ fit → Raises i s .overflow) :=
  ⟨fun hfit => writes_of_ok hexec (h.eq_ok hfit), fun hfit => raises_of_error hexec (h.eq_overflow hfit) nofun⟩

/-- Settles O43: the loops keep powers of the base, and fail at the first product that does not fit. -/
theorem schoolbookPower : Obligations.SchoolbookPower := by
  refine fun s rd ra rb rc hm => ⟨?_, fun hhalf => ?_, fun hb he hlen => (smodexp_small hm he hb hlen).ends rfl,
    fun hb hlen => (smodexp_large hm hb hlen).ends rfl⟩
  · obtain ⟨fit, -, hend⟩ := smodexp_pow hm s.cap (s.reg ra) (s.reg rb)
    exact (em fit).imp (hend.ends rfl).1 (hend.ends rfl).2
  · exact writes_of_ok rfl (smodexp_of_fits hm fun a b => mulFits_mod (by omega) hhalf _ _)

/-- Settles O44: the tests in the order of `smodexp`; the powers of a multiple of the modulus always fit. -/
theorem schoolbookEdgeCasesInOrder : Obligations.SchoolbookEdgeCasesInOrder := by
  refine fun s rd ra rb rc => ⟨fun hm => raises_of_error (rd := rd) rfl (smodexp_divisionByZero hm) nofun,
    fun hm he => writes_of_ok rfl (smodexp_zero_exp hm he),
    fun hm he hb => writes_of_ok rfl (smodexp_zero_base hm he hb),
    fun hm he hb => writes_of_ok rfl (smodexp_one_modulus hm he hb), fun hcap hm he _ hmul => ?_⟩
  have hfits (a b : Nat) : MulFits s.cap (s.reg ra ^ a % s.reg rc) (s.reg ra ^ b % s.reg rc) :=
    (Nat.add_le_add (len32_pow_mod_le_one hmul a) (len32_pow_mod_le_one hmul b)).trans
      (Nat.le_trans (by decide) hcap.1)
  have hzero : s.reg ra ^ s.reg rb % s.reg rc = 0 := by
    rw [Nat.pow_mod, hmul, Nat.zero_pow (Nat.pos_of_ne_zero he), Nat.zero_mod]
  exact writes_of_ok rfl ((smodexp_of_fits hm hfits).trans (congrArg Except.ok hzero))

end Sys2Proof.Machine
end

section
/-! PROOFS. The word inverse by Hensel lifting, and the context that MBUILD makes; it settles O45, O46 and O47. -/

namespace Sys2Proof.Machine

/-! ## The word inverse (44_montgomery.md R172) -/

/-- One Hensel step squares the error of the approximate inverse. -/
theorem one_sub_mul_henselStep (n0 x : Word) : 1 - n0 * henselStep n0 x = (1 - n0 * x) ^ 2 := by
  change 1 - n0 * (x * (2 - n0 * x)) = (1 - n0 * x) ^ 2
  ring

/-- The error of the start value `x = n₀` is even, so its 32nd power vanishes modulo `2^32`. -/
theorem one_sub_sq_pow_eq_zero {n0 : Word} (hodd : n0.toNat % 2 = 1) : (1 - n0 * n0) ^ 32 = 0 := by
  obtain ⟨a, rfl⟩ : ∃ a : Word, n0 = 2 * a + 1 := by
    refine ⟨n0 >>> 1, BitVec.eq_of_toNat_eq ?_⟩
    have hlt := n0.isLt
    simp [BitVec.toNat_add, BitVec.toNat_mul, Nat.shiftRight_eq_div_pow]
    omega
  have herr : 1 - (2 * a + 1) * (2 * a + 1) = 2 * -(2 * a * (a + 1)) := by ring
  have htwo : (2 : Word) ^ 32 = 0 := by decide
  rw [herr, mul_pow, htwo, zero_mul]

/-- Five steps take the inverse of every odd word. -/
theorem mul_henselInverse {n0 : Word} (hodd : n0.toNat % 2 = 1) : n0 * henselInverse n0 = 1 := by
  have herr : 1 - n0 * henselInverse n0 = (1 - n0 * n0) ^ 32 := by
    simp only [henselInverse, one_sub_mul_henselStep, ← pow_mul]
  rw [one_sub_sq_pow_eq_zero hodd] at herr
  exact (sub_eq_zero.1 herr).symm

theorem mul_neg_henselInverse {n0 : Word} (hodd : n0.toNat % 2 = 1) : n0 * -henselInverse n0 = 0xFFFFFFFF#32 := by
  rw [mul_neg, mul_henselInverse hodd]
  rfl

theorem nprime_ok {n0 : Word} (hodd : n0.toNat % 2 = 1) : nprime n0 = .ok (-henselInverse n0) := by
  have hinv : n0 * henselInverse n0 = 1#32 := mul_henselInverse hodd
  unfold nprime
  simp only [← BitVec.neg_eq_not_add]
  rw [if_neg (not_not.2 hinv), if_neg (not_not.2 (mul_neg_henselInverse hodd))]

/-- An odd word can be cancelled modulo `2^32`. -/
theorem mul_left_cancel_of_odd {n0 x y : Word} (hodd : n0.toNat % 2 = 1) (h : n0 * x = n0 * y) : x = y := by
  have hinv : henselInverse n0 * n0 = 1 := (mul_comm ..).trans (mul_henselInverse hodd)
  calc x = henselInverse n0 * (n0 * x) := by rw [← mul_assoc, hinv, one_mul]
    _ = y := by rw [h, ← mul_assoc, hinv, one_mul]

/-- Settles O45: each step squares the error, and an odd word can be cancelled. -/
theorem henselLiftingFindsTheInverse : Obligations.HenselLiftingFindsTheInverse := by
  intro n0 hodd
  have hnp := mul_neg_henselInverse hodd
  exact ⟨_, nprime_ok hodd, hnp, fun x hx => mul_left_cancel_of_odd hodd (hx.trans hnp.symm)⟩

/-! ## The context (44_montgomery.md R170, R173) -/

theorem limb_zero_odd {n : Nat} (hodd : n % 2 = 1) : (limb n 0).toNat % 2 = 1 := by
  rw [limb_toNat]
  omega

theorem montRadix_eq (k : Nat) : montRadix k = 2 ^ (32 * k) := by rw [montRadix, Nat.shiftLeft_eq, Nat.one_mul]

/-- Twice the limb count of the modulus is within the capacity, so the product of the residues fits. -/
theorem rSquaredOf_ok {cap n : Nat} (hn : n ≠ 0) (hcap : 2 * len32 n ≤ cap) (k : Nat) :
    rSquaredOf cap k n = .ok ((2 ^ (32 * k)) ^ 2 % n) := by
  have hlt : 2 ^ (32 * k) % n < n := Nat.mod_lt _ (Nat.pos_of_ne_zero hn)
  rw [rSquaredOf, montRadix_eq, bigMod_ok hn]
  exact (mulThenMod_ok hn hlt hlt hcap).trans (by rw [← Nat.mul_mod, pow_two])

/-- The context of an odd modulus `n` (44_montgomery.md R170, R172, R173). -/
def Ctx.built (n : Nat) : Ctx where
  state := .active
  n := n
  k := len32 n
  nPrime := -henselInverse (limb n 0)
  rSquared := (2 ^ (32 * len32 n)) ^ 2 % n

theorem buildCtx_ok {cap n : Nat} {old : Ctx} (hold : old.state ≠ .active) (hodd : n % 2 = 1)
    (hcap : 2 * len32 n + 1 ≤ cap) : buildCtx cap old n = .ok (.built n) := by
  rw [buildCtx, if_neg hold, if_neg (by omega), if_neg (by omega), if_neg (by omega), nprime_ok (limb_zero_odd hodd),
    rSquaredOf_ok (by omega) (by omega)]
  rfl

section Mbuild

variable {s : State} {ra : Reg}

theorem exec_mbuild {r : Except ErrKind Ctx} (h : buildCtx s.cap s.ctx (s.reg ra) = r) :
    exec (.mbuild ra) s = finish s (r.map fun c => { s with ctx := c }) := h ▸ rfl

theorem raises_mbuild {kind : ErrKind} (h : buildCtx s.cap s.ctx (s.reg ra) = .error kind)
    (hkind : kind ≠ .internalInvariantBroken) : Raises (.mbuild ra) s kind :=
  raises_of_finish (exec_mbuild h) hkind

end Mbuild

theorem onlyCtx_succeed (s : State) (c : Ctx) : OnlyCtx s ({ s with ctx := c } : State).succeed :=
  ⟨⟨fun _ _ => rfl, rfl, rfl, rfl, rfl, rfl, rfl, rfl⟩, rfl⟩

/-- Settles O46, by the context that the build makes. -/
theorem buildMakesTheContext : Obligations.BuildMakesTheContext := by
  intro s ra hold hodd hcap
  exact ⟨({ s with ctx := .built (s.reg ra) } : State).succeed, exec_mbuild (buildCtx_ok hold hodd hcap), rfl, rfl, rfl,
    mul_neg_henselInverse (limb_zero_odd hodd), rfl, ⟨rfl, rfl, rfl, rfl, rfl⟩, onlyCtx_succeed s _⟩

/-- Settles O47: the tests of the build, in their order. -/
theorem buildFailuresInOrder : Obligations.BuildFailuresInOrder := by
  refine fun s ra => ⟨fun hold => raises_mbuild ?_ nofun, fun hold hzero => raises_mbuild ?_ nofun,
    fun hold hzero heven => raises_mbuild ?_ nofun, fun hold hodd hcap => raises_mbuild ?_ nofun⟩
  · rw [buildCtx, if_pos hold]
  · rw [buildCtx, if_neg hold, if_pos hzero]
  · rw [buildCtx, if_neg hold, if_neg hzero, if_pos heven]
  · rw [buildCtx, if_neg hold, if_neg (by omega), if_neg (by omega)]
    exact if_pos hcap

end Sys2Proof.Machine
end

section
/-! PROOFS. The context check of the Montgomery commands, teardown and the context reads; it settles O48 and O49. -/

namespace Sys2Proof.Machine

/-! ## The context check (44_montgomery.md R166) -/

section

variable {α : Type} {c : Ctx} (r : Except ErrKind α)

theorem whenActive_of_active (h : c.state = .active) : whenActive c r = r := if_neg (not_not.2 h)

theorem whenActive_of_not_active (h : c.state ≠ .active) : whenActive c r = .error .contextState := if_pos h

end

variable {s : State} {i : Instr} {rd : Reg} {r : Except ErrKind Nat}

theorem raises_contextState (h : s.ctx.state ≠ .active) (hexec : exec i s = finishReg s rd (whenActive s.ctx r)) :
    Raises i s .contextState :=
  raises_of_error hexec (whenActive_of_not_active r h) nofun

/-- With an Active context a command hands on its helper's value. -/
theorem writes_whenActive {v : Nat} (h : s.ctx.state = .active)
    (hexec : exec i s = finishReg s rd (whenActive s.ctx r)) (hr : r = .ok v) : Writes i s rd v :=
  writes_of_ok hexec ((whenActive_of_active r h).trans hr)

/-- With an Active context a command hands on its helper's kind. -/
theorem raises_whenActive {kind : ErrKind} (h : s.ctx.state = .active)
    (hexec : exec i s = finishReg s rd (whenActive s.ctx r)) (hr : r = .error kind)
    (hkind : kind ≠ .internalInvariantBroken) : Raises i s kind :=
  raises_of_error hexec ((whenActive_of_active r h).trans hr) hkind

/-- Settles O49: each of the commands makes the context check before it looks at its operands. -/
theorem montgomeryNeedsActiveContext : Obligations.MontgomeryNeedsActiveContext := fun _ _ _ _ h =>
  ⟨raises_of_finish (congrArg (finish _) (whenActive_of_not_active _ h)) nofun,
    raises_contextState h rfl, raises_contextState h rfl, raises_contextState h rfl, raises_contextState h rfl,
    raises_contextState h rfl, raises_contextState h rfl, raises_contextState h rfl⟩

/-- Settles O48: MDESTROY leaves the torn context, and the reads hand on a field of the context. -/
theorem teardownAndContextReads : Obligations.TeardownAndContextReads := fun s _ h =>
  ⟨⟨({ s with ctx := .torn } : State).succeed, congrArg (finish s) (whenActive_of_active _ h), rfl, rfl, rfl, rfl, rfl,
      rfl, rfl, ⟨rfl, rfl, rfl, rfl, rfl⟩, onlyCtx_succeed s _⟩,
    writes_whenActive h rfl rfl, writes_whenActive h rfl rfl⟩

end Sys2Proof.Machine
end

section
/-! PROOFS. REDC divides by `R` modulo `n` (44_montgomery.md R174 to R177); it settles O50. -/

namespace Sys2Proof.Machine

/-! ## Parts of a limb list -/

theorem ofLimbs_take_add_drop (xs : List Word) {i : Nat} (h : i ≤ xs.length) :
    ofLimbs (xs.take i) + 2 ^ (32 * i) * ofLimbs (xs.drop i) = ofLimbs xs := by
  have hsplit := ofLimbs_append (xs.take i) (xs.drop i)
  rw [List.take_append_drop, List.length_take_of_le h] at hsplit
  exact hsplit.symm

theorem ofLimbs_take_lt (xs : List Word) {i : Nat} (h : i ≤ xs.length) : ofLimbs (xs.take i) < 2 ^ (32 * i) := by
  simpa [h] using ofLimbs_lt (xs.take i)

theorem ofLimbs_drop (xs : List Word) {i : Nat} (h : i ≤ xs.length) :
    ofLimbs (xs.drop i) = ofLimbs xs / 2 ^ (32 * i) := by
  rw [← ofLimbs_take_add_drop xs h, Nat.add_mul_div_left _ _ (Nat.two_pow_pos _),
    Nat.div_eq_of_lt (ofLimbs_take_lt xs h), Nat.zero_add]

/-- The lowest limb of the rest of a list is the limb there. -/
theorem ofLimbs_drop_mod (xs : List Word) (i : Nat) : ofLimbs (xs.drop i) % limbBase = (xs.getD i 0#32).toNat := by
  rcases Nat.lt_or_ge i xs.length with h | h
  · rw [List.drop_eq_getElem_cons h, ofLimbs, Nat.add_mul_mod_self_left, Nat.mod_eq_of_lt (xs[i].isLt),
      List.getD_eq_getElem _ _ h]
  · rw [List.drop_eq_nil_of_le h, List.getD_eq_default _ _ h]
    rfl

/-! ## One iteration (44_montgomery.md R175, R176) -/

/-- The multiplier of an iteration clears the limb: `a + (a·n')·n₀` is 0 modulo `2^32`. -/
theorem add_mul_nPrime_mod {n : Nat} {nPrime : Word} (hnp : limb n 0 * nPrime = 0xFFFFFFFF#32) (a : Word) :
    (a.toNat + (a * nPrime).toNat * n) % limbBase = 0 := by
  have hword : a + a * nPrime * limb n 0 = 0#32 := by
    rw [mul_assoc, mul_comm nPrime, hnp]
    change a + a * -1 = 0
    ring
  have hn : n % 2 ^ 32 = (limb n 0).toNat := by simp [limb_toNat]
  have hzero := congrArg BitVec.toNat hword
  rw [BitVec.toNat_add, BitVec.toNat_mul, Nat.add_mod_mod, ← hn, ← Nat.add_mod_mod, Nat.mul_mod_mod,
    Nat.add_mod_mod] at hzero
  exact hzero

section Step

variable {nPrime : Word} {nLimbs buf : List Word} {i : Nat}

/-- The multiplier of iteration `i`. -/
def redcFactor (nPrime : Word) (buf : List Word) (i : Nat) : Word := buf.getD i 0#32 * nPrime

theorem redcStep_length (h : i + nLimbs.length ≤ buf.length) : (redcStep nPrime nLimbs buf i).length = buf.length := by
  have hrow : nLimbs.length ≤ (buf.drop i).length := by rw [List.length_drop]; omega
  rw [redcStep, List.length_append, addMulLimbs_length _ _ _ _ hrow, ← List.length_append, List.take_append_drop]

/-- An iteration adds the multiple of the modulus at its limb, when the buffer can hold the sum. -/
theorem ofLimbs_redcStep (h : i + nLimbs.length ≤ buf.length)
    (hfit : ofLimbs buf + 2 ^ (32 * i) * ((redcFactor nPrime buf i).toNat * ofLimbs nLimbs) < 2 ^ (32 * buf.length)) :
    ofLimbs (redcStep nPrime nLimbs buf i)
      = ofLimbs buf + 2 ^ (32 * i) * ((redcFactor nPrime buf i).toNat * ofLimbs nLimbs) := by
  have hi : i ≤ buf.length := by omega
  have hlen : (buf.drop i).length = buf.length - i := List.length_drop
  rw [redcStep, ← redcFactor]
  generalize redcFactor nPrime buf i = w at hfit ⊢
  rw [← ofLimbs_take_add_drop buf hi, Nat.add_assoc, ← Nat.mul_add] at hfit ⊢
  have hrow : ofLimbs (buf.drop i) + w.toNat * ofLimbs nLimbs < 2 ^ (32 * (buf.drop i).length) := by
    refine Nat.lt_of_mul_lt_mul_left (a := 2 ^ (32 * i)) ?_
    rw [← Nat.pow_add, ← Nat.mul_add, hlen, Nat.add_sub_cancel' hi]
    omega
  rw [ofLimbs_append, List.length_take_of_le hi, ofLimbs_addMulLimbs (by omega) hrow, Nat.add_zero]

/-- That multiple makes the sum divisible by one limb more. -/
theorem dvd_add_redcFactor {n : Nat} (hnp : limb n 0 * nPrime = 0xFFFFFFFF#32) (hi : i ≤ buf.length)
    (hlow : 2 ^ (32 * i) ∣ ofLimbs buf) :
    2 ^ (32 * (i + 1)) ∣ ofLimbs buf + 2 ^ (32 * i) * ((redcFactor nPrime buf i).toNat * n) := by
  have hdrop : ofLimbs buf = 2 ^ (32 * i) * ofLimbs (buf.drop i) := by
    rw [ofLimbs_drop buf hi, Nat.mul_div_cancel' hlow]
  rw [hdrop, ← Nat.mul_add, Nat.mul_add_one, Nat.pow_add]
  refine Nat.mul_dvd_mul_left _ (Nat.dvd_of_mod_eq_zero ?_)
  rw [Nat.add_mod, ofLimbs_drop_mod, Nat.add_mod_mod]
  exact add_mul_nPrime_mod hnp _

end Step

/-! ## All iterations -/

/-- The buffer of REDC after `i` iterations: a multiple of `n`, smaller than `n·2^(32·i)`, has been added, and the low `i`
limbs are zero (44_montgomery.md R176). -/
structure RedcInv (c : Ctx) (t i : Nat) (buf : List Word) : Prop where
  length : buf.length = 2 * c.k + 1
  sum : ∃ m < 2 ^ (32 * i), ofLimbs buf = t + m * c.n
  low : 2 ^ (32 * i) ∣ ofLimbs buf

/-- What an input below `n·R` and the multiples of `n` that REDC adds to it come to is within the buffer
(44_montgomery.md R176). -/
theorem add_mul_lt_buffer {n k t m : Nat} (hn : n < 2 ^ (32 * k)) (ht : t < n * 2 ^ (32 * k)) (hm : m < 2 ^ (32 * k)) :
    t + m * n < 2 ^ (32 * (2 * k + 1)) := by
  have hsplit : 2 ^ (32 * (2 * k + 1)) = 2 ^ 32 * (2 ^ (32 * k) * 2 ^ (32 * k)) := by ring
  rw [hsplit]
  nlinarith

/-- Below twice the modulus the conditional subtraction reduces. -/
theorem conditional_sub_eq_mod {x n : Nat} (h : x < 2 * n) : (if x ≥ n then x - n else x) = x % n := by
  split
  · next hge => rw [Nat.mod_eq_sub_mod hge, Nat.mod_eq_of_lt (by omega)]
  · next hlt => rw [Nat.mod_eq_of_lt (by omega)]

/-! ## Under a sound Active context (10_state.md R30) -/

namespace Ctx.Sound

variable {cap : Nat} {c : Ctx} {t v w : Nat} (hc : c.Sound cap) (ha : c.state = .active)
include hc ha

theorem lt_radix : c.n < 2 ^ (32 * c.k) := by
  obtain ⟨-, hk, -⟩ := hc.1 ha
  exact hk ▸ lt_two_pow_len32 c.n

theorem redcInv_zero (ht : t < c.n * 2 ^ (32 * c.k)) : RedcInv c t 0 (toLimbs (2 * c.k + 1) t) := by
  have hfit := add_mul_lt_buffer (hc.lt_radix ha) ht (Nat.two_pow_pos _)
  rw [Nat.zero_mul, Nat.add_zero] at hfit
  exact ⟨toLimbs_length .., ⟨0, Nat.two_pow_pos _, by rw [ofLimbs_toLimbs_of_lt hfit, Nat.zero_mul, Nat.add_zero]⟩,
    one_dvd _⟩

theorem redcInv_succ (ht : t < c.n * 2 ^ (32 * c.k)) {i : Nat} (hi : i < c.k) {buf : List Word}
    (h : RedcInv c t i buf) : RedcInv c t (i + 1) (redcStep c.nPrime (toLimbs c.k c.n) buf i) := by
  obtain ⟨hlen, ⟨m, hm, hsum⟩, hlow⟩ := h
  obtain ⟨-, -, -, hnp, -⟩ := hc.1 ha
  have hn := hc.lt_radix ha
  have hlimbs : i + (toLimbs c.k c.n).length ≤ buf.length := by rw [toLimbs_length]; omega
  have hstep := ofLimbs_redcStep (nPrime := c.nPrime) hlimbs
  have hdvd := dvd_add_redcFactor hnp (by omega) hlow
  have hw := (redcFactor c.nPrime buf i).isLt
  rw [ofLimbs_toLimbs_of_lt hn, hlen] at hstep
  generalize redcFactor c.nPrime buf i = w at hstep hdvd hw
  have hm' : m + 2 ^ (32 * i) * w.toNat < 2 ^ (32 * (i + 1)) := by
    rw [Nat.mul_add_one, Nat.pow_add]
    nlinarith
  have hsum' : ofLimbs buf + 2 ^ (32 * i) * (w.toNat * c.n) = t + (m + 2 ^ (32 * i) * w.toNat) * c.n := by
    rw [hsum]
    ring
  have hfit : t + (m + 2 ^ (32 * i) * w.toNat) * c.n < 2 ^ (32 * (2 * c.k + 1)) :=
    add_mul_lt_buffer hn ht (hm'.trans_le (Nat.pow_le_pow_right (by decide) (by omega)))
  rw [hsum'] at hstep hdvd
  exact ⟨(redcStep_length hlimbs).trans hlen, ⟨_, hm', hstep hfit⟩, (hstep hfit).symm ▸ hdvd⟩

theorem redcInv_redcBuffer (ht : t < c.n * 2 ^ (32 * c.k)) {i : Nat} (hi : i ≤ c.k) :
    RedcInv c t i (redcBuffer c t i) := by
  induction i with
  | zero => exact hc.redcInv_zero ha ht
  | succ i ih =>
    rw [redcBuffer, List.range_succ, List.foldl_concat]
    exact hc.redcInv_succ ha ht hi (ih (by omega))

/-- The shift divides by `R`, and leaves less than `2·n` (44_montgomery.md R177). -/
theorem redc_ok (ht : t < c.n * 2 ^ (32 * c.k)) :
    ∃ v, redc c t = .ok v ∧ v < c.n ∧ v * 2 ^ (32 * c.k) ≡ t [MOD c.n] := by
  obtain ⟨hlen, ⟨m, hm, hsum⟩, hlow⟩ := hc.redcInv_redcBuffer ha ht le_rfl
  have hshift : ofLimbs ((redcBuffer c t c.k).drop c.k) * 2 ^ (32 * c.k) = t + m * c.n := by
    rw [ofLimbs_drop _ (by omega), Nat.div_mul_cancel hlow, hsum]
  have hbound : ofLimbs ((redcBuffer c t c.k).drop c.k) < 2 * c.n := by nlinarith
  have hlt : ofLimbs ((redcBuffer c t c.k).drop c.k) % c.n < c.n := Nat.mod_lt _ (by omega)
  refine ⟨_, ?_, hlt, ((Nat.mod_modEq ..).mul_right _).trans ?_⟩
  · simp only [redc, conditional_sub_eq_mod hbound, if_pos hlt]
  · rw [hshift, Nat.ModEq, Nat.add_mul_mod_self_right]

/-- `R` is invertible modulo the odd `n`. -/
theorem cancel_radix (h : v * 2 ^ (32 * c.k) ≡ w * 2 ^ (32 * c.k) [MOD c.n]) : v ≡ w [MOD c.n] := by
  obtain ⟨hodd, -⟩ := hc.1 ha
  exact h.cancel_right_of_coprime ((Nat.coprime_two_right.2 (Nat.odd_iff.2 hodd)).pow_right _)

/-- The answer of REDC is the one value below `n` that is `T` divided by `R` modulo `n`. -/
theorem redc_eq (ht : t < c.n * 2 ^ (32 * c.k)) (hv : v < c.n) (h : v * 2 ^ (32 * c.k) ≡ t [MOD c.n]) :
    redc c t = .ok v := by
  obtain ⟨w, hw, hlt, hmod⟩ := hc.redc_ok ha ht
  rw [hw, (hc.cancel_radix ha (hmod.trans h.symm)).eq_of_lt_of_lt hlt hv]

end Ctx.Sound

/-- Settles O50: under the invariant the context is sound, and the bound on `T` is tested first. -/
theorem redcDividesByR : Obligations.RedcDividesByR := by
  intro s rd ra hs ha
  obtain ⟨-, -, hctx, -⟩ := hs
  refine ⟨fun ht => ?_, fun ht => ?_⟩
  · obtain ⟨v, hv, hlt, hmod⟩ := hctx.redc_ok ha ht
    refine ⟨v, writes_whenActive ha rfl ?_, hlt, hmod⟩
    rw [montRadix_eq, if_neg (not_le.2 ht), hv]
  · refine raises_whenActive (rd := rd) ha rfl ?_ nofun
    rw [montRadix_eq, if_pos ht]

end Sys2Proof.Machine
end

section
/-! PROOFS. Forms and their product (44_montgomery.md R178 to R181); it settles O51, O52 and O53. -/

namespace Sys2Proof.Machine

/-- The Montgomery form of `x`, which `toForm` makes (44_montgomery.md R178). -/
def Ctx.form (c : Ctx) (x : Nat) : Nat := x * 2 ^ (32 * c.k) % c.n

theorem Ctx.form_modEq (c : Ctx) (x : Nat) : c.form x ≡ x * 2 ^ (32 * c.k) [MOD c.n] := Nat.mod_modEq ..

/-- Residues of equal numbers have one form. -/
theorem Ctx.form_mod (c : Ctx) (x : Nat) : c.form (x % c.n) = c.form x := Nat.mod_mul_mod ..

theorem reduceFirst_ok {c : Ctx} (hn : c.n ≠ 0) (a : Nat) : reduceFirst c a = .ok (a % c.n) := by
  unfold reduceFirst
  split
  · exact bigMod_ok hn a
  · next hlt => rw [Nat.mod_eq_of_lt (not_le.1 hlt)]

/-- Operands below a modulus of at most half the capacity multiply without overflow. -/
theorem bigMul_ok {cap x y m : Nat} (hx : x < m) (hy : y < m) (h : 2 * len32 m ≤ cap) : bigMul cap x y = .ok (x * y) := by
  have hlx := len32_mono hx.le
  have hly := len32_mono hy.le
  exact if_neg (by omega)

/-! ## Under a sound Active context (10_state.md R30) -/

namespace Ctx.Sound

variable {cap : Nat} {c : Ctx} {a b : Nat} (hc : c.Sound cap) (ha : c.state = .active)
include hc ha

theorem ne_zero : c.n ≠ 0 := (hc.modulus_bounds ha).1.ne'

theorem mod_lt (x : Nat) : x % c.n < c.n := Nat.mod_lt x (hc.modulus_bounds ha).1

theorem form_lt (x : Nat) : c.form x < c.n := hc.mod_lt ha _

theorem two_mul_len32_le : 2 * len32 c.n ≤ cap := by
  obtain ⟨-, hk, hcap, -⟩ := hc.1 ha
  omega

/-- REDC admits a product of operands below `n`, since `n` is below `R`. -/
theorem mul_lt (hx : a < c.n) (hy : b < c.n) : a * b < c.n * 2 ^ (32 * c.k) :=
  Nat.mul_lt_mul'' hx (hy.trans (hc.lt_radix ha))

/-! ## To and from the form (44_montgomery.md R178 to R180) -/

theorem toForm_ok (a : Nat) : toForm cap c a = .ok (c.form a) := by
  obtain ⟨-, -, -, -, hrr⟩ := hc.1 ha
  have hlt := hc.mod_lt ha a
  have hrrlt := hc.rSquared_lt ha
  have hform : c.form a * 2 ^ (32 * c.k) ≡ a % c.n * c.rSquared [MOD c.n] := calc
    c.form a * 2 ^ (32 * c.k) ≡ a * 2 ^ (32 * c.k) * 2 ^ (32 * c.k) [MOD c.n] := (c.form_modEq a).mul_right _
    _ = a * (2 ^ (32 * c.k)) ^ 2 := by ring
    _ ≡ a % c.n * c.rSquared [MOD c.n] := ((Nat.mod_modEq ..).symm).mul (hrr ▸ (Nat.mod_modEq ..).symm)
  rw [toForm, reduceFirst_ok (hc.ne_zero ha)]
  change bigMul cap (a % c.n) c.rSquared >>= redc c = _
  rw [bigMul_ok hlt hrrlt (hc.two_mul_len32_le ha)]
  exact hc.redc_eq ha (hc.mul_lt ha hlt hrrlt) (hc.form_lt ha a) hform

theorem fromForm_eq_redc (a : Nat) : fromForm c a = redc c (a % c.n) := by
  rw [fromForm, reduceFirst_ok (hc.ne_zero ha)]
  rfl

theorem mod_lt_radix (a : Nat) : a % c.n < c.n * 2 ^ (32 * c.k) :=
  (hc.mod_lt ha a).trans_le (Nat.le_mul_of_pos_right _ (Nat.two_pow_pos _))

theorem fromForm_ok (a : Nat) : ∃ v, fromForm c a = .ok v ∧ v < c.n ∧ v * 2 ^ (32 * c.k) ≡ a [MOD c.n] := by
  obtain ⟨v, hv, hlt, hmod⟩ := hc.redc_ok ha (hc.mod_lt_radix ha a)
  exact ⟨v, (hc.fromForm_eq_redc ha a).trans hv, hlt, hmod.trans (Nat.mod_modEq ..)⟩

/-- The value is recovered from its form. -/
theorem fromForm_form (x : Nat) : fromForm c (c.form x) = .ok (x % c.n) := by
  rw [hc.fromForm_eq_redc ha]
  refine hc.redc_eq ha (hc.mod_lt_radix ha _) (hc.mod_lt ha x) (((Nat.mod_modEq ..).mul_right _).trans ?_)
  exact (c.form_modEq x).symm.trans (Nat.mod_modEq ..).symm

/-! ## The product (44_montgomery.md R181) -/

theorem mulmod_eq_redc (hx : a < c.n) (hy : b < c.n) : mulmod cap c a b = redc c (a * b) := by
  rw [mulmod, if_neg (by omega), bigMul_ok hx hy (hc.two_mul_len32_le ha)]
  rfl

/-- The product of two forms is the form of the product. -/
theorem mulmod_form (x y : Nat) : mulmod cap c (c.form x) (c.form y) = .ok (c.form (x * y)) := by
  have hx := hc.form_lt ha x
  have hy := hc.form_lt ha y
  rw [hc.mulmod_eq_redc ha hx hy]
  refine hc.redc_eq ha (hc.mul_lt ha hx hy) (hc.form_lt ha _) ?_
  calc c.form (x * y) * 2 ^ (32 * c.k) ≡ x * y * 2 ^ (32 * c.k) * 2 ^ (32 * c.k) [MOD c.n] :=
        (c.form_modEq _).mul_right _
    _ = x * 2 ^ (32 * c.k) * (y * 2 ^ (32 * c.k)) := by ring
    _ ≡ c.form x * c.form y [MOD c.n] := ((c.form_modEq x).mul (c.form_modEq y)).symm

end Ctx.Sound

/-! ## The statements -/

/-- Settles O51: under the invariant the context is sound, so MTOFORM makes the form. -/
theorem toFormMultipliesByR : Obligations.ToFormMultipliesByR := by
  intro s rd ra hs ha
  obtain ⟨-, -, hctx, -⟩ := hs
  exact writes_whenActive ha rfl (hctx.toForm_ok ha _)

/-- Settles O52: MTOFORM leaves the form in `rd` and the context as it was. -/
theorem fromFormDividesByRAndRestores : Obligations.FromFormDividesByRAndRestores := by
  intro s rd ra hs ha
  obtain ⟨-, -, hctx, -⟩ := hs
  refine ⟨?_, fun t hlt hexec => ?_⟩
  · obtain ⟨v, hv, hlt, hmod⟩ := hctx.fromForm_ok ha (s.reg ra)
    exact ⟨v, writes_whenActive ha rfl hv, hlt, hmod⟩
  · obtain ⟨u, hu, hreg, -, hframe⟩ :
        Writes (.mtoform rd ra) s rd (s.ctx.form (s.reg ra)) := writes_whenActive ha rfl (hctx.toForm_ok ha _)
    obtain rfl : t = u := Host.Outcome.next.inj (hexec.symm.trans hu)
    refine writes_whenActive (hframe.ctx ▸ ha) rfl ?_
    rw [hframe.ctx, hreg, hctx.fromForm_form ha, Nat.mod_eq_of_lt hlt]

/-- Settles O53: operands below `n` are handed to REDC, and the product of forms is the form of the product. -/
theorem montgomeryProduct : Obligations.MontgomeryProduct := by
  intro s rd ra rb hs ha
  obtain ⟨-, -, hctx, -⟩ := hs
  refine ⟨fun hx hy => ?_, fun hbig => raises_whenActive (rd := rd) ha rfl (if_pos hbig) nofun⟩
  obtain ⟨v, hv, hlt, hmod⟩ := hctx.redc_ok ha (hctx.mul_lt ha hx hy)
  rw [← hctx.mulmod_eq_redc ha hx hy] at hv
  refine ⟨v, writes_whenActive ha rfl hv, hlt, hmod, fun x y hformx hformy => ?_⟩
  rw [hformx, hformy] at hv
  exact Except.ok.inj (hv.symm.trans (hctx.mulmod_form ha x y))

end Sys2Proof.Machine
end

section
/-! PROOFS. The left-to-right scan of MEXP keeps the form of a power (44_montgomery.md R182); it settles O54. -/

namespace Sys2Proof.Machine

variable {cap : Nat} {c : Ctx}

/-- Shifting in a bit doubles what stands above it and adds the bit. -/
theorem div_two_pow_eq_add_bitOf (e i : Nat) : e / 2 ^ i = e / 2 ^ (i + 1) + e / 2 ^ (i + 1) + bitOf e i := by
  rw [bitOf, Nat.shiftRight_eq_div_pow, Nat.pow_succ, ← Nat.div_div_eq_div_mul]
  omega

/-- The scan from the product of bit `i` on, after the squaring. -/
def mexpBit (cap : Nat) (c : Ctx) (bt e i squared : Nat) : Except ErrKind Nat :=
  if bitOf e i = 1 then mulmod cap c squared bt >>= mexpScan cap c bt e i else mexpScan cap c bt e i squared

theorem mexpScan_succ (cap : Nat) (c : Ctx) (bt e i rt : Nat) :
    mexpScan cap c bt e (i + 1) rt =
      if i ≠ bitlen e - 1 then mulmod cap c rt rt >>= mexpBit cap c bt e i else mexpBit cap c bt e i rt := rfl

namespace Ctx.Sound

variable (hc : c.Sound cap) (ha : c.state = .active)
include hc ha

/-- The product of bit `i` on the form of a squared power. -/
theorem mexpBit_form (b e i : Nat) :
    mexpBit cap c (c.form b) e i (c.form (b ^ (e / 2 ^ (i + 1) + e / 2 ^ (i + 1))))
      = mexpScan cap c (c.form b) e i (c.form (b ^ (e / 2 ^ i))) := by
  rw [div_two_pow_eq_add_bitOf e i, mexpBit]
  split
  · next hbit => rw [hc.mulmod_form ha, hbit, Nat.pow_succ]; rfl
  · next hbit => rw [show bitOf e i = 0 from Nat.mod_two_ne_one.1 hbit]; rfl

/-- The scan of the bits below `i`: the accumulator is the form of the power for the bits from `i` up. Before the top bit
that power is 1, its own square, so there the squaring is left out. -/
theorem mexpScan_form (b e : Nat) {i : Nat} (hi : i ≤ bitlen e) :
    mexpScan cap c (c.form b) e i (c.form (b ^ (e / 2 ^ i))) = .ok (c.form (b ^ e)) := by
  induction i with
  | zero => rw [Nat.pow_zero, Nat.div_one]; rfl
  | succ i ih =>
    have hrest := (hc.mexpBit_form ha b e i).trans (ih (by omega))
    rw [mexpScan_succ]
    split
    · rw [hc.mulmod_form ha, ← Nat.pow_add]
      exact hrest
    · next htop =>
      have hlt : e < 2 ^ (i + 1) := (bitlen_le_iff ..).1 (by omega)
      rw [Nat.div_eq_of_lt hlt] at hrest ⊢
      exact hrest

/-- MEXP does not reduce the 1 of a zero exponent. -/
theorem mexp_ok (base e : Nat) : mexp cap c base e = .ok (if e = 0 then 1 else base ^ e % c.n) := by
  unfold mexp
  by_cases he : e = 0
  · rw [if_pos he, if_pos he]
  by_cases hb : base = 0
  · rw [if_neg he, if_neg he, if_pos hb, hb, Nat.zero_pow (Nat.pos_of_ne_zero he), Nat.zero_mod]
  have hscan := hc.mexpScan_form ha (base % c.n) e le_rfl
  rw [Nat.div_eq_of_lt (lt_two_pow_bitlen e), Nat.pow_zero] at hscan
  rw [if_neg he, if_neg he, if_neg hb, bigMod_ok (hc.ne_zero ha), Nat.pow_mod]
  simp only [bind, Except.bind, hc.toForm_ok ha, hscan, hc.fromForm_form ha]

end Ctx.Sound

/-- Settles O54: under the invariant the context is sound, so the scan ends with the form of the power. -/
theorem montgomeryPower : Obligations.MontgomeryPower := by
  intro s rd ra rb hs ha
  obtain ⟨-, -, hctx, -⟩ := hs
  exact writes_whenActive ha rfl (hctx.mexp_ok ha _ _)

end Sys2Proof.Machine
end

section
/-! PROOFS. The two exponentiation engines, the selector over them, and the universal properties of the Montgomery unit; it
settles O60. -/

namespace Sys2Proof.Machine

variable {cap : Nat} {c : Ctx} {n e d : Nat}

/-! ## The engines and the selector (43_schoolbook_modexp.md R157; 46_expselector.md R210 to R214) -/

/-- Where the products fit, the schoolbook engine answers the power reduced, but for the 1 of a zero exponent. -/
theorem smodexp_ok (hn : n ≠ 0) (hcap : 2 * len32 n ≤ cap) (base e : Nat) :
    smodexp cap base e n = .ok (if e = 0 then 1 else base ^ e % n) := by
  by_cases he : e = 0
  · rw [smodexp_zero_exp hn he, if_pos he]
  rw [if_neg he]
  rcases Nat.lt_or_ge 1 n with h2 | h1
  · exact smodexp_of_fits h2 fun a b => mulFits_mod hn hcap _ _
  obtain rfl : n = 1 := by omega
  rw [Nat.mod_one]
  by_cases hb : base = 0
  · exact smodexp_zero_base hn he hb
  · exact smodexp_one_modulus rfl he hb

theorem finalReduce_eq_mod (n r : Nat) : finalReduce n r = r % n := by
  unfold finalReduce
  split
  · rfl
  · next hlt => rw [Nat.mod_eq_of_lt (not_le.1 hlt)]

/-- The final reduction takes the 1 of a zero exponent to the power reduced (46_expselector.md R214). -/
theorem finalReduce_pow (n base e : Nat) : finalReduce n (if e = 0 then 1 else base ^ e % n) = base ^ e % n := by
  rw [finalReduce_eq_mod]
  split
  · next he => rw [he, Nat.pow_zero]
  · exact Nat.mod_mod ..

/-- Where the products fit, the selected engine answers and there is no fallback. -/
theorem Ctx.Sound.modexp_ok (hc : c.Sound cap) (hn : n ≠ 0) (hcap : 2 * len32 n ≤ cap) (base e : Nat) :
    modexp cap c base e n = .ok (base ^ e % n, selectEngine c n, false) := by
  rw [modexp, if_neg hn, ← finalReduce_pow n base e]
  by_cases hsel : c.state = .active ∧ c.n = n ∧ n % 2 = 1 ∧ bitlen n ≥ Config.montgomeryMinBits
  · obtain ⟨ha, rfl, -⟩ := id hsel
    rw [show selectEngine c c.n = .montgomery from if_pos hsel, runMontgomery, hc.mexp_ok ha]
    rfl
  · rw [show selectEngine c n = .schoolbook from if_neg hsel, runSchoolbook, smodexp_ok hn hcap]
    rfl

theorem Ctx.Sound.enginesAgree (hc : c.Sound cap) (ha : c.state = .active) (base e : Nat) :
    EnginesAgree cap c base e := by
  refine ⟨_, hc.mexp_ok ha base e, smodexp_ok (hc.ne_zero ha) (hc.two_mul_len32_le ha) base e, fun h2 => ?_⟩
  split
  · next he => rw [he, Nat.pow_zero, Nat.mod_eq_of_lt h2]
  · rfl

/-! ## Forms (44_montgomery.md R179, R181) -/

theorem Ctx.Sound.mulmodCongruence (hc : c.Sound cap) (ha : c.state = .active) (a b : Nat) :
    MulmodCongruence cap c a b :=
  ⟨_, _, _, hc.toForm_ok ha a, hc.toForm_ok ha b, hc.mulmod_form ha a b, by rw [hc.toForm_ok ha, c.form_mod]⟩

theorem Ctx.Sound.formRoundTrip (hc : c.Sound cap) (ha : c.state = .active) {a : Nat} (hlt : a < c.n) :
    FormRoundTrip cap c a :=
  ⟨_, hc.toForm_ok ha a, by rw [hc.fromForm_form ha, Nat.mod_eq_of_lt hlt]⟩

/-! ## Keypairs (47_rsaop_collaborator.md R224) -/

/-- A squarefree number divides what each of its primes divides. -/
theorem dvd_of_squarefree {x : Nat} (hn : Squarefree n) (h : ∀ p : Nat, p.Prime → p ∣ n → p ∣ x) : n ∣ x := by
  rw [← Nat.prod_primeFactors_of_squarefree hn]
  exact Finset.prod_primes_dvd x (fun p hp => (Nat.prime_of_mem_primeFactors hp).prime)
    fun p hp => h p (Nat.prime_of_mem_primeFactors hp) (Nat.dvd_of_mem_primeFactors hp)

/-- The two exponents of a keypair undo each other, by Fermat's theorem for each prime of the modulus. -/
theorem ValidKeypair.pow_mul_modEq (hk : ValidKeypair n e d) (m : Nat) : m ^ (e * d) ≡ m [MOD n] := by
  obtain ⟨hsq, hpos, hprimes⟩ := hk
  refine ((Nat.modEq_iff_dvd' (Nat.le_self_pow (by omega) m)).2 (dvd_of_squarefree hsq fun p hp hpn => ?_)).symm
  have hfermat := Int.ModEq.pow_eq_pow hp ((Nat.modEq_iff_dvd' hpos).1 (hprimes p hp hpn).symm) hpos Nat.one_pos m
  rw [pow_one, ← Nat.cast_pow, Int.natCast_modEq_iff] at hfermat
  exact (Nat.modEq_iff_dvd' (Nat.le_self_pow (by omega) m)).1 hfermat.symm

theorem ValidKeypair.restores (hk : ValidKeypair n e d) {m : Nat} (hm : m < n) : (m ^ e % n) ^ d % n = m := by
  rw [← Nat.pow_mod, ← Nat.pow_mul]
  exact Nat.mod_eq_of_modEq (hk.pow_mul_modEq m) hm

theorem Ctx.Sound.rsaCorrect (hc : c.Sound cap) (ha : c.state = .active) {m : Nat} (hk : ValidKeypair c.n e d)
    (hm : m < c.n) : RsaCorrect cap c e d m := by
  have hn := hc.ne_zero ha
  have hcap := hc.two_mul_len32_le ha
  obtain ⟨-, hpos, -⟩ := id hk
  obtain ⟨he, hd⟩ := mul_ne_zero_iff.1 (Nat.one_le_iff_ne_zero.1 hpos)
  refine ⟨⟨_, hc.mexp_ok ha m e, ?_⟩, _, _, hc.modexp_ok hn hcap m e, hc.modexp_ok hn hcap _ d, hk.restores hm⟩
  rw [hc.mexp_ok ha, if_neg hd, if_neg he, hk.restores hm]

/-! ## The statement -/

/-- Settles O60: each property holds under a sound Active context, which the invariant gives. -/
theorem montgomeryProperties : Obligations.MontgomeryProperties := by
  intro s hs ha
  obtain ⟨-, -, hctx, -⟩ := hs
  obtain ⟨-, -, -, hnp, -⟩ := hctx.1 ha
  exact ⟨fun a b _ _ => hctx.mulmodCongruence ha a b, fun a hlt => hctx.formRoundTrip ha hlt, hnp,
    hctx.enginesAgree ha, fun e d m hk hm => hctx.rsaCorrect ha hk hm⟩

end Sys2Proof.Machine
end

section
/-! PROOFS. The extended-Euclid solver: its loop ends with the gcd and a Bézout coefficient; it settles O55. -/

namespace Sys2Proof.Machine

variable {a m x y : Nat}

/-! ## Sign-tagged coefficients (45_modinverse.md R202) -/

/-- The update on pairs is the update of the integers they stand for. -/
theorem SignedMag.toInt_subMul (t0 t1 : SignedMag) (q : Nat) :
    (t0.subMul t1 q).toInt = t0.toInt - q * t1.toInt := by
  obtain ⟨neg0, mag0⟩ := t0
  obtain ⟨neg1, mag1⟩ := t1
  unfold SignedMag.subMul
  split_ifs with hsign hle
  · obtain rfl : neg1 = !neg0 := Bool.eq_not_of_ne hsign.symm
    cases neg0 <;> simp [SignedMag.toInt]
    ring
  · obtain rfl := not_not.1 hsign
    cases neg0 <;> simp [SignedMag.toInt, Nat.cast_sub hle]
    ring
  · obtain rfl := not_not.1 hsign
    cases neg0 <;> simp [SignedMag.toInt, Nat.cast_sub (not_le.1 hle).le]
    ring

/-! ## The loop (45_modinverse.md R202, R203) -/

/-- As `r1` strictly decreases, that much fuel takes the loop to the gcd. -/
theorem euclidLoop_fst (fuel r0 r1 : Nat) (t0 t1 : SignedMag) (hfuel : r1 ≤ fuel) :
    (euclidLoop fuel r0 r1 t0 t1).1 = Nat.gcd r0 r1 := by
  induction fuel generalizing r0 r1 t0 t1 with
  | zero =>
    obtain rfl := Nat.le_zero.1 hfuel
    exact (Nat.gcd_zero_right r0).symm
  | succ fuel ih =>
    unfold euclidLoop
    split
    · next hr1 => rw [hr1, Nat.gcd_zero_right]
    · next hr1 =>
      have hdecr := Nat.mod_lt r0 (Nat.pos_of_ne_zero hr1)
      rw [ih _ _ _ _ (by omega), Nat.gcd_comm r1, ← Nat.gcd_rec, Nat.gcd_comm]

/-- Each coefficient times `a` stays its remainder modulo `m`. -/
theorem euclidLoop_bezout (fuel r0 r1 : Nat) (t0 t1 : SignedMag) (h0 : a * t0.toInt ≡ r0 [ZMOD m])
    (h1 : a * t1.toInt ≡ r1 [ZMOD m]) :
    a * (euclidLoop fuel r0 r1 t0 t1).2.toInt ≡ (euclidLoop fuel r0 r1 t0 t1).1 [ZMOD m] := by
  induction fuel generalizing r0 r1 t0 t1 with
  | zero => exact h0
  | succ fuel ih =>
    unfold euclidLoop
    split
    · exact h0
    · refine ih _ _ _ _ h1 ?_
      calc (a : Int) * (t0.subMul t1 (r0 / r1)).toInt
          = a * t0.toInt - (r0 / r1 : Nat) * (a * t1.toInt) := by rw [SignedMag.toInt_subMul]; ring
        _ ≡ r0 - (r0 / r1 : Nat) * r1 [ZMOD m] := h0.sub (h1.mul_left _)
        _ = (r0 % r1 : Nat) := by rw [Int.natCast_mod, Int.natCast_div, Int.emod_def, mul_comm]

/-! ## The solver (45_modinverse.md R200, R201) -/

/-- Of a coefficient of at most the modulus, the last step makes a natural number that is the same modulo `m`. -/
theorem SignedMag.reduced_modEq (t : SignedMag) (hmag : t.mag ≤ m) :
    ((if t.neg then m - t.mag else t.mag : Nat) : Int) ≡ t.toInt [ZMOD m] := by
  unfold SignedMag.toInt
  split
  · rw [Nat.cast_sub hmag]
    exact Int.modEq_iff_dvd.2 ⟨-1, by ring⟩
  · rfl

/-- What the solver answers: at the exit the remainder is the gcd, and where that is 1 the coefficient is an inverse. -/
theorem euclidInverse_cases (hm : 0 < m) :
    (Nat.gcd a m ≠ 1 ∧ euclidInverse a m = .error .noInverse)
    ∨ (Nat.gcd a m = 1 ∧ ∃ x ≤ m, euclidInverse a m = .ok x ∧ a * x ≡ 1 [MOD m]) := by
  have hgcd := euclidLoop_fst m m (a % m) ⟨false, 0⟩ ⟨false, 1⟩ (Nat.mod_lt a hm).le
  have hbez := euclidLoop_bezout (a := a) (m := m) m m (a % m) ⟨false, 0⟩ ⟨false, 1⟩
    (by simp [SignedMag.toInt, Int.ModEq]) (by simp [SignedMag.toInt, Int.ModEq])
  have hmag := euclidLoop_mag_le m m (a % m) ⟨false, 0⟩ ⟨false, 1⟩ hm (Nat.zero_le m) (by simp)
  unfold euclidInverse
  generalize euclidLoop m m (a % m) ⟨false, 0⟩ ⟨false, 1⟩ = out at hgcd hbez hmag
  obtain ⟨r, t⟩ := out
  obtain rfl : r = Nat.gcd a m := hgcd.trans (by rw [Nat.gcd_comm, ← Nat.gcd_rec, Nat.gcd_comm])
  by_cases hone : Nat.gcd a m = 1
  · refine .inr ⟨hone, if t.neg then m - t.mag else t.mag, ?_, ?_, ?_⟩
    · split
      · exact Nat.sub_le ..
      · exact hmag
    · rw [if_neg (not_not.2 hone), apply_ite Except.ok]
    · rw [hone] at hbez
      exact_mod_cast ((t.reduced_modEq hmag).mul_left a).trans hbez
  · exact .inl ⟨hone, if_pos hone⟩

/-- Modulo `m ≥ 2` neither 0 nor `m` is an inverse, so a value of at most `m` that is one lies in `[1, m)`. -/
theorem inverse_mem_range (hm : 2 ≤ m) (hle : x ≤ m) (hx : a * x % m = 1) : 1 ≤ x ∧ x < m := by
  have hzero : x ≠ 0 := by rintro rfl; simp at hx
  have hself : x ≠ m := by rintro rfl; simp at hx
  omega

/-- Two inverses below `m` are equal, as a factor prime to `m` cancels (45_modinverse.md R201(d)). -/
theorem inverse_unique (hgcd : Nat.gcd a m = 1) (hxm : x < m) (hym : y < m) (hx : a * x % m = 1)
    (hy : a * y % m = 1) : y = x :=
  (Nat.ModEq.cancel_left_of_coprime ((Nat.gcd_comm m a).trans hgcd) (hy.trans hx.symm)).eq_of_lt_of_lt hym hxm

/-- `inv_mod` for `m ≥ 2`: no inverse, or one in `[1, m)`. -/
theorem invMod_cases (ha : a ≠ 0) (hm : 2 ≤ m) :
    (Nat.gcd a m ≠ 1 ∧ invMod a m = .error .noInverse)
    ∨ (Nat.gcd a m = 1 ∧ ∃ x, invMod a m = .ok x ∧ 1 ≤ x ∧ x < m ∧ a * x % m = 1) := by
  rw [show invMod a m = euclidInverse a m by rw [invMod, if_neg (by omega), if_neg (by omega)]]
  obtain hnone | ⟨hgcd, x, hle, hr, hx⟩ := euclidInverse_cases (a := a) (m := m) (by omega)
  · exact .inl hnone
  · rw [Nat.ModEq, Nat.mod_eq_of_lt (show 1 < m from hm)] at hx
    obtain ⟨hpos, hlt⟩ := inverse_mem_range hm hle hx
    exact .inr ⟨hgcd, x, hr, hpos, hlt, hx⟩

theorem invMod_of_zero (h : a = 0 ∨ m = 0) : invMod a m = .error .zeroOperand := if_pos h

theorem invMod_one (ha : a ≠ 0) : invMod a 1 = .error .noInverse := by
  rw [invMod, if_neg (by omega), if_pos rfl]

/-! ## The trial search (45_modinverse.md R204) -/

/-- The search finds an inverse among the values it tries when none before it is one. -/
theorem trialInverse_eq_some {start : Nat} (count : Nat) (hstart : start ≤ x) (hcount : x < start + count)
    (hx : a * x % m = 1) (hfirst : ∀ y, start ≤ y → y < x → a * y % m ≠ 1) :
    trialInverse a m count start = some x := by
  induction count generalizing start with
  | zero => omega
  | succ count ih =>
    unfold trialInverse
    rw [Nat.mod_mul_mod]
    obtain rfl | hlt := hstart.eq_or_lt
    · rw [if_pos hx]
    · rw [if_neg (hfirst start le_rfl hlt)]
      exact ih hlt (by omega) fun y hy => hfirst y (by omega)

/-! ## The statement -/

/-- Settles O55: the tests in order, and past them the Bézout coefficient, which only one value in `[1, m)` can be. -/
theorem inverseIsTheUniqueInverse : Obligations.InverseIsTheUniqueInverse := by
  intro s rd ra rb
  refine ⟨fun hzero => raises_of_error (rd := rd) rfl (invMod_of_zero hzero) nofun, fun ha hm hnone => ?_,
    fun ha hm hgcd => ?_⟩
  · refine raises_of_error (rd := rd) rfl ?_ nofun
    by_cases hone : s.reg rb = 1
    · rw [hone, invMod_one ha]
    · obtain ⟨-, hr⟩ | ⟨hgcd, -⟩ := invMod_cases ha (show 2 ≤ s.reg rb by omega)
      · exact hr
      · exact absurd hgcd (hnone.resolve_right hone)
  · obtain ⟨hne, -⟩ | ⟨-, x, hr, hpos, hlt, hx⟩ := invMod_cases ha hm
    · exact absurd hgcd hne
    have huniq : ∀ y, y < s.reg rb → s.reg ra * y % s.reg rb = 1 → y = x := fun y hym hy =>
      inverse_unique hgcd hlt hym hx hy
    exact ⟨x, writes_of_ok rfl hr, hpos, hlt, hx, fun y _ => huniq y,
      trialInverse_eq_some _ hpos (by omega) hx fun y _ hyx hy => hyx.ne (huniq y (hyx.trans hlt) hy)⟩

end Sys2Proof.Machine
end


section
/-! PROOFS. MODEXP ends as the engine that the policy selects; it settles O56. -/

namespace Sys2Proof.Machine

variable {cap n : Nat} {c : Ctx} {s : State} {rd ra rb rc : Reg}

/-! ## The policy (46_expselector.md R211) -/

/-- The modulus has at least 512 bits when it is at least `2^511`. -/
theorem selectEngine_eq (c : Ctx) (n : Nat) : selectEngine c n =
    if c.state = .active ∧ c.n = n ∧ n % 2 = 1 ∧ 2 ^ 511 ≤ n then .montgomery else .schoolbook :=
  if_congr (and_congr_right' (and_congr_right' (and_congr_right' (lt_bitlen_iff n 511)))) rfl rfl

/-! ## The schoolbook engine (43_schoolbook_modexp.md R156; 46_expselector.md R210, R214) -/

/-- For a nonzero modulus the only failure is `Overflow`; the products of modulus 1 always fit. -/
theorem smodexp_ok_or_overflow (hcap : 2 ≤ cap) (hn : n ≠ 0) (base e : Nat) :
    smodexp cap base e n = .ok (if e = 0 then 1 else base ^ e % n) ∨ smodexp cap base e n = .error .overflow := by
  by_cases he : e = 0
  · exact .inl (by rw [smodexp_zero_exp hn he, if_pos he])
  obtain rfl | hm : n = 1 ∨ 2 ≤ n := by omega
  · exact .inl (smodexp_ok hn hcap base e)
  · obtain ⟨fit, -, hend⟩ := smodexp_pow hm cap base e
    rw [if_neg he]
    exact (em fit).imp hend.eq_ok hend.eq_overflow

/-- Under the schoolbook selection MODEXP answers the power reduced or overflows, as SMODEXP does. -/
theorem modexp_schoolbook_cases (hcap : 2 ≤ cap) (hn : n ≠ 0) (hsel : selectEngine c n = .schoolbook) (base e : Nat) :
    ((∃ v, smodexp cap base e n = .ok v) ∧ modexp cap c base e n = .ok (base ^ e % n, .schoolbook, false))
    ∨ (smodexp cap base e n = .error .overflow ∧ modexp cap c base e n = .error (.overflow, false)) := by
  rw [modexp, if_neg hn, hsel, runSchoolbook, ← finalReduce_pow n base e]
  obtain h | h := smodexp_ok_or_overflow hcap hn base e <;> rw [h]
  · exact .inl ⟨⟨_, rfl⟩, rfl⟩
  · exact .inr ⟨rfl, rfl⟩

/-! ## The command (46_expselector.md R210, R215) -/

/-- MODEXP completes with the power reduced by this engine, without a fallback, and nothing but `rd` changes. -/
def PowerCompletes (rd ra rb rc : Reg) (s : State) (engine : Engine) : Prop :=
  ∃ t, exec (.modexp rd ra rb rc) s = .next t ∧ t.reg rd = s.reg ra ^ s.reg rb % s.reg rc
    ∧ Succeeded t engine ∧ OnlyRegs [rd] s t

theorem powerCompletes_of_ok {engine : Engine} (h : modexp s.cap s.ctx (s.reg ra) (s.reg rb) (s.reg rc)
    = .ok (s.reg ra ^ s.reg rb % s.reg rc, engine, false)) : PowerCompletes rd ra rb rc s engine :=
  ⟨_, by rw [exec, execModexp, h], by simp, ⟨rfl, rfl, rfl, rfl, rfl⟩, onlyRegs_setReg s rd _ _ _⟩

theorem raises_modexp {kind : ErrKind} (h : modexp s.cap s.ctx (s.reg ra) (s.reg rb) (s.reg rc) = .error (kind, false))
    (hkind : kind ≠ .internalInvariantBroken) : Raises (.modexp rd ra rb rc) s kind :=
  raises_of_finish (by rw [exec, execModexp, h, finish_error]) hkind

/-- A command has one end: it does not both write and raise. -/
theorem Writes.not_raises {i : Instr} {v : Nat} {kind : ErrKind} (hw : Writes i s rd v) : ¬ Raises i s kind := by
  rintro ⟨u, hu, hfail, -⟩
  obtain ⟨t, ht, -, hsucc, -⟩ := hw
  obtain rfl : t = u := Host.Outcome.next.inj (ht.symm.trans hu)
  exact nomatch hsucc.errKind.symm.trans hfail.errKind

/-- Under the invariant and the schoolbook selection MODEXP completes or overflows, as SMODEXP does. -/
theorem powerCompletes_or_overflow (hs : s.Inv) (hn : s.reg rc ≠ 0) (rd ra rb : Reg)
    (hsel : selectEngine s.ctx (s.reg rc) = .schoolbook) :
    ((∃ v, Writes (.smodexp rd ra rb rc) s rd v) ∧ PowerCompletes rd ra rb rc s .schoolbook)
    ∨ (Raises (.smodexp rd ra rb rc) s .overflow ∧ Raises (.modexp rd ra rb rc) s .overflow) := by
  obtain ⟨⟨hcap, -⟩, -⟩ := hs
  obtain ⟨⟨v, hv⟩, h⟩ | ⟨hover, h⟩ :=
    modexp_schoolbook_cases (Nat.le_trans (by decide) hcap) hn hsel (s.reg ra) (s.reg rb)
  · exact .inl ⟨⟨v, writes_of_ok rfl hv⟩, powerCompletes_of_ok h⟩
  · exact .inr ⟨raises_of_error (rd := rd) rfl hover nofun, raises_modexp h nofun⟩

/-! ## The statement -/

/-- Settles O56: a sound Active context's modulus is within half the capacity, so Montgomery completes; the schoolbook
engine ends as SMODEXP, and SMODEXP either completes or overflows. -/
theorem selectorGivesThePower : Obligations.SelectorGivesThePower := by
  intro s rd ra rb rc hs
  obtain ⟨-, -, hctx, -⟩ := id hs
  refine ⟨fun hzero => raises_modexp (if_pos hzero) nofun, fun hsel => ?_, fun hn hsel => ?_⟩
  · have heng := (selectEngine_eq s.ctx (s.reg rc)).trans (if_pos hsel)
    obtain ⟨ha, hrc, -⟩ := hsel
    have h := hctx.modexp_ok (hctx.ne_zero ha) (hctx.two_mul_len32_le ha) (s.reg ra) (s.reg rb)
    rw [hrc, heng] at h
    exact powerCompletes_of_ok h
  · have heng := (selectEngine_eq s.ctx (s.reg rc)).trans (if_neg hsel)
    refine ⟨fun hhalf => powerCompletes_of_ok (heng ▸ hctx.modexp_ok hn hhalf _ _), ?_⟩
    obtain ⟨⟨v, hwrites⟩, hdone⟩ | ⟨hraises, hover⟩ := powerCompletes_or_overflow hs hn rd ra rb heng
    · exact ⟨fun h => absurd h hwrites.not_raises, fun _ _ => hdone, .inl hdone⟩
    · exact ⟨fun _ => hover, fun _ h => absurd hraises h.not_raises, .inr hover⟩

end Sys2Proof.Machine
end

section
/-! PROOFS. A MODEXP by one exponent of a keypair undoes the MODEXP by the other (47_rsaop_collaborator.md R224); it
settles O57. -/

namespace Sys2Proof.Machine

variable {s : State} {rd ra rb rc : Reg}

/-- Under the invariant MODEXP completes by the selected engine for every modulus of at most half the capacity. -/
theorem powerCompletes_of_half_cap (hs : s.Inv) (hn : s.reg rc ≠ 0) (hcap : 2 * s.used rc ≤ s.cap) (rd ra rb : Reg) :
    PowerCompletes rd ra rb rc s (selectEngine s.ctx (s.reg rc)) := by
  obtain ⟨-, -, hctx, -⟩ := hs
  exact powerCompletes_of_ok (hctx.modexp_ok hn hcap _ _)

/-- Settles O57: each MODEXP gives a power reduced, the first leaves the key's registers as they are, and the two powers
are one whose exponent is `e·d`. -/
theorem rsaRoundTrip : Obligations.RsaRoundTrip := by
  intro s t bm be bd bn bc bo hs hkey hlt hcap hcd hcn hexec
  have hn : s.reg bn ≠ 0 := by omega
  obtain ⟨t', ht', hpower, -, hframe⟩ := powerCompletes_of_half_cap hs hn hcap bc bm be
  obtain rfl : t = t' := Host.Outcome.next.inj (hexec.symm.trans ht')
  have hmodulus : t.reg bn = s.reg bn := hframe.same.regs bn (by simpa using hcn.symm)
  have hexponent : t.reg bd = s.reg bd := hframe.same.regs bd (by simpa using hcd.symm)
  have hcap' : 2 * t.used bn ≤ t.cap := by rwa [State.used, hmodulus, State.cap, hframe.same.config]
  obtain ⟨u, hu, hplain, hdone, -⟩ :=
    powerCompletes_of_half_cap (inv_of_exec hs hexec) (hmodulus ▸ hn) hcap' bo bc bd
  refine ⟨u, hu, hdone.errKind, ?_⟩
  rw [hplain, hpower, hmodulus, hexponent, hkey.restores hlt]

end Sys2Proof.Machine
end

section
/-! PROOFS. No command ends with `InternalInvariantBroken` from a state of the invariant (60_exceptions.md R237): the two
verifications of the word inverse and the check of REDC hold; it settles O12. -/

namespace Sys2Proof.Machine

/-! ## Helpers that never break the internal invariant -/

section

variable {α β : Type} {r : Except ErrKind α}

/-- The helper answers, or raises a kind that leaves the block usable. -/
abbrev Unbroken (r : Except ErrKind α) : Prop := Meets (fun _ => True) (· ≠ ErrKind.internalInvariantBroken) r

theorem unbroken_of_ok {v : α} (h : r = .ok v) : Unbroken r := h ▸ .ok trivial

theorem unbroken_of_error {kind : ErrKind} (h : r = .error kind) (hk : kind ≠ .internalInvariantBroken) : Unbroken r :=
  h ▸ .error hk

theorem Unbroken.map (h : Unbroken r) (f : α → β) : Unbroken (r.map f) := Meets.map h fun _ _ => trivial

theorem unbroken_whenActive {c : Ctx} (h : c.state = .active → Unbroken r) : Unbroken (whenActive c r) :=
  .guard (by decide) fun ha => h (not_not.1 ha)

end

theorem unbroken_within (cap v : Nat) : Unbroken (within cap v) := by
  obtain ⟨-, h⟩ | ⟨-, h⟩ := within_cases cap v
  · exact unbroken_of_ok h
  · exact unbroken_of_error h nofun

theorem unbroken_bigShl (cap a bits : Nat) : Unbroken (bigShl cap a bits) := by
  obtain ⟨-, h⟩ | ⟨-, h⟩ := bigShl_cases cap a bits
  · exact unbroken_of_ok h
  · exact unbroken_of_error h nofun

theorem unbroken_bigSub (a b : Nat) : Unbroken (bigSub a b) := .guard nofun fun _ => .ok trivial

theorem unbroken_bigMul (cap a b : Nat) : Unbroken (bigMul cap a b) := .guard nofun fun _ => .ok trivial

theorem unbroken_bigDivMod (a b : Nat) : Unbroken (bigDivMod a b) := .guard nofun fun _ => .ok trivial

theorem unbroken_bigMod (a m : Nat) : Unbroken (bigMod a m) := .guard nofun fun _ => .ok trivial

theorem unbroken_smodexp {cap : Nat} (hcap : 2 ≤ cap) (base exp m : Nat) : Unbroken (smodexp cap base exp m) := by
  by_cases hm : m = 0
  · exact unbroken_of_error (smodexp_divisionByZero hm) nofun
  · obtain h | h := smodexp_ok_or_overflow hcap hm base exp
    · exact unbroken_of_ok h
    · exact unbroken_of_error h nofun

theorem unbroken_invMod (a m : Nat) : Unbroken (invMod a m) := by
  by_cases hzero : a = 0 ∨ m = 0
  · exact unbroken_of_error (invMod_of_zero hzero) nofun
  obtain ⟨ha, hm⟩ := not_or.1 hzero
  obtain rfl | hm2 : m = 1 ∨ 2 ≤ m := by omega
  · exact unbroken_of_error (invMod_one ha) nofun
  · obtain ⟨-, h⟩ | ⟨-, x, h, -⟩ := invMod_cases ha hm2
    · exact unbroken_of_error h nofun
    · exact unbroken_of_ok h

/-- Past the tests of the build the modulus is odd, so both verifications hold (44_montgomery.md R170, R172). -/
theorem unbroken_buildCtx (cap : Nat) (old : Ctx) (n : Nat) : Unbroken (buildCtx cap old n) := by
  by_cases h : old.state ≠ .active ∧ n % 2 = 1 ∧ 2 * len32 n + 1 ≤ cap
  · obtain ⟨hold, hodd, hcap⟩ := h
    exact unbroken_of_ok (buildCtx_ok hold hodd hcap)
  · refine .guard nofun fun hold => .guard nofun fun _ => .guard nofun fun heven => .guard nofun fun hcap => ?_
    exact absurd ⟨hold, Nat.mod_two_ne_zero.1 heven, not_lt.1 hcap⟩ h

/-- The product of operands below `n` is admitted by REDC, whose check then holds (44_montgomery.md R177, R181). -/
theorem Ctx.Sound.unbroken_mulmod {cap : Nat} {c : Ctx} (hc : c.Sound cap) (ha : c.state = .active) (a b : Nat) :
    Unbroken (mulmod cap c a b) := by
  by_cases h : a ≥ c.n ∨ b ≥ c.n
  · exact unbroken_of_error (if_pos h) nofun
  · obtain ⟨hx, hy⟩ : a < c.n ∧ b < c.n := by omega
    obtain ⟨v, hv, -⟩ := hc.redc_ok ha (hc.mul_lt ha hx hy)
    exact unbroken_of_ok ((hc.mulmod_eq_redc ha hx hy).trans hv)

/-! ## Commands -/

section

variable {s t : State} {i : Instr} {rd ra rb rc : Reg}

theorem Raises.errKind {kind : ErrKind} (h : Raises i s kind) (hexec : exec i s = .next t) : t.errKind = some kind := by
  obtain ⟨u, hu, hfail, -⟩ := h
  obtain rfl : t = u := Host.Outcome.next.inj (hexec.symm.trans hu)
  exact hfail.errKind

theorem PowerCompletes.errKind {engine : Engine} (h : PowerCompletes rd ra rb rc s engine)
    (hexec : exec (.modexp rd ra rb rc) s = .next t) : t.errKind = none := by
  obtain ⟨u, hu, -, hdone, -⟩ := h
  obtain rfl : t = u := Host.Outcome.next.inj (hexec.symm.trans hu)
  exact hdone.errKind

/-- The state does not report a broken internal invariant (60_exceptions.md R237). -/
abbrev State.Unbroken (t : State) : Prop := t.errKind ≠ some .internalInvariantBroken

theorem unbroken_of_finish {r : Except ErrKind State} (hr : Unbroken r) (h : finish s r = .next t) : t.Unbroken := by
  cases hr with
  | ok => cases h; exact nofun
  | error hk => cases h; exact fun e => hk (Option.some.inj e)

theorem unbroken_of_finishReg {r : Except ErrKind Nat} (hr : Unbroken r) (h : finishReg s rd r = .next t) :
    t.Unbroken :=
  unbroken_of_finish (hr.map _) h

theorem unbroken_of_execDivmod (h : execDivmod rd ra rb rc s = .next t) : t.Unbroken := by
  unfold execDivmod at h
  split at h
  · exact unbroken_of_finish (.error (by decide)) h
  · exact unbroken_of_finish ((unbroken_bigDivMod ..).map _) h

/-- MODEXP ends with the power, `DivisionByZero` or `Overflow`. -/
theorem unbroken_of_execModexp (hs : s.Inv) (h : exec (.modexp rd ra rb rc) s = .next t) : t.Unbroken := by
  obtain ⟨-, -, hctx, -⟩ := id hs
  have hraised {kind : ErrKind} (hk : kind ≠ .internalInvariantBroken) (hr : Raises (.modexp rd ra rb rc) s kind) :
      t.Unbroken := by
    rw [State.Unbroken, hr.errKind h]
    simpa using hk
  have hpower {engine : Engine} (hp : PowerCompletes rd ra rb rc s engine) : t.Unbroken := by
    rw [State.Unbroken, hp.errKind h]
    exact nofun
  obtain ⟨hzero, hmontgomery, hschoolbook⟩ := selectorGivesThePower s rd ra rb rc hs
  by_cases hn : s.reg rc = 0
  · exact hraised (by decide) (hzero hn)
  by_cases hsel : s.ctx.state = .active ∧ s.ctx.n = s.reg rc ∧ s.reg rc % 2 = 1 ∧ 2 ^ 511 ≤ s.reg rc
  · exact hpower (hmontgomery hsel)
  · obtain ⟨-, -, -, hp | hr⟩ := hschoolbook hn hsel
    · exact hpower hp
    · exact hraised (by decide) hr

/-- No command breaks the internal invariant: each helper answers or raises another kind, those of the Montgomery unit
because the context is sound. -/
theorem unbroken_of_exec (hs : s.Inv) (h : exec i s = .next t) : t.Unbroken := by
  obtain ⟨⟨hcap, -⟩, -, hctx, -⟩ := id hs
  have hcap2 : 2 ≤ s.cap := Nat.le_trans (by decide) hcap
  cases i with
  | cmp | iszero | isone | bitlen | getbit => exact unbroken_of_finish (s := s) (.ok trivial) h
  | zero | fromu32 | copy | shr => exact unbroken_of_finishReg (.ok trivial) h
  | shl => exact unbroken_of_finishReg (unbroken_bigShl ..) h
  | add | muladdw | addw => exact unbroken_of_finishReg (unbroken_within ..) h
  | sub => exact unbroken_of_finishReg (unbroken_bigSub ..) h
  | mul => exact unbroken_of_finishReg (unbroken_bigMul ..) h
  | divmod => exact unbroken_of_execDivmod h
  | mod => exact unbroken_of_finishReg (unbroken_bigMod ..) h
  | smodexp => exact unbroken_of_finishReg (unbroken_smodexp hcap2 ..) h
  | mbuild => exact unbroken_of_finish ((unbroken_buildCtx ..).map _) h
  | mdestroy => exact unbroken_of_finish (unbroken_whenActive fun _ => .ok trivial) h
  | redc rd ra =>
    refine unbroken_of_finishReg (unbroken_whenActive fun ha => .guard (by decide) fun hlt => ?_) h
    obtain ⟨v, hv, -⟩ := hctx.redc_ok ha (montRadix_eq s.ctx.k ▸ not_le.1 hlt)
    exact unbroken_of_ok hv
  | mtoform => exact unbroken_of_finishReg (unbroken_whenActive fun ha => unbroken_of_ok (hctx.toForm_ok ha _)) h
  | mfromform rd ra =>
    refine unbroken_of_finishReg (unbroken_whenActive fun ha => ?_) h
    obtain ⟨v, hv, -⟩ := hctx.fromForm_ok ha (s.reg ra)
    exact unbroken_of_ok hv
  | mmul => exact unbroken_of_finishReg (unbroken_whenActive fun ha => hctx.unbroken_mulmod ha ..) h
  | mexp => exact unbroken_of_finishReg (unbroken_whenActive fun ha => unbroken_of_ok (hctx.mexp_ok ha ..)) h
  | mgetn | mgetrr => exact unbroken_of_finishReg (unbroken_whenActive fun _ => .ok trivial) h
  | invmod => exact unbroken_of_finishReg (unbroken_invMod ..) h
  | modexp => exact unbroken_of_execModexp hs h

/-! ## Steps -/

theorem unbroken_of_completeCommand (hs : s.Inv) (h : completeCommand s = .next t) : t.Unbroken := by
  obtain ⟨i, -, hexec⟩ | ⟨_, -, rfl⟩ := completeCommand_cases h
  · exact unbroken_of_exec hs hexec
  · exact nofun

/-- An access leaves `ERRKIND` as it is, or clears it. -/
theorem errKind_of_performAccess {a : Access} (h : performAccess a s = .next t) :
    t.errKind = s.errKind ∨ t.errKind = none := by
  obtain ⟨_, l, -, -, rfl⟩ | ⟨_, v, l, -, -, rfl⟩ | ⟨-, rfl⟩ := performAccess_cases h
  · exact .inl (readLoc_sameBlock s l).errKind
  · obtain e | ⟨-, ⟨-, e⟩ | ⟨-, e⟩ | ⟨-, e⟩ | ⟨_, _, -, e⟩⟩ := writeLoc_cases s l v <;> rw [e] <;> exact .inl rfl
  · exact .inr rfl

theorem unbroken_of_step (hs : s.Inv) (hkind : s.Unbroken) (h : step s = .next t) : t.Unbroken := by
  obtain ⟨-, -, rfl⟩ | ⟨-, -, h⟩ | ⟨a, rest, -, h⟩ := step_cases h
  · exact hkind
  · exact unbroken_of_completeCommand (inv_afterTurn hs) h
  · obtain e | e := errKind_of_performAccess h <;> rw [State.Unbroken, e]
    · exact hkind
    · exact nofun

end

/-- Settles O12: no step reports the kind, and under the invariant, which the step keeps, FATAL reports it. -/
theorem fatalIsNeverEntered : Obligations.FatalIsNeverEntered := by
  intro s t hs _ hkind hstep
  obtain ⟨-, -, -, -, hfatal, -⟩ := inv_of_step hs hstep
  have hunbroken := unbroken_of_step hs hkind hstep
  exact ⟨fun h => hunbroken (hfatal h).2, hunbroken⟩

end Sys2Proof.Machine
end

section
/-! PROOFS. Failure, completion and reset (60_exceptions.md R233 to R238; 70_reset_and_hazards.md R260 to R274); it settles O7,
O8, O13 and O18. -/

namespace Sys2Proof.Machine

variable {s t : State} {i : Instr}

/-! ## Failure (60_exceptions.md R233, R235, R238) -/

theorem completeCommand_of_decode_error {e : DecodeError} (h : decode s.cmd = .error e) :
    completeCommand s = .next (s.failWith .illegalCommand) := by
  rw [completeCommand, h, finish_error]

/-- Settles O7: the completion of a word that is no command is a failure with `IllegalCommand`. -/
theorem illegalWordChangesOnlyStatus : Obligations.IllegalWordChangesOnlyStatus := fun s _ hbusy hnext hdecode =>
  ⟨_, (step_of_busy hbusy hnext).trans (completeCommand_of_decode_error (s := s.afterTurn) hdecode),
    ⟨rfl, rfl, rfl, rfl, rfl⟩, onlyRegs_failWith [] _ _ _⟩

/-- Every command but MODEXP completes by `finish`, which leaves `FALLBACK` 0 (46_expselector.md R215). -/
theorem exec_eq_finish (i : Instr) (s : State) :
    (∃ r, exec i s = finish s r) ∨ ∃ rd ra rb rc, i = .modexp rd ra rb rc := by
  cases i with
  | modexp rd ra rb rc => exact .inr ⟨rd, ra, rb, rc, rfl⟩
  | divmod rd ra rb rc => exact .inl ⟨_, (apply_ite (finish s) ..).symm⟩
  | zero | fromu32 | copy | shr | cmp | iszero | isone | bitlen | getbit => exact .inl ⟨.ok _, rfl⟩
  | _ => exact .inl ⟨_, rfl⟩

theorem finish_fallback {r : Except ErrKind State} (h : finish s r = .next t) : t.fallback = false := by
  obtain ⟨_, _, rfl⟩ | ⟨_, _, rfl⟩ := finish_cases h <;> rfl

theorem fsmAfter_eq (kind : ErrKind) : fsmAfter kind = if kind = .internalInvariantBroken then .fatal else .idle := by
  cases kind <;> rfl

/-- Settles O18: a command that reports a kind ended by `failWith`, and only MODEXP sets `FALLBACK`. -/
theorem failureChangesOnlyStatus : Obligations.FailureChangesOnlyStatus := by
  intro i s t kind hexec hkind
  obtain ⟨hnone, -⟩ | ⟨kind', fb, rfl⟩ := exec_ends hexec
  · exact nomatch hnone.symm.trans hkind
  obtain rfl : kind' = kind := Option.some.inj hkind
  refine ⟨onlyRegs_failWith [] s kind' fb, rfl, rfl, fsmAfter_eq kind', fun hfallback => ?_⟩
  obtain ⟨r, hr⟩ | hmodexp := exec_eq_finish i s
  · exact nomatch (finish_fallback (hr.symm.trans hexec)).symm.trans hfallback
  · exact hmodexp

/-! ## Completion (10_state.md R28(c); 70_reset_and_hazards.md R270, R274) -/

/-- A completion ends BUSY and sets DONE. -/
theorem completeCommand_completes (s : State) : ∃ t, completeCommand s = .next t ∧ t.fsm ≠ .busy ∧ t.done = true := by
  cases hdecode : decode s.cmd with
  | error e => exact ⟨_, completeCommand_of_decode_error hdecode, nofun, rfl⟩
  | ok i =>
    obtain ⟨t, hexec⟩ := exec_answers i s
    refine ⟨t, (completeCommand_of_decode hdecode).trans hexec, ?_⟩
    obtain ⟨-, hidle, hdone, -⟩ | ⟨kind, fb, rfl⟩ := exec_ends hexec
    · exact ⟨by simp [hidle], hdone⟩
    · exact ⟨fsmAfter_ne_busy kind, rfl⟩

/-- The pending accesses of the host exist (20_memory.md R57). -/
def State.PendingInPort (s : State) : Prop :=
  (∀ addr, Turn.host (.read addr) ∈ s.turns → addr < portSize s.cap)
    ∧ ∀ addr v, Turn.host (.write addr v) ∈ s.turns → addr < portSize s.cap

theorem State.PendingInPort.tail {turn : Turn} (h : s.PendingInPort) (hturns : s.turns = turn :: t.turns)
    (hcap : t.cap = s.cap) : t.PendingInPort := by
  obtain ⟨hread, hwrite⟩ := h
  rw [hturns, ← hcap] at hread hwrite
  exact ⟨fun addr hmem => hread addr (List.mem_cons_of_mem _ hmem),
    fun addr v hmem => hwrite addr v (List.mem_cons_of_mem _ hmem)⟩

/-- Within `bound` steps the block is not BUSY, and unless a reset is pending it got there by completing its command. -/
def CompletesWithin (bound : Nat) (s : State) : Prop :=
  ∃ n t, n ≤ bound ∧ Host.Core.run Sys2Proof.core n s = .next t ∧ t.fsm ≠ .busy
    ∧ (Turn.host .reset ∉ s.turns → t.done = true ∧ ∃ u, SameBlock s u ∧ completeCommand u = .next t)

theorem SameBlock.trans {u : State} (h : SameBlock s t) (h' : SameBlock t u) : SameBlock s u :=
  ⟨h'.config.trans h.config, h'.regs.trans h.regs, h'.ctx.trans h.ctx, h'.arg0.trans h.arg0, h'.arg1.trans h.arg1,
    h'.res0.trans h.res0, h'.fsm.trans h.fsm, h'.cmd.trans h.cmd, h'.done.trans h.done, h'.errKind.trans h.errKind,
    h'.engine.trans h.engine, h'.fallback.trans h.fallback⟩

theorem run_one (h : step s = .next t) : Sys2Proof.core.run 1 s = .next t := run_succ (M := Sys2Proof.core) h 0

theorem completesWithin_of_controllerNext (hbusy : s.fsm = .busy) (hnext : s.controllerNext) (bound : Nat) :
    CompletesWithin (bound + 1) s := by
  obtain ⟨t, hcomplete, hfsm, hdone⟩ := completeCommand_completes s.afterTurn
  exact ⟨1, t, Nat.le_add_left 1 bound, run_one ((step_of_busy hbusy hnext).trans hcomplete), hfsm,
    fun _ => ⟨hdone, s.afterTurn, .of_afterTurn (.refl _), hcomplete⟩⟩

/-- The reset input ends BUSY at once (70_reset_and_hazards.md R262). -/
theorem completesWithin_of_reset {rest : List Turn} (hturns : s.turns = .host .reset :: rest) (bound : Nat) :
    CompletesWithin (bound + 1) s :=
  ⟨1, s.afterTurn.applyReset, Nat.le_add_left 1 bound, run_one (step_of_host hturns), nofun,
    fun hnone => absurd (hturns ▸ List.mem_cons_self) hnone⟩

/-- An access that leaves the block as it is puts the completion off by one step. -/
theorem completesWithin_of_step {a : Access} {bound : Nat} (hturns : s.turns = .host a :: t.turns)
    (hstep : step s = .next t) (hsame : SameBlock s t) (h : CompletesWithin bound t) :
    CompletesWithin (bound + 1) s := by
  obtain ⟨n, v, hn, hrun, hfsm, hend⟩ := h
  refine ⟨n + 1, v, Nat.succ_le_succ hn, (run_succ (M := Sys2Proof.core) hstep n).trans hrun, hfsm, fun hnone => ?_⟩
  rw [hturns] at hnone
  obtain ⟨hdone, u, hu, hcomplete⟩ := hend fun hmem => hnone (List.mem_cons_of_mem _ hmem)
  exact ⟨hdone, u, hsame.trans hu, hcomplete⟩

/-- While BUSY a host access inside the port leaves the block as it is (20_memory.md R58, R59). -/
theorem step_of_access_while_busy {a : Access} {rest : List Turn} (hbusy : s.fsm = .busy)
    (hport : s.PendingInPort) (hturns : s.turns = .host a :: rest) (ha : a ≠ .reset) :
    ∃ t, step s = .next t ∧ SameBlock s t ∧ t.turns = rest := by
  have hmem : Turn.host a ∈ s.turns := hturns ▸ List.mem_cons_self
  have hrest : s.afterTurn.turns = rest := by rw [afterTurn_turns, hturns, List.tail_cons]
  obtain ⟨hread, hwrite⟩ := hport
  cases a with
  | read addr =>
    obtain ⟨l, hl⟩ := exists_locate (hread addr hmem)
    obtain ⟨-, -, hkept, -⟩ := readLoc_replies s.afterTurn l
    exact ⟨_, step_of_host_read hturns hl, .of_afterTurn (readLoc_sameBlock _ l), hkept.trans hrest⟩
  | write addr v =>
    obtain ⟨l, hl⟩ := exists_locate (hwrite addr v hmem)
    have hstep := step_of_host_write hturns hl
    rw [writeLoc_dropped (by simp [hbusy])] at hstep
    exact ⟨_, hstep, .of_afterTurn (.refl _), hrest⟩
  | reset => exact absurd rfl ha

/-- Each pending turn is the completion, the reset, or an access that leaves the block as it is. -/
theorem completesWithin_turns {l : List Turn} (hbusy : s.fsm = .busy) (hport : s.PendingInPort) (hl : s.turns = l) :
    CompletesWithin (l.length + 1) s := by
  induction l generalizing s with
  | nil => exact completesWithin_of_controllerNext hbusy (.inl hl) 0
  | cons turn rest ih =>
    rcases turn with _ | a
    · exact completesWithin_of_controllerNext hbusy (.inr ⟨rest, hl⟩) _
    · by_cases ha : a = .reset
      · exact completesWithin_of_reset (ha ▸ hl) _
      · obtain ⟨t, hstep, hsame, rfl⟩ := step_of_access_while_busy hbusy hport hl ha
        have hport' : t.PendingInPort := hport.tail hl (congrArg Config.cap hsame.config)
        exact completesWithin_of_step hl hstep hsame (ih (hsame.fsm.trans hbusy) hport' rfl)

/-- Settles O8, by induction on the pending turns. -/
theorem everyAcceptedCommandCompletes : Obligations.EveryAcceptedCommandCompletes :=
  fun _ hbusy hread hwrite => completesWithin_turns hbusy ⟨hread, hwrite⟩ rfl

/-! ## Reset (10_state.md R44; 70_reset_and_hazards.md R260, R262) -/

/-- After the reset input every location but CONFIG shows what it shows after reset. -/
theorem peek_applyReset (s : State) {l : Loc} (hl : l ≠ .config) : s.applyReset.peek l = State.reset.peek l := by
  cases l with
  | config => exact absurd rfl hl
  | _ => rfl

/-- Settles O13: the input leaves the reset state at the capacity of `s`, and the turns after it. -/
theorem resetInputClearsEverything : Obligations.ResetInputClearsEverything := by
  intro s rest hturns
  obtain ⟨hport, -⟩ := resetReadsZero
  exact ⟨s.afterTurn.applyReset, step_of_host hturns, fun l hl => (peek_applyReset _ hl).trans (hport l hl), rfl,
    reg_reset, rfl, rfl, by rw [applyReset_turns, afterTurn_turns, hturns, List.tail_cons]⟩

end Sys2Proof.Machine
end
